-- ==== Sys2Proof/Word.lean ====
section
/-! DEFINITION. The words of the engine: one name for each width the spec fixes (00_scope.md R6, R8, R9).

Every quantity is unsigned; bit 0 is the least significant bit (R8). -/

namespace Sys2Proof

/-- A command word, `CMDW` = 64 bits (00_scope.md R6, 30_encoding.md R70). -/
abbrev CommandWord := BitVec 64

/-- Response data, `DATAW` = 128 bits (00_scope.md R6, 30_encoding.md R73). -/
abbrev Data := BitVec 128

/-- A character operand, `CHW` = 8 bits: the ordinal of a character, 0..255, in the alphabet or not (00_scope.md R7). -/
abbrev CharCode := BitVec 8

/-- A node index, `IDXW` = 8 bits (00_scope.md R6, 10_state.md R25). -/
abbrev NodeIdx := BitVec 8

/-- One frequency-table entry, `FW` = 32 bits (10_state.md R23). -/
abbrev Count := BitVec 32

/-- A node's frequency, `SW` = 39 bits (10_state.md R24, 41_tree_builder.md R108). -/
abbrev Freq := BitVec 39

/-- A bit-string, first bit first: the bit 0 is `false`, the bit 1 is `true` (00_scope.md R9). -/
abbrev BitString := List Bool

/-- A symbol index 0..94 (00_scope.md R7). -/
abbrev SymIdx := Fin 95

end Sys2Proof
end

