-- ==== Sys2Proof/Machine/State.lean ====
section
/-! DEFINITION. The state of the engine (10_state.md), the port the host drives it through, the response statuses
(60_exceptions.md R180), and the reset state (10_state.md R35).

`Engine` is the record of 10_state.md R34: all the state the spec gives the machine, and two engine states are equal
iff its eight components are. `State` adds the MODEL's two port lists: what the host has still to present, and the
responses it has had (log entry 1). -/

namespace Sys2Proof.Machine

/-- `phase` (10_state.md R22): encodings 0, 1, 2; the value 3 is never taken, so the type has three values
(93_implementation_defined.md U11). -/
inductive Phase where
  /-- The frequency table may be written; no tree exists. -/
  | load
  /-- The tree exists and is immutable; no code table exists. -/
  | tree
  /-- Tree and code table exist and are immutable. -/
  | coded
  deriving DecidableEq, Repr

/-- The type Node (10_state.md R24); children are named by their index in NODE. -/
inductive Node where
  | leaf (sym : CharCode) (freq : Freq)
  | internal (freq : Freq) (left right : NodeIdx)
  deriving DecidableEq, Repr

/-- The status of a response (60_exceptions.md R180); codes 4..15 are never produced, so the type has four values
(93_implementation_defined.md U10). -/
inductive Status where
  | ok
  | errEmpty
  | errState
  | errIllegal
  deriving DecidableEq, Repr

/-- A response: a 4-bit status (here the status itself; its code is `Status.code`) and a 128-bit data word
(30_encoding.md R73). -/
structure Response where
  status : Status
  data : Data
  deriving DecidableEq, Repr

/-- What the host can do to the engine: present a command word, any 64-bit word in any phase, or assert reset
(00_scope.md R12, 70_reset_and_hazards.md R200). -/
inductive HostEvent where
  | command (w : CommandWord)
  | reset
  deriving DecidableEq, Repr

/-- All of the engine's state (10_state.md R34). -/
structure Engine where
  /-- Which structures exist (R22). -/
  phase : Phase
  /-- FT: the count of the symbol with ordinal `i + 32` (R23). -/
  ft : Vector Count 95
  /-- The number of leaves of the tree, 0 in phase LOAD (R26). -/
  nleaves : BitVec 8
  /-- The number of nodes in use (R25). -/
  nnodes : BitVec 8
  /-- The index of the tree root (R27). -/
  root : NodeIdx
  /-- NODE: the arena, a list of length `nnodes`; entries at or beyond it do not exist (R25). -/
  node : List Node
  /-- CT: the code of the symbol with ordinal `i + 32`, or none (R28). -/
  ct : Vector (Option BitString) 95
  /-- The decoder cursor (R29). -/
  dcur : NodeIdx
  deriving DecidableEq, Repr

/-- The engine and its port. `input` is what the host will do next, first event first; `responses` is the observation
of the run so far, oldest first (00_scope.md R16). -/
structure State where
  eng : Engine
  input : List HostEvent
  responses : List Response
  deriving DecidableEq, Repr

/-- Why a step stops. The engine itself never traps, hangs or gets stuck (00_scope.md R15): each of these is raised only
from a state that no run reaches, where the spec gives the command no effect (log entry 2). All are SAFE: the model stops
where nothing can be concluded of the hardware. -/
inductive Fault where
  /-- Raised by RDN, GEN and DBIT when they would read a NODE entry that does not exist (10_state.md R25). Safe. -/
  | noSuchNode
  /-- Raised by GEN when a Leaf names a symbol outside the alphabet, so CT has no entry for it (10_state.md R24). Safe. -/
  | noSuchSymbol
  /-- Raised by GEN when a path from the root is longer than the arena, so the nodes are no tree (42_code_table.md R121).
  Safe. -/
  | endlessPath
  deriving DecidableEq, Repr

/-- Why a step has no meaning. -/
inductive Refusal where
  /-- Raised by exec's arm of an instruction that has no meaning yet; no arm of this model raises it. Safe. -/
  | notModelled (mnemonic : String)
  deriving DecidableEq, Repr

/-- The reset state of the engine (10_state.md R35). -/
def Engine.reset : Engine :=
  { phase := .load
    ft := Vector.replicate 95 0
    nleaves := 0
    nnodes := 0
    root := 0
    node := []
    ct := Vector.replicate 95 none
    dcur := 0 }

/-- The machine right after reset: the engine as 10_state.md R35 says, nothing presented, nothing answered. -/
def State.reset : State :=
  { eng := .reset
    input := []
    responses := [] }

end Sys2Proof.Machine
end

