-- ==== Sys2Proof/Machine/Ops.lean ====
section
/-! DEFINITION. The shared operations: ending a command with a response, raising an error (the engine's whole exception
mechanism, 60_exceptions.md R184, R188), and the accesses to the three index-addressed arrays FT, NODE and CT
(20_memory.md R51), each of which moves one whole entry. -/

namespace Sys2Proof.Machine

/-- How a step of this machine ends. -/
abbrev Result := Host.Outcome State Fault Refusal

/-- The code of `phase` (10_state.md R22). -/
def Phase.code : Phase → BitVec 2
  | .load => 0
  | .tree => 1
  | .coded => 2

/-- The status codes (60_exceptions.md R180). -/
def Status.code : Status → BitVec 4
  | .ok => 0
  | .errEmpty => 1
  | .errState => 2
  | .errIllegal => 3

/-- Deliver a response: it joins the observation of the run (00_scope.md R16). -/
def State.respond (st : Status) (data : Data) (s : State) : State :=
  { s with responses := s.responses ++ [⟨st, data⟩] }

/-- End a command that executed: `respond(OK, data)` (00_scope.md R10). -/
def complete (data : Data) (s : State) : Result := .next (s.respond .ok data)

/-- TAKING AN EXCEPTION: `raise E` is `respond(E, 0)` and no state is written (00_scope.md R10, 60_exceptions.md R184).
There is no trap entry: nothing is saved, no mode changes, control goes nowhere, and so there is no return from one
(60_exceptions.md R188). -/
def raise (e : Status) (s : State) : Result := .next (s.respond e 0)

/-- `isLeaf(n)` (00_scope.md R10). -/
def Node.isLeaf : Node → Bool
  | .leaf _ _ => true
  | .internal _ _ _ => false

/-- `n.freq` (10_state.md R24). -/
def Node.freq : Node → Freq
  | .leaf _ f => f
  | .internal f _ _ => f

/-- `NODE[j]`; none where no such entry exists (10_state.md R25). -/
def nodeAt (nodes : List Node) (j : NodeIdx) : Option Node := nodes[j.toNat]?

/-- `n <- NODE[j]`, then the rest of the command; an entry that does not exist stops the model (log entry 2). -/
def withNode (j : NodeIdx) (s : State) (k : Node → Result) : Result :=
  match nodeAt s.eng.node j with
  | some n => k n
  | none => .fault .noSuchNode

/-- `FT[i] <- v` (20_memory.md R51). -/
def State.setFt (i : SymIdx) (v : Count) (s : State) : State :=
  { s with eng := { s.eng with ft := s.eng.ft.set i v } }

/-- `dcur <- j`. -/
def State.setDcur (j : NodeIdx) (s : State) : State := { s with eng := { s.eng with dcur := j } }

/-- What BUILD writes when it succeeds: NODE, the counts, `root`, `dcur`, `phase` (41_tree_builder.md R100). -/
def State.installTree (nodes : List Node) (leaves : Nat) (root : NodeIdx) (s : State) : State :=
  { s with eng :=
    { s.eng with
      node := nodes
      nleaves := BitVec.ofNat 8 leaves
      nnodes := BitVec.ofNat 8 nodes.length
      root := root
      dcur := root
      phase := .tree } }

/-- What GEN writes: all of CT, and `phase` (42_code_table.md R120). -/
def State.installCodes (ct : Vector (Option BitString) 95) (s : State) : State :=
  { s with eng := { s.eng with ct := ct, phase := .coded } }

/-- What CLR writes: all state (44_control.md R150). -/
def State.clear (s : State) : State :=
  { s with eng :=
    { phase := .load
      ft := Vector.replicate 95 0
      ct := Vector.replicate 95 none
      nleaves := 0
      nnodes := 0
      node := []
      root := 0
      dcur := 0 } }

end Sys2Proof.Machine
end

