-- ==== Sys2Proof/Machine/Operands.lean ====
section
/-! DEFINITION. The operand forms (30_encoding.md R72, 20_memory.md R52) and the layouts of the 128-bit data words that
answer a read (41_tree_builder.md R110, 42_code_table.md R128, 43_decoder.md R136). -/

namespace Sys2Proof.Machine

/-- The symbol index of an ordinal: `c − 32` if `32 <= c <= 126`, none outside the alphabet (00_scope.md R7, 20_memory.md
R52). -/
def symIndex (c : CharCode) : Option SymIdx :=
  if h : 32 ≤ c.toNat ∧ c.toNat ≤ 126 then some ⟨c.toNat - 32, by omega⟩ else none

/-- The ordinal of a symbol index: `i + 32` (00_scope.md R7). -/
def ordinalOf (i : SymIdx) : CharCode := BitVec.ofNat 8 (i.val + 32)

/-- What RDF reads: the count of `c`, 0 outside the alphabet (40_frequency_table.md R91). -/
def countOf (ft : Vector Count 95) (c : CharCode) : Count :=
  match symIndex c with
  | some i => ft[i]
  | none => 0

/-- What RDC looks up: the code of `c`, none outside the alphabet or where the symbol has no code (42_code_table.md
R127). -/
def codeOf (ct : Vector (Option BitString) 95) (c : CharCode) : Option BitString :=
  match symIndex c with
  | some i => ct[i]
  | none => none

/-- The data word of RDN for a node (41_tree_builder.md R110): from bit 127 down, 57 zeros, `freq` 70:32, `right` 31:24,
`left` 23:16, `sym` 15:8, six zeros, `kind` 1, `valid` 0. -/
def nodeData : Node → Data
  | .leaf sym freq => (0#57 ++ freq ++ 0#8 ++ 0#8 ++ sym ++ 0#6 ++ 0#1 ++ 1#1 : BitVec 128)
  | .internal freq left right => (0#57 ++ freq ++ right ++ left ++ 0#8 ++ 0#6 ++ 1#1 ++ 1#1 : BitVec 128)

/-- The number whose bit `k` is `p[k]`. -/
def bitsNat : BitString → Nat
  | [] => 0
  | b :: p => b.toNat + 2 * bitsNat p

/-- `pack(p)` (42_code_table.md R128): from bit 127 down, 26 zeros, the code bits 101:8 with `p[k]` at bit `8 + k`, `len`
7:1, `valid` 0. -/
def pack (p : BitString) : Data :=
  (0#26 ++ BitVec.ofNat 94 (bitsNat p) ++ BitVec.ofNat 7 p.length ++ 1#1 : BitVec 128)

/-- To unpack: `n = data[7:1]`, `p = [data[8], ..., data[8 + n − 1]]` (42_code_table.md R128); a host's operation. -/
def unpack (data : Data) : BitString :=
  (List.range (data.extractLsb' 1 7).toNat).map (fun k => data.getLsbD (8 + k))

/-- The data word of a DBIT that completes a symbol (43_decoder.md R136): `sym` at 15:8, `emit` = 1 at bit 0. -/
def emitData (sym : CharCode) : Data := (0#112 ++ sym ++ 0#7 ++ 1#1 : BitVec 128)

end Sys2Proof.Machine
end

