-- ==== Sys2Proof/Machine/CodeTable.lean ====
section
/-! DEFINITION. The code-table generator GEN and the code read-back RDC (42_code_table.md). -/

namespace Sys2Proof.Machine

/-- `CT[sym − 32] <- p`. The symbol of a leaf of a tree is in the alphabet; any other stops the model (log entry 2). -/
def recordCode (sym : CharCode) (p : BitString) (ct : Vector (Option BitString) 95) :
    Except Fault (Vector (Option BitString) 95) :=
  match symIndex sym with
  | some i => .ok (ct.set i (some p))
  | none => .error .noSuchSymbol

/-- `walk(j, p)` (R120, R121): the accumulated path grows at its end, left before right. The fuel bounds the path's length;
a path of a tree is shorter than its arena, because children have smaller indices (41_tree_builder.md R107). -/
def walk (nodes : List Node) : Nat → NodeIdx → BitString → Vector (Option BitString) 95 →
    Except Fault (Vector (Option BitString) 95)
  | 0, _, _, _ => .error .endlessPath
  | fuel + 1, j, p, ct =>
    match nodeAt nodes j with
    | none => .error .noSuchNode
    | some (.leaf sym _) => recordCode sym p ct
    | some (.internal _ left right) =>
      match walk nodes fuel left (p ++ [false]) ct with
      | .ok ct' => walk nodes fuel right (p ++ [true]) ct'
      | .error f => .error f

/-- The code table with no entry. -/
def noCodes : Vector (Option BitString) 95 := Vector.replicate 95 none

/-- The code table of a tree (R120): the sole symbol of a single-leaf tree has the code "0" (R122), otherwise each leaf's
path from the root. -/
def genCodes (nodes : List Node) (root : NodeIdx) : Except Fault (Vector (Option BitString) 95) :=
  match nodeAt nodes root with
  | none => .error .noSuchNode
  | some (.leaf sym _) => recordCode sym [false] noCodes
  | some (.internal _ _ _) => walk nodes nodes.length root [] noCodes

/-- GEN (R120): permitted in phase TREE only. -/
def execGen (s : State) : Result :=
  if s.eng.phase ≠ .tree then raise .errState s
  else
    match genCodes s.eng.node s.eng.root with
    | .ok ct => complete 0 (s.installCodes ct)
    | .error f => .fault f

/-- RDC c (R127): permitted in phase CODED only; no code answers 0. -/
def execRdc (c : CharCode) (s : State) : Result :=
  if s.eng.phase ≠ .coded then raise .errState s
  else
    match codeOf s.eng.ct c with
    | some p => complete (pack p) s
    | none => complete 0 s

end Sys2Proof.Machine
end

