-- ==== Sys2Proof/Machine/Flags.lean ====
section
/-! DEFINITION. The flag-like values and the STATUS word (10_state.md R30, R32). The engine has no condition codes and no
sticky flags: each of these is a function of the state, not state. -/

namespace Sys2Proof.Machine

/-- `root_is_leaf = (phase != LOAD) and (nleaves = 1)` (10_state.md R30). -/
def Engine.rootIsLeaf (e : Engine) : Bool := e.phase != .load && e.nleaves == 1

/-- `at_root = (dcur = root)` (10_state.md R30). -/
def Engine.atRoot (e : Engine) : Bool := e.dcur == e.root

/-- STATUS (10_state.md R32): from bit 127 down, 88 zeros, `dcur` 39:32, `root` 31:24, `nnodes` 23:16, `nleaves` 15:8,
four zeros, `at_root` 3, `root_is_leaf` 2, `phase` 1:0. -/
def Engine.statusWord (e : Engine) : Data :=
  (0#88 ++ e.dcur ++ e.root ++ e.nnodes ++ e.nleaves ++ 0#4 ++ BitVec.ofBool e.atRoot ++ BitVec.ofBool e.rootIsLeaf
    ++ e.phase.code : BitVec 128)

end Sys2Proof.Machine
end

