-- ==== Sys2Proof/Machine/Control.lean ====
section
/-! DEFINITION. The control commands CLR and RDS (44_control.md). -/

namespace Sys2Proof.Machine

/-- CLR (R150): permitted in every phase; all state to the reset values. -/
def execClr (s : State) : Result := complete 0 s.clear

/-- RDS (R152): permitted in every phase; the data word is STATUS. -/
def execRds (s : State) : Result := complete s.eng.statusWord s

end Sys2Proof.Machine
end

