-- ==== Sys2Proof/Machine/Decoder.lean ====
section
/-! DEFINITION. The bit-stream decoder DRST and DBIT (43_decoder.md). -/

namespace Sys2Proof.Machine

/-- DRST (R135): the cursor to the root; permitted in phases TREE and CODED; it reports nothing about a path it discards. -/
def execDrst (s : State) : Result :=
  if s.eng.phase = .load then raise .errState s
  else complete 0 (s.setDcur s.eng.root)

/-- The node a bit leads to: from an Internal node its left child on 0 and its right child on 1 (R137); a Leaf, which only
a root can be, is its own target (R139). -/
def bitTarget (b : Bool) (j : NodeIdx) : Node → NodeIdx
  | .internal _ left right => if b then right else left
  | .leaf _ _ => j

/-- The end of DBIT at the node reached, `t`: a Leaf emits its symbol and the cursor goes back to the root; at an Internal
node nothing is emitted (R138). -/
def arrive (t : NodeIdx) (s : State) : Node → Result
  | .leaf sym _ => complete (emitData sym) (s.setDcur s.eng.root)
  | .internal _ _ _ => complete 0 (s.setDcur t)

/-- DBIT b (R136): permitted in phases TREE and CODED. -/
def execDbit (b : Bool) (s : State) : Result :=
  if s.eng.phase = .load then raise .errState s
  else
    withNode s.eng.dcur s (fun n =>
      withNode (bitTarget b s.eng.dcur n) s (fun n' => arrive (bitTarget b s.eng.dcur n) s n'))

end Sys2Proof.Machine
end

