-- ==== Sys2Proof/Machine/FrequencyTable.lean ====
section
/-! DEFINITION. The frequency table commands LDF and RDF (40_frequency_table.md). -/

namespace Sys2Proof.Machine

/-- LDF c, count (R90): permitted in phase LOAD only; it overwrites; an ordinal outside the alphabet changes nothing. -/
def execLdf (c : CharCode) (count : Count) (s : State) : Result :=
  if s.eng.phase ≠ .load then raise .errState s
  else
    match symIndex c with
    | some i => complete 0 (s.setFt i count)
    | none => complete 0 s

/-- RDF c (R91): permitted in every phase; the count in `data[31:0]`. -/
def execRdf (c : CharCode) (s : State) : Result := complete ((countOf s.eng.ft c).setWidth 128) s

end Sys2Proof.Machine
end

