-- ==== Sys2Proof/Config.lean ====
section
/-! DEFINITION. The implementation parameters of 00_scope.md R6, every one with its fixed value, and the shape of the
two choices that 93_implementation_defined.md U1 and U2 call parameters. The engine's own choice (92_eei_decisions.md
D9, D10) is `Sys2Proof.Machine.TieRule.hardware`. There is no free value: 00_scope.md R14 leaves nothing open inside
a step. -/

namespace Sys2Proof.Config

/-- `NSYM`: the number of symbols of the fixed alphabet. -/
abbrev nsym : Nat := 95
/-- `SYM_LO`: the ordinal of the first symbol. -/
abbrev symLo : Nat := 32
/-- `SYM_HI`: the ordinal of the last symbol. -/
abbrev symHi : Nat := 126
/-- `CHW`: the width of a character operand. -/
abbrev chw : Nat := 8
/-- `FW`: the width of a frequency-table entry. -/
abbrev fw : Nat := 32
/-- `SW`: the width of a node's frequency. -/
abbrev sw : Nat := 39
/-- `NNODE_MAX`: the capacity of the node arena. -/
abbrev nnodeMax : Nat := 189
/-- `IDXW`: the width of a node index. -/
abbrev idxw : Nat := 8
/-- `MAXLEN`: the greatest possible code length. -/
abbrev maxlen : Nat := 94
/-- `LENW`: the width of a code length. -/
abbrev lenw : Nat := 7
/-- `CMDW`: the width of a command word. -/
abbrev cmdw : Nat := 64
/-- `STW`: the width of a response status. -/
abbrev stw : Nat := 4
/-- `DATAW`: the width of response data. -/
abbrev dataw : Nat := 128

/-- What the source leaves to an implementation of the tree builder (93_implementation_defined.md U1, U2): which of
two nodes of EQUAL frequency is removed first, and whether the node removed first becomes the left child. Node
indices name the nodes of one run, so every order in which a run can break its ties is such a relation. -/
structure TieRule where
  /-- `before i j`: among equal frequencies node `i` is removed before node `j`. -/
  before : NodeIdx → NodeIdx → Bool
  /-- `firstLeft n`: when node `n` is made, the node removed first becomes its left child. -/
  firstLeft : NodeIdx → Bool

end Sys2Proof.Config
end

