-- ==== Sys2Proof/Machine/TreeBuilder.lean ====
section
/-! DEFINITION. The tree builder BUILD and the tree read-back RDN (41_tree_builder.md).

The priority queue is the live set `Q` of node indices, each with its frequency: a list read as a set (R103, 10_state.md
R31). It is local to BUILD. The tie-break and the left/right choice are a parameter `t`, as 93_implementation_defined.md
U1 and U2 treat them; BUILD runs with `TieRule.hardware` (R104, R105). -/

namespace Sys2Proof.Machine

open Sys2Proof.Config (TieRule)

/-- A member of the live set: a node's index with the frequency it is ordered by. -/
structure QEntry where
  freq : Freq
  idx : NodeIdx
  deriving DecidableEq, Repr

/-- The tie-break and left/right choice of this hardware: among equal frequencies the smallest index first (R104, decision
D9), the node removed first is the left child (R105, decision D10). -/
def TieRule.hardware : TieRule :=
  { before := fun i j => decide (i.toNat < j.toNat)
    firstLeft := fun _ => true }

/-- `key(a) < key(b)`: first by frequency, an unsigned comparison, then by the tie-break (R104). -/
def keyLess (t : TieRule) (a b : QEntry) : Bool :=
  decide (a.freq.toNat < b.freq.toNat) || (a.freq == b.freq && t.before a.idx b.idx)

/-- Remove the entry with the least key from a non-empty live set: the entry, and the set without it (R104). -/
def takeMin (t : TieRule) : QEntry → List QEntry → QEntry × List QEntry
  | m, [] => (m, [])
  | m, x :: xs =>
    if keyLess t x m then
      let r := takeMin t x xs
      (r.1, m :: r.2)
    else
      let r := takeMin t m xs
      (r.1, x :: r.2)

/-- The leaf of a symbol, none where its count is 0 (R102): `sym` is the ordinal, `freq` the count zero-extended. -/
def leafOf (ft : Vector Count 95) (i : SymIdx) : Option Node :=
  if ft[i] = 0 then none else some (.leaf (ordinalOf i) (ft[i].setWidth 39))

/-- The leaves in ascending order of symbol (R102). -/
def leavesOf (ft : Vector Count 95) : List Node := (List.finRange 95).filterMap (leafOf ft)

/-- The live set that holds all leaves, each at its index (R103). -/
def initialQueue (leaves : List Node) : List QEntry :=
  leaves.zipIdx.map (fun p => ⟨p.1.freq, BitVec.ofNat 8 p.2⟩)

/-- A finished tree: the arena and the index of its root. -/
structure Built where
  nodes : List Node
  root : NodeIdx
  deriving DecidableEq, Repr

/-- The new node of a merge: `a` was removed first, `b` second, `n` is the new node's index (R105). -/
def mergeNode (t : TieRule) (n : NodeIdx) (a b : QEntry) : Node :=
  if t.firstLeft n then .internal (a.freq + b.freq) a.idx b.idx else .internal (a.freq + b.freq) b.idx a.idx

/-- The loop of R100 on the live set `e :: es`: while more than one node remains remove two minima, append their parent at
the next free index and insert it (R105); the one node that remains is the root (R106). Each round shrinks the live set by
one, so fuel of its size suffices and the case of no fuel is never reached from `buildTree`. -/
def mergeLoop (t : TieRule) : Nat → List Node → QEntry → List QEntry → Built
  | 0, nodes, e, _ => ⟨nodes, e.idx⟩
  | fuel + 1, nodes, e, es =>
    let first := takeMin t e es
    match first.2 with
    | [] => ⟨nodes, first.1.idx⟩
    | q :: qs =>
      let second := takeMin t q qs
      let n : NodeIdx := BitVec.ofNat 8 nodes.length
      mergeLoop t fuel (nodes ++ [mergeNode t n first.1 second.1]) ⟨first.1.freq + second.1.freq, n⟩ second.2

/-- The tree of a frequency table; none where every count is 0 (R100, R101). -/
def buildTree (t : TieRule) (ft : Vector Count 95) : Option Built :=
  match initialQueue (leavesOf ft) with
  | [] => none
  | e :: es => some (mergeLoop t (leavesOf ft).length (leavesOf ft) e es)

/-- BUILD (R100): permitted in phase LOAD only; ERR_EMPTY where every count is 0. -/
def execBuild (s : State) : Result :=
  if s.eng.phase ≠ .load then raise .errState s
  else
    match buildTree TieRule.hardware s.eng.ft with
    | none => raise .errEmpty s
    | some b => complete 0 (s.installTree b.nodes (leavesOf s.eng.ft).length b.root)

/-- RDN j (R110): permitted in phases TREE and CODED; an index at or beyond `nnodes` answers 0. -/
def execRdn (j : NodeIdx) (s : State) : Result :=
  if s.eng.phase = .load then raise .errState s
  else if s.eng.nnodes.toNat ≤ j.toNat then complete 0 s
  else withNode j s (fun n => complete (nodeData n) s)

end Sys2Proof.Machine
end

