-- ==== Sys2Proof/Syntax.lean ====
section
/-! DEFINITION. The ten commands of the engine, one constructor per row of spec/opcode_table.json, in the table's order
(30_encoding.md R71, R74). The operand types have exactly the widths of the operand fields, so every term of `Instr`
is a command that some word spells; the checks a command WORD must pass stand in WellFormed.lean. -/

namespace Sys2Proof

/-- A command with its operands (30_encoding.md R71). -/
inductive Instr where
  /-- CLR: end the coder instance (44_control.md R150). -/
  | clr
  /-- LDF c, count: load one frequency count (40_frequency_table.md R90). -/
  | ldf (c : CharCode) (count : Count)
  /-- RDF c: read one frequency count (40_frequency_table.md R91). -/
  | rdf (c : CharCode)
  /-- BUILD: build the tree (41_tree_builder.md R100). -/
  | build
  /-- GEN: derive the code table (42_code_table.md R120). -/
  | gen
  /-- RDN j: read one tree node (41_tree_builder.md R110). -/
  | rdn (j : NodeIdx)
  /-- RDC c: read one code (42_code_table.md R127). -/
  | rdc (c : CharCode)
  /-- RDS: read the status word (44_control.md R152). -/
  | rds
  /-- DRST: put the decoder cursor at the root (43_decoder.md R135). -/
  | drst
  /-- DBIT b: consume one bit (43_decoder.md R136); the bit is one hardware bit, so 0 or 1 and nothing else (R142). -/
  | dbit (b : Bool)
  deriving DecidableEq, Repr

end Sys2Proof
end

