-- ==== Sys2Proof/Machine/Dispatch.lean ====
section
/-! DEFINITION. One arm per command, each a call of its meaning. -/

namespace Sys2Proof.Machine

open Sys2Proof

def exec (i : Instr) (s : State) : Host.Outcome State Fault Refusal :=
  match i with
  | .clr => Sys2Proof.Machine.execClr s
  | .ldf c count => Sys2Proof.Machine.execLdf c count s
  | .rdf c => Sys2Proof.Machine.execRdf c s
  | .build => Sys2Proof.Machine.execBuild s
  | .gen => Sys2Proof.Machine.execGen s
  | .rdn j => Sys2Proof.Machine.execRdn j s
  | .rdc c => Sys2Proof.Machine.execRdc c s
  | .rds => Sys2Proof.Machine.execRds s
  | .drst => Sys2Proof.Machine.execDrst s
  | .dbit b => Sys2Proof.Machine.execDbit b s

end Sys2Proof.Machine
end

