-- ==== Sys2Proof/WellFormed.lean ====
section
/-! DEFINITION. The fields of the one command format C (30_encoding.md R70) and the checks a command word must pass to
be legal, each under a name of its own, written from the field table of R71. The decoder (Decode.lean) is written from
the procedure of R75 instead; that the two agree is a statement about them. -/

namespace Sys2Proof

/-- The four fields of format C: `cmd = (OP, Z, A, D)`, `OP` highest (30_encoding.md R70). -/
structure Fields where
  /-- bits 63:56 -/
  op : BitVec 8
  /-- bits 55:40, reserved -/
  z : BitVec 16
  /-- bits 39:32 -/
  a : BitVec 8
  /-- bits 31:0 -/
  d : BitVec 32
  deriving DecidableEq, Repr

/-- The ten commands without their operands. -/
inductive Op where
  | clr | ldf | rdf | build | gen | rdn | rdc | rds | drst | dbit
  deriving DecidableEq, Repr

/-- Every command, in the order of the opcode map. -/
def Op.all : List Op := [.clr, .ldf, .rdf, .build, .gen, .rdn, .rdc, .rds, .drst, .dbit]

/-- Which command an instruction is. -/
def Instr.op : Instr → Op
  | .clr => .clr
  | .ldf _ _ => .ldf
  | .rdf _ => .rdf
  | .build => .build
  | .gen => .gen
  | .rdn _ => .rdn
  | .rdc _ => .rdc
  | .rds => .rds
  | .drst => .drst
  | .dbit _ => .dbit

/-- The column `OP` of R71: ten opcodes 0x01 to 0x0A. -/
def Op.code : Op → BitVec 8
  | .clr => 0x01
  | .ldf => 0x02
  | .rdf => 0x03
  | .build => 0x04
  | .gen => 0x05
  | .rdn => 0x06
  | .rdc => 0x07
  | .rds => 0x08
  | .drst => 0x09
  | .dbit => 0x0A

/-- The column `A` of R71, as the bits of `A` that the command leaves free. -/
def Op.freeA : Op → BitVec 8
  | .clr | .build | .gen | .rds | .drst => 0x00
  | .ldf | .rdf | .rdn | .rdc => 0xFF
  | .dbit => 0x01

/-- The column `D` of R71, as the bits of `D` that the command leaves free (LDF's count only). -/
def Op.freeD : Op → BitVec 32
  | .ldf => 0xFFFFFFFF
  | .clr | .rdf | .build | .gen | .rdn | .rdc | .rds | .drst | .dbit => 0

/-- The command whose opcode is `c`, if `c` is assigned (R74: every other value is reserved). -/
def Op.ofCode? (c : BitVec 8) : Option Op := Op.all.find? (fun o => o.code == c)

/-- Check: the opcode is assigned (R74). -/
def Fields.opAssigned (f : Fields) : Bool := (Op.ofCode? f.op).isSome

/-- Check: the reserved field `Z` is 0 (R70). -/
def Fields.zClear (f : Fields) : Bool := f.z == 0

/-- Check: the bits of `A` that the command does not use are 0 (R71). -/
def Fields.aClear (f : Fields) : Bool :=
  match Op.ofCode? f.op with
  | some o => f.a &&& ~~~o.freeA == 0
  | none => true

/-- Check: the bits of `D` that the command does not use are 0 (R71). -/
def Fields.dClear (f : Fields) : Bool :=
  match Op.ofCode? f.op with
  | some o => f.d &&& ~~~o.freeD == 0
  | none => true

/-- A legal command word, by the field table of R71: all four checks hold. -/
def Fields.legal (f : Fields) : Bool := f.opAssigned && f.zClear && f.aClear && f.dClear

end Sys2Proof
end

