-- ==== Sys2Proof/Decode.lean ====
section
/-! DEFINITION. Decoding and encoding of command words (30_encoding.md R70 to R76), and the opcode map of R74.

`decode` is the procedure of R75: total on every 64-bit word, and it names why it rejects. `encode` is written from the
table of R71. `opcodeTable` holds the `match` and `mask` columns of R74. The three are written apart from one another,
so that statements about their agreement say something. -/

namespace Sys2Proof

/-- Cut a command word into its fields (R70). -/
def Fields.ofWord (w : CommandWord) : Fields :=
  { op := w.extractLsb' 56 8
    z := w.extractLsb' 40 16
    a := w.extractLsb' 32 8
    d := w.extractLsb' 0 32 }

/-- The word of four fields, `OP` in the highest bits (R70). -/
def Fields.toWord (f : Fields) : CommandWord := f.op ++ f.z ++ f.a ++ f.d

/-- Why a word is illegal (R75, R76). All four are one and the same ERR_ILLEGAL to the host (60_exceptions.md R183);
the decoder only says which test failed. -/
inductive Illegal where
  /-- `OP` is 0x00 or 0x0B..0xFF. -/
  | reservedOpcode
  /-- `Z` is not 0. -/
  | zNotZero
  /-- A bit of `A` that the command does not use is not 0. -/
  | aNotZero
  /-- `D` is not 0 and the command does not use it. -/
  | dNotZero
  deriving DecidableEq, Repr

/-- The command `i`, unless `D` is not 0 (the rows of R75 that test `D` only). -/
def needsNoD (f : Fields) (i : Instr) : Except Illegal Instr :=
  if f.d = 0 then .ok i else .error .dNotZero

/-- The command `i`, unless `A` or `D` is not 0 (the rows of R75 without operands). -/
def needsNoOperand (f : Fields) (i : Instr) : Except Illegal Instr :=
  if f.a = 0 then needsNoD f i else .error .aNotZero

/-- The case distinction of R75, on fields. -/
def decodeFields (f : Fields) : Except Illegal Instr :=
  if f.z = 0 then
    match f.op with
    | 0x01#8 => needsNoOperand f .clr
    | 0x02#8 => .ok (.ldf f.a f.d)
    | 0x03#8 => needsNoD f (.rdf f.a)
    | 0x04#8 => needsNoOperand f .build
    | 0x05#8 => needsNoOperand f .gen
    | 0x06#8 => needsNoD f (.rdn f.a)
    | 0x07#8 => needsNoD f (.rdc f.a)
    | 0x08#8 => needsNoOperand f .rds
    | 0x09#8 => needsNoOperand f .drst
    | 0x0A#8 =>
      if f.a.extractLsb' 1 7 = 0 then needsNoD f (.dbit (f.a.getLsbD 0)) else .error .aNotZero
    | _ => .error .reservedOpcode
  else .error .zNotZero

/-- Decoding a command word (R75). It does not depend on the state. -/
def decode (w : CommandWord) : Except Illegal Instr := decodeFields (Fields.ofWord w)

/-- The field `A` that holds the bit of DBIT: `A[0] = b`, `A[7:1]` = 0 (R71). -/
def bitOperand (b : Bool) : BitVec 8 := if b then 1 else 0

/-- The fields of each command (R71). -/
def Instr.toFields : Instr → Fields
  | .clr => ⟨0x01, 0, 0, 0⟩
  | .ldf c count => ⟨0x02, 0, c, count⟩
  | .rdf c => ⟨0x03, 0, c, 0⟩
  | .build => ⟨0x04, 0, 0, 0⟩
  | .gen => ⟨0x05, 0, 0, 0⟩
  | .rdn j => ⟨0x06, 0, j, 0⟩
  | .rdc c => ⟨0x07, 0, c, 0⟩
  | .rds => ⟨0x08, 0, 0, 0⟩
  | .drst => ⟨0x09, 0, 0, 0⟩
  | .dbit b => ⟨0x0A, 0, bitOperand b, 0⟩

/-- The word of a command (R70, R71). -/
def encode (i : Instr) : CommandWord := i.toFields.toWord

/-- One row of the opcode map: a word spells the command iff `w &&& mask = pattern` (R74). -/
structure OpcodeRow where
  op : Op
  pattern : CommandWord
  mask : CommandWord
  deriving DecidableEq, Repr

/-- Does the word spell the row's command (R74)? -/
def OpcodeRow.spells (r : OpcodeRow) (w : CommandWord) : Bool := w &&& r.mask == r.pattern

/-- The opcode map of R74, row by row. -/
def opcodeTable : List OpcodeRow :=
  [⟨.clr, 0x0100000000000000, 0xFFFFFFFFFFFFFFFF⟩,
   ⟨.ldf, 0x0200000000000000, 0xFFFFFF0000000000⟩,
   ⟨.rdf, 0x0300000000000000, 0xFFFFFF00FFFFFFFF⟩,
   ⟨.build, 0x0400000000000000, 0xFFFFFFFFFFFFFFFF⟩,
   ⟨.gen, 0x0500000000000000, 0xFFFFFFFFFFFFFFFF⟩] ++
  [⟨.rdn, 0x0600000000000000, 0xFFFFFF00FFFFFFFF⟩,
   ⟨.rdc, 0x0700000000000000, 0xFFFFFF00FFFFFFFF⟩,
   ⟨.rds, 0x0800000000000000, 0xFFFFFFFFFFFFFFFF⟩,
   ⟨.drst, 0x0900000000000000, 0xFFFFFFFFFFFFFFFF⟩,
   ⟨.dbit, 0x0A00000000000000, 0xFFFFFFFEFFFFFFFF⟩]

/-- The instruction the decoder reads from an instruction whose `nbits` table bits are `w`, every bit above them 0.
A command is one 64-bit word and there is no byte order (30_encoding.md R70, 20_memory.md R53), so bit `k` of the
number is bit `k` of the word. -/
def decodeTableWord (nbits w : Nat) : Option Instr :=
  match decode (BitVec.ofNat 64 (w % 2 ^ nbits)) with
  | .ok i => some i
  | .error _ => none

end Sys2Proof
end

