-- ==== Sys2Proof/Machine/Input.lean ====
section
/-! DEFINITION. What arrives at the port: taking a command word and taking a reset. `Machine/Step.lean` only calls these. -/

namespace Sys2Proof.Machine

/-- The command a word spells, none where the word is illegal (30_encoding.md R75). -/
def fetch (w : CommandWord) : Option Instr :=
  match decode w with
  | .ok i => some i
  | .error _ => none

/-- An illegal word executes as nothing: ERR_ILLEGAL in every phase (30_encoding.md R75, 60_exceptions.md R183). -/
def illegalWord (s : State) : Result := raise .errIllegal s

/-- Reset, a constant function of the engine: it gets no response, and a new run starts, so the observation is empty
(70_reset_and_hazards.md R200, R202, 00_scope.md R16). What the host does afterwards is not the engine's to change. -/
def takeReset (s : State) : State := { State.reset with input := s.input }

/-- The port with `w` presented next. -/
def present (w : CommandWord) (s : State) : State := { s with input := .command w :: s.input }

end Sys2Proof.Machine
end

