-- ==== Sys2Proof/Machine/Step.lean ====
section
/-! DEFINITION. One step: the engine takes the host's next event (00_scope.md R11, R12). There is no program counter and no
fetch from memory (10_state.md R21): the program is the sequence of command words the host presents. -/

namespace Sys2Proof.Machine

open Sys2Proof

/-- Take the next event. A command word is decoded and executed, and an illegal word answers ERR_ILLEGAL; a reset gives the
reset state; with no event the engine is idle and keeps all state (60_exceptions.md R190). -/
def step (s : State) : Host.Outcome State Fault Refusal :=
  match s.input with
  | [] => .next s
  | .reset :: rest => .next (takeReset { s with input := rest })
  | .command w :: rest =>
    match fetch w with
    | some i => exec i { s with input := rest }
    | none => illegalWord { s with input := rest }

/-- The state in which the host presents, as the very next event, the command word whose `nbits` table bits are `w`. -/
def State.withFetchWord (s : State) (nbits w : Nat) : State := present (BitVec.ofNat 64 (w % 2 ^ nbits)) s

end Sys2Proof.Machine
end

