-- ==== Sys2Proof/Machine/HostSide.lean ====
section
/-! DEFINITION. The host: how it runs commands on the engine (00_scope.md R11, R16) and the host reference functions that are
in scope (00_scope.md R4): FreqAnalyze, LoadTable, Encode, Decode, Construct, and the pseudo-commands of 30_encoding.md R78.
They are not hardware and have no opcode; every effect they have on the engine is a command word given to `step`. -/

namespace Sys2Proof.Machine

/-- The engine's `step : State × Command → State × Response` (00_scope.md R11): the word presented alone, the state after it
and its one response. None where the engine does not answer, which no reachable state does. -/
def Engine.answer (w : CommandWord) (e : Engine) : Option (Engine × Response) :=
  match step { eng := e, input := [.command w], responses := [] } with
  | .next s => s.responses.getLast?.map (fun r => (s.eng, r))
  | .fault _ => none
  | .refused _ => none

/-- A run (00_scope.md R16): the left fold of `Engine.answer` over the command words, with the responses. -/
def Engine.answers : List CommandWord → Engine → Option (Engine × List Response)
  | [], e => some (e, [])
  | w :: ws, e =>
    match e.answer w with
    | none => none
    | some (e', r) => (Engine.answers ws e').map (fun p => (p.1, r :: p.2))

/-- The host issues one command. -/
def Engine.issue (i : Instr) (e : Engine) : Option (Engine × Response) := e.answer (encode i)

/-- The host issues commands in order and does not look at the responses. -/
def Engine.issueAll : List Instr → Engine → Option Engine
  | [], e => some e
  | i :: is, e => (e.issue i).bind (fun p => Engine.issueAll is p.1)

/-- One character counted (40_frequency_table.md R96). -/
def countChar (T : Vector Nat 95) (o : Nat) : Vector Nat 95 :=
  if h : 32 ≤ o ∧ o ≤ 126 then T.set (o - 32) (T[o - 32] + 1) else T

/-- FreqAnalyze(text) (40_frequency_table.md R96): a text is a sequence of ordinals, any natural numbers; the counts are
unbounded in the host. -/
def freqAnalyze (text : List Nat) : Vector Nat 95 := text.foldl countChar (Vector.replicate 95 0)

/-- The LDF that loads one count. -/
def loadCommand (T : Vector Nat 95) (i : SymIdx) : Instr := .ldf (ordinalOf i) (BitVec.ofNat 32 T[i])

/-- LoadTable(T) (40_frequency_table.md R97): an LDF for every count above 0, in ascending order. None where some count does
not fit 32 bits: the host must refuse it and not truncate (93_implementation_defined.md U8). -/
def loadTable (T : Vector Nat 95) : Option (List Instr) :=
  if ∀ i : SymIdx, T[i] < 2 ^ 32 then
    some (((List.finRange 95).filter (fun i => decide (0 < T[i]))).map (loadCommand T))
  else none

/-- One character of Encode (42_code_table.md R130): an ordinal above 255 is skipped without a command; otherwise RDC, and
its code if `data[0] = 1`. -/
def encodeChar (o : Nat) (e : Engine) : Option (Engine × BitString) :=
  if o ≤ 255 then
    (e.issue (.rdc (BitVec.ofNat 8 o))).map
      (fun p => (p.1, if p.2.data.getLsbD 0 then unpack p.2.data else []))
  else some (e, [])

/-- Encode(text) (42_code_table.md R130), run on the engine. -/
def encodeText : List Nat → Engine → Option (Engine × BitString)
  | [], e => some (e, [])
  | o :: text, e =>
    (encodeChar o e).bind (fun p => (encodeText text p.1).map (fun q => (q.1, p.2 ++ q.2)))

/-- The loop of Decode (43_decoder.md R144): one DBIT per bit; a symbol is appended where `data[0] = 1`. -/
def decodeBits : BitString → Engine → Option (Engine × List CharCode)
  | [], e => some (e, [])
  | b :: bits, e =>
    (e.issue (.dbit b)).bind (fun p =>
      (decodeBits bits p.1).map (fun q =>
        (q.1, if p.2.data.getLsbD 0 then p.2.data.extractLsb' 8 8 :: q.2 else q.2)))

/-- Decode(bits) (43_decoder.md R144), run on the engine: DRST, the bits, DRST. -/
def decodeText (bits : BitString) (e : Engine) : Option (Engine × List CharCode) :=
  (e.issue .drst).bind (fun p =>
    (decodeBits bits p.1).bind (fun q =>
      (q.1.issue .drst).map (fun r => (r.1, q.2))))

/-- A bit character of the source's bit-strings, '0' is 48 and '1' is 49; any other character is refused
(93_implementation_defined.md U7). -/
def bitOfChar (o : Nat) : Option Bool := if o = 48 then some false else if o = 49 then some true else none

/-- The pseudo-commands (30_encoding.md R78). -/
inductive Pseudo where
  /-- `CONSTRUCT`: the tree and code-table part of Construct. -/
  | construct
  /-- `DEND`: the end of a bit-string. -/
  | dend
  /-- `DBITS "b0b1...bn-1"`. -/
  | dbits (chars : List Nat)
  /-- `LDTEXT "text"`. -/
  | ldtext (text : List Nat)
  deriving DecidableEq, Repr

/-- What a pseudo-command expands to (30_encoding.md R78). -/
inductive Expansion where
  /-- Commands issued in order, whatever they answer. -/
  | commands (is : List Instr)
  /-- `first`, and then `second` only if `first` responded OK. -/
  | ifOk (first second : Instr)
  deriving DecidableEq, Repr

/-- The expansion of a pseudo-command (30_encoding.md R78); none where the host must refuse it (U7, U8). -/
def Pseudo.expand : Pseudo → Option Expansion
  | .construct => some (.ifOk .build .gen)
  | .dend => some (.commands [.drst])
  | .dbits chars => (chars.mapM bitOfChar).map (fun bits => .commands (bits.map Instr.dbit))
  | .ldtext text => (loadTable (freqAnalyze text)).map Expansion.commands

/-- The host runs an expansion: the engine after it and every response it got, an error as well as an OK. -/
def Expansion.run : Expansion → Engine → Option (Engine × List Response)
  | .commands is, e => Engine.answers (is.map encode) e
  | .ifOk first second, e =>
    (e.issue first).bind (fun p =>
      if p.2.status = .ok then (p.1.issue second).map (fun q => (q.1, [p.2, q.2])) else some (p.1, [p.2]))

/-- How Construct ends (44_control.md R156). -/
inductive Constructed where
  /-- The engine is now the coder, in phase CODED. -/
  | coder (e : Engine)
  /-- It fails with EmptyInputError; the engine as it is left. -/
  | emptyInput (e : Engine)
  /-- A count does not fit: the host refuses the text (40_frequency_table.md R97). -/
  | countTooLarge
  /-- The engine did not answer as 44_control.md R156 says it does. -/
  | unexpected
  deriving DecidableEq, Repr

/-- How Construct ends once the table is loaded, from the last response of BUILD and GEN (44_control.md R156): OK is GEN's, and
only BUILD raises ERR_EMPTY. Construct runs them right after CLR, so BUILD is never refused by phase here. -/
def Constructed.ofRun : Option (Engine × List Response) → Constructed
  | none => .unexpected
  | some (e, rs) =>
    match rs.getLast? with
    | none => .unexpected
    | some r =>
      match r.status with
      | .ok => .coder e
      | .errEmpty => .emptyInput e
      | .errState => .unexpected
      | .errIllegal => .unexpected

/-- Construct(text) (44_control.md R156): CLR, FreqAnalyze, LoadTable, and BUILD and GEN as CONSTRUCT has them. -/
def construct (text : List Nat) (e : Engine) : Constructed :=
  match e.issue .clr with
  | none => .unexpected
  | some (e', _) =>
    match loadTable (freqAnalyze text) with
    | none => .countTooLarge
    | some loads =>
      match Engine.issueAll loads e' with
      | none => .unexpected
      | some e'' => .ofRun ((Expansion.ifOk .build .gen).run e'')

end Sys2Proof.Machine
end

