-- ==== Sys2Proof/Machine/Assembler.lean ====
section
/-! DEFINITION. The assembler spelling of 30_encoding.md R77 and R78: one command per line, the mnemonic in capitals, operands separated
by commas, `;` starts a comment. A line is a list of character codes (ASCII, the table of 00_scope.md section 7). -/

namespace Sys2Proof.Machine

/-- The pieces of a line. -/
inductive Token where
  /-- Letters and digits, as written. -/
  | word (chars : List Nat)
  /-- A glyph in single quotes, by its ordinal. -/
  | glyph (ordinal : Nat)
  /-- A text in double quotes (the pseudo-commands of R78). -/
  | quoted (chars : List Nat)
  | comma
  deriving DecidableEq, Repr

/-- Where the reader of a line stands: in a word or between words, or inside double quotes; what it has read there so far is
held backwards. -/
inductive LexMode where
  | word (back : List Nat)
  | quoted (back : List Nat)
  deriving DecidableEq, Repr

/-- The word read so far, written backwards, as a token in front of the rest. -/
def flushWord (back : List Nat) (rest : List Token) : List Token :=
  match back with
  | [] => rest
  | _ :: _ => .word back.reverse :: rest

/-- Cut a line into tokens: 39 is the single quote, 34 the double quote, 59 the semicolon, 44 the comma, 32 and 9 are blanks.
None where a single quote does not close after one glyph of the table, or a double quote does not close. -/
def tokens : List Nat → LexMode → Option (List Token)
  | [], .word back => some (flushWord back [])
  | [], .quoted _ => none
  | c :: rest, .quoted back =>
    if c = 34 then (tokens rest (.word [])).map (.quoted back.reverse :: ·) else tokens rest (.quoted (c :: back))
  | 39 :: g :: 39 :: rest, .word back =>
    if 32 ≤ g ∧ g ≤ 126 then (tokens rest (.word [])).map (fun ts => flushWord back (.glyph g :: ts)) else none
  | c :: rest, .word back =>
    if c = 59 then some (flushWord back [])
    else if c = 39 then none
    else if c = 34 then (tokens rest (.quoted [])).map (flushWord back)
    else if c = 44 then (tokens rest (.word [])).map (fun ts => flushWord back (.comma :: ts))
    else if c = 32 ∨ c = 9 then (tokens rest (.word [])).map (flushWord back)
    else tokens rest (.word (c :: back))

/-- A digit of a base up to 16, in capitals or small letters. -/
def digitOf (base c : Nat) : Option Nat :=
  let d :=
    if 48 ≤ c ∧ c ≤ 57 then some (c - 48)
    else if 65 ≤ c ∧ c ≤ 70 then some (c - 55)
    else if 97 ≤ c ∧ c ≤ 102 then some (c - 87)
    else none
  d.bind (fun n => if n < base then some n else none)

/-- The number spelt by digits, the first the highest. -/
def digitsValue (base : Nat) : List Nat → Nat → Option Nat
  | [], acc => some acc
  | c :: cs, acc => (digitOf base c).bind (fun d => digitsValue base cs (base * acc + d))

/-- A decimal number. -/
def decimal (chars : List Nat) : Option Nat :=
  match chars with
  | [] => none
  | _ :: _ => digitsValue 10 chars 0

/-- A decimal or `0x` hexadecimal number (48 is `0`, 120 is `x`). -/
def number (chars : List Nat) : Option Nat :=
  match chars with
  | 48 :: 120 :: d :: ds => digitsValue 16 (d :: ds) 0
  | _ => decimal chars

/-- A character operand: a decimal ordinal or a glyph in quotes. -/
def charOperand : Token → Option CharCode
  | .word chars => (decimal chars).bind (fun n => if n < 256 then some (BitVec.ofNat 8 n) else none)
  | .glyph g => some (BitVec.ofNat 8 g)
  | .quoted _ => none
  | .comma => none

/-- A count or a node index: decimal or hexadecimal, in `w` bits. -/
def numberOperand (w : Nat) : Token → Option (BitVec w)
  | .word chars => (number chars).bind (fun n => if n < 2 ^ w then some (BitVec.ofNat w n) else none)
  | .glyph _ => none
  | .quoted _ => none
  | .comma => none

/-- The bit of DBIT: `0` or `1`. -/
def bitToken : Token → Option Bool
  | .word [c] => bitOfChar c
  | _ => none

/-- The mnemonics as character codes. -/
def mnemonicOf : List Nat → Option Op
  | [67, 76, 82] => some .clr
  | [76, 68, 70] => some .ldf
  | [82, 68, 70] => some .rdf
  | [66, 85, 73, 76, 68] => some .build
  | [71, 69, 78] => some .gen
  | [82, 68, 78] => some .rdn
  | [82, 68, 67] => some .rdc
  | [82, 68, 83] => some .rds
  | [68, 82, 83, 84] => some .drst
  | [68, 66, 73, 84] => some .dbit
  | _ => none

/-- The command with the operand tokens that follow its mnemonic. -/
def parseOperands : Op → List Token → Option Instr
  | .clr, [] => some .clr
  | .ldf, [c, .comma, n] => (charOperand c).bind (fun c' => (numberOperand 32 n).map (Instr.ldf c'))
  | .rdf, [c] => (charOperand c).map Instr.rdf
  | .build, [] => some .build
  | .gen, [] => some .gen
  | .rdn, [j] => (numberOperand 8 j).map Instr.rdn
  | .rdc, [c] => (charOperand c).map Instr.rdc
  | .rds, [] => some .rds
  | .drst, [] => some .drst
  | .dbit, [b] => (bitToken b).map Instr.dbit
  | _, _ => none

/-- The pseudo-commands as character codes: `CONSTRUCT`, `DEND`, `DBITS "..."`, `LDTEXT "..."` (R78). -/
def parsePseudo : List Token → Option Pseudo
  | [.word [67, 79, 78, 83, 84, 82, 85, 67, 84]] => some .construct
  | [.word [68, 69, 78, 68]] => some .dend
  | [.word [68, 66, 73, 84, 83], .quoted chars] => some (.dbits chars)
  | [.word [76, 68, 84, 69, 88, 84], .quoted text] => some (.ldtext text)
  | _ => none

/-- What a line assembles to. -/
inductive AsmLine where
  /-- Command words, none at all for a blank or comment line. -/
  | words (ws : List CommandWord)
  /-- Two command words, the second issued only if the first is answered OK: CONSTRUCT (R78). -/
  | ifOk (first second : CommandWord)
  deriving DecidableEq, Repr

/-- The words of an expansion (R78). -/
def AsmLine.ofExpansion : Expansion → AsmLine
  | .commands is => .words (is.map encode)
  | .ifOk first second => .ifOk (encode first) (encode second)

/-- A line of tokens: a command, or a pseudo-command. -/
def assembleTokens : List Token → Option AsmLine
  | [] => some (.words [])
  | .word m :: operands =>
    match mnemonicOf m with
    | some o => (parseOperands o operands).map (fun i => .words [encode i])
    | none => (parsePseudo (.word m :: operands)).bind (fun p => p.expand.map AsmLine.ofExpansion)
  | _ => none

/-- Assemble one line; none where it is no line of the language. -/
def assembleLine (line : List Nat) : Option AsmLine := (tokens line (.word [])).bind assembleTokens

end Sys2Proof.Machine
end

