-- ==== Sys2Proof/Machine/Port.lean ====
section
/-! DEFINITION. The pins and the handshake (30_encoding.md R79, R80; 70_reset_and_hazards.md R200, R203, R212), one clock edge
at a time, around the transaction-level engine. A model need not have this layer (R80); it is here so that what R80 says of
it, that commands and responses alternate and the k-th response answers the k-th command, can be stated.

How many cycles a command takes is open (R212): it is the input `finish`, true on the edge at which the engine completes the
command it took, and chosen anew on every edge. What a latency of one cycle is, the least that R212 allows, the spec does not
say: here the response is then presented from the edge that takes the command on, so that the very next edge can deliver it.
Both are the model's choice (DESIGN CHOICE, log entry 5). -/

namespace Sys2Proof.Machine

/-- The pins the host drives, as sampled on a rising edge (R79), with the open latency beside them. -/
structure PinsIn where
  rst : Bool
  cmdValid : Bool
  cmd : CommandWord
  rspReady : Bool
  /-- Not a pin: the engine completes on this edge the command in flight, or the one this edge takes (R212, log entry 5). -/
  finish : Bool
  deriving DecidableEq, Repr

/-- Where the port stands in a transfer (R80). -/
inductive Transfer where
  /-- No command taken whose response has not been delivered. -/
  | idle
  /-- A command was taken and is not answered yet. -/
  | busy (w : CommandWord)
  /-- The response is presented and held until it is delivered. -/
  | answered (r : Response)
  deriving DecidableEq, Repr

/-- The engine with its port. -/
structure PortState where
  eng : Engine
  transfer : Transfer
  deriving DecidableEq, Repr

/-- The pins the engine drives (R79); `rsp` holds `rsp_status` and `rsp_data`, which mean something only while `rsp_valid` is
1. -/
structure PinsOut where
  cmdReady : Bool
  rspValid : Bool
  rsp : Option (BitVec 4 × Data)
  deriving DecidableEq, Repr

/-- The pins driven: none of them while `rst` = 1 (R200); `cmd_ready` only when idle, `rsp_valid` while a response is
presented (R80). That an idle engine drives `cmd_ready` = 1 on EVERY edge with `rst` = 0 is DESIGN CHOICE (log entry 15): R80 says
only that it is 1 only when idle, and R200 fixes it for the first edge after a reset. -/
def PortState.outputs (p : PortState) (rst : Bool) : PinsOut :=
  if rst then ⟨false, false, none⟩
  else
    match p.transfer with
    | .idle => ⟨true, false, none⟩
    | .busy _ => ⟨false, false, none⟩
    | .answered r => ⟨false, true, some (r.status.code, r.data)⟩

/-- The command taken on this edge (R80): `cmd_valid` = 1, `cmd_ready` = 1 and `rst` = 0. -/
def PortState.taken (p : PortState) (x : PinsIn) : Option CommandWord :=
  if x.cmdValid && (p.outputs x.rst).cmdReady && !x.rst then some x.cmd else none

/-- The response delivered on this edge (R80): `rsp_valid` = 1, `rsp_ready` = 1 and `rst` = 0. -/
def PortState.delivered (p : PortState) (x : PinsIn) : Option Response :=
  match p.transfer with
  | .answered r => if (p.outputs x.rst).rspValid && x.rspReady && !x.rst then some r else none
  | .idle => none
  | .busy _ => none

/-- What an edge does with a command in flight: where the engine completes it, its answer is presented and its whole effect is
on the state; otherwise nothing (R80; that the state changes on this edge is DESIGN CHOICE, log entry 5). -/
def PortState.work (e : Engine) (w : CommandWord) (finish : Bool) : PortState :=
  if finish then
    match e.answer w with
    | some (e', r) => ⟨e', .answered r⟩
    | none => ⟨e, .busy w⟩
  else ⟨e, .busy w⟩

/-- One rising edge. Reset wins whatever the port was doing, and a command in flight is abandoned (R200, R203). A command can
be completed on the edge that takes it, which is a latency of one cycle: the response is first seen on the next edge. That R212
counts so is DESIGN CHOICE (log entry 5). -/
def PortState.edge (p : PortState) (x : PinsIn) : PortState :=
  if x.rst then ⟨.reset, .idle⟩
  else
    match p.transfer with
    | .idle => if x.cmdValid then .work p.eng x.cmd x.finish else p
    | .busy w => .work p.eng w x.finish
    | .answered _ => if x.rspReady then ⟨p.eng, .idle⟩ else p

/-- What a sequence of edges does: the port after it, the words taken and the responses delivered, in order. -/
structure PortTrace where
  last : PortState
  taken : List CommandWord
  delivered : List Response
  deriving DecidableEq, Repr

/-- A sequence of rising edges. -/
def PortState.run (p : PortState) : List PinsIn → PortTrace
  | [] => ⟨p, [], []⟩
  | x :: xs =>
    let rest := (p.edge x).run xs
    ⟨rest.last, (p.taken x).toList ++ rest.taken, (p.delivered x).toList ++ rest.delivered⟩

end Sys2Proof.Machine
end

