-- ==== Sys2Proof/Safety.lean ====
section
/-! DEFINITION. The terms in which claims about the machine are made: the invariant of every reachable state, the permission
table and the priority of errors, the phase machine, and the shape-independent readings of a tree and a code table. None of
these is used by the machine; each is written from its own rule. -/

namespace Sys2Proof.Machine

open Sys2Proof.Config (TieRule)

/-! ## Permission, status, phase -/

/-- The permission table (60_exceptions.md R182); BUILD in LOAD is `ok/E`. -/
def permitted : Op → Phase → Bool
  | .clr, _ => true
  | .ldf, p => p == .load
  | .rdf, _ => true
  | .build, p => p == .load
  | .gen, p => p == .tree
  | .rdn, p => p != .load
  | .rdc, p => p == .coded
  | .rds, _ => true
  | .drst, p => p != .load
  | .dbit, p => p != .load

/-- Every frequency is zero (60_exceptions.md R181). -/
def allZero (ft : Vector Count 95) : Bool := (List.finRange 95).all (fun i => ft[i] == 0)

/-- The status a command word gets: legality first, then permission, then BUILD's own condition (60_exceptions.md R185). -/
def expectedStatus (w : CommandWord) (e : Engine) : Status :=
  match decode w with
  | .error _ => .errIllegal
  | .ok i =>
    if permitted i.op e.phase then
      if i.op = .build ∧ allZero e.ft = true then .errEmpty else .ok
    else .errState

/-- The phase machine (44_control.md R155): from LOAD a successful BUILD goes to TREE, from TREE GEN goes to CODED, from any
phase CLR goes to LOAD, and every other command, refused or not, keeps the phase. -/
def nextPhase (o : Op) (e : Engine) : Phase :=
  match o, e.phase with
  | .clr, _ => .load
  | .build, .load => if allZero e.ft then .load else .tree
  | .gen, .tree => .coded
  | _, p => p

/-! ## The invariant of every reachable state (45_invariants.md R160) -/

/-- NODE and the counts are exactly what BUILD computes from the current FT (R160 (c), (e)). -/
def Engine.builtFromTable (e : Engine) : Bool :=
  match buildTree TieRule.hardware e.ft with
  | none => false
  | some b =>
    e.node == b.nodes && e.root == b.root && e.nleaves == BitVec.ofNat 8 (leavesOf e.ft).length
      && e.nnodes == BitVec.ofNat 8 b.nodes.length

/-- The cursor stands at the root or at an Internal node (43_decoder.md R141). -/
def Engine.cursorOk (e : Engine) : Bool :=
  match nodeAt e.node e.dcur with
  | none => false
  | some n => e.dcur == e.root || !n.isLeaf

/-- CT is the code table of the tree in NODE (R160 (d)). -/
def Engine.codesOfTree (e : Engine) : Bool :=
  match genCodes e.node e.root with
  | .ok ct => e.ct == ct
  | .error _ => false

/-- R160 (b): what holds in LOAD. -/
def Engine.loadInv (e : Engine) : Bool :=
  e.nleaves == 0 && e.nnodes == 0 && e.root == 0 && e.dcur == 0 && e.node.isEmpty && e.ct == noCodes

/-- The invariant of every reachable state (R160). -/
def Engine.inv (e : Engine) : Bool :=
  match e.phase with
  | .load => e.loadInv
  | .tree => e.builtFromTable && e.cursorOk && e.ct == noCodes
  | .coded => e.builtFromTable && e.cursorOk && e.codesOfTree

/-- The engine satisfies the invariant of every reachable state. -/
abbrev Engine.Inv (e : Engine) : Prop := e.inv = true

/-- The machine's engine satisfies it; the port lists are the host's and are free. -/
abbrev State.Inv (s : State) : Prop := s.eng.Inv

/-! ## Reading a table and a tree -/

/-- The number of symbols with a count above 0 (`L` of 00_scope.md section 6). -/
def leafCount (ft : Vector Count 95) : Nat := ((List.finRange 95).filter (fun i => ft[i] != 0)).length

/-- The sum of all counts, a natural number. -/
def totalCount (ft : Vector Count 95) : Nat := ((List.finRange 95).map (fun i => ft[i].toNat)).sum

/-- The frequency of node `k`, as a natural number; 0 where there is no such node. -/
def freqAt (nodes : List Node) (k : Nat) : Nat :=
  match nodes[k]? with
  | some n => n.freq.toNat
  | none => 0

/-- `key(j) < key(k)` of 41_tree_builder.md R100 and R104: first by frequency, then by index. -/
def KeyBefore (nodes : List Node) (j k : Nat) : Prop :=
  freqAt nodes j < freqAt nodes k ∨ (freqAt nodes j = freqAt nodes k ∧ j < k)

/-- Node `k` is in the live set when node `n` is about to be made: it exists and no node made so far has it as a child. -/
def LiveBefore (nodes : List Node) (n k : Nat) : Prop :=
  k < n ∧ ∀ j f l r, j < n → nodes[j]? = some (Node.internal f l r) → l.toNat ≠ k ∧ r.toNat ≠ k

/-- Following a bit-string from node `j`, bit 0 to the left and bit 1 to the right; none where it leaves the tree
(42_code_table.md R125). -/
def follow (nodes : List Node) : NodeIdx → BitString → Option Node
  | j, [] => nodeAt nodes j
  | j, b :: p =>
    match nodeAt nodes j with
    | some (Node.internal _ l r) => follow nodes (if b then r else l) p
    | some (Node.leaf _ _) => none
    | none => none

/-- The sum of the frequencies of all Internal nodes (45_invariants.md R169). -/
def internalSum (nodes : List Node) : Nat := ((nodes.filter (fun n => !n.isLeaf)).map (fun n => n.freq.toNat)).sum

/-- The sum over symbols of `FT[i] × |CT[i]|` (45_invariants.md R169). -/
def encodedLength (ft : Vector Count 95) (ct : Vector (Option BitString) 95) : Nat :=
  ((List.finRange 95).map (fun i => ft[i].toNat * (ct[i].getD []).length)).sum

/-- The shape of a tree (41_tree_builder.md R107, 45_invariants.md R161): `L` leaves first, with strictly increasing symbols,
one for each symbol with a count and with that count, then the Internal nodes with children of smaller index, each node but
the root the child of exactly one Internal node. -/
structure TreeShape (ft : Vector Count 95) (nodes : List Node) (root : NodeIdx) : Prop where
  leaves_exist : 1 ≤ leafCount ft ∧ leafCount ft ≤ 95
  node_count : nodes.length = 2 * leafCount ft - 1
  root_is_last : root.toNat = nodes.length - 1
  leaves_first : ∀ k, k < leafCount ft →
    ∃ i : SymIdx, nodes[k]? = some (Node.leaf (ordinalOf i) (ft[i].setWidth 39)) ∧ ft[i] ≠ 0
  symbols_increase : ∀ (j k : Nat) (s : CharCode) (f : Freq) (s' : CharCode) (f' : Freq), j < k → nodes[j]? = some (Node.leaf s f) → nodes[k]? = some (Node.leaf s' f') →
    s.toNat < s'.toNat
  every_symbol : ∀ i : SymIdx, ft[i] ≠ 0 → Node.leaf (ordinalOf i) (ft[i].setWidth 39) ∈ nodes
  internals_after : ∀ k, leafCount ft ≤ k → k < nodes.length →
    ∃ f l r, nodes[k]? = some (Node.internal f l r) ∧ l.toNat < k ∧ r.toNat < k ∧ l ≠ r
  one_parent : ∀ k, k < nodes.length → k ≠ root.toNat →
    ∃! j : Nat, ∃ f l r, nodes[j]? = some (Node.internal f l r) ∧ (l.toNat = k ∨ r.toNat = k)
  root_no_child : ∀ (j : Nat) f l r, nodes[j]? = some (Node.internal f l r) → l ≠ root ∧ r ≠ root

/-- The frequency laws of a tree (45_invariants.md R162, R163, R164), all of natural numbers: an Internal node has the sum of
its children, the root has the total, Internal nodes come in non-decreasing order of frequency. -/
structure FrequencyLaws (ft : Vector Count 95) (nodes : List Node) (root : NodeIdx) : Prop where
  sum_of_children : ∀ (j : Nat) f l r, nodes[j]? = some (Node.internal f l r) →
    f.toNat = freqAt nodes l.toNat + freqAt nodes r.toNat
  root_total : freqAt nodes root.toNat = totalCount ft
  greedy_order : ∀ j k, leafCount ft ≤ j → j < k → k < nodes.length → freqAt nodes j ≤ freqAt nodes k

/-! ## The host's reference functions as pure functions -/

/-- `go(j, bits)` of 43_decoder.md R144. -/
def decodeFrom (nodes : List Node) (root : NodeIdx) : NodeIdx → BitString → List CharCode
  | _, [] => []
  | j, b :: bits =>
    match nodeAt nodes j with
    | none => []
    | some n =>
      let t :=
        match n with
        | .internal _ l r => if b then r else l
        | .leaf _ _ => j
      match nodeAt nodes t with
      | some (.leaf sym _) => sym :: decodeFrom nodes root root bits
      | some (.internal _ _ _) => decodeFrom nodes root t bits
      | none => []

/-- The code of an ordinal of a text, any natural number: `ε` where it has none (42_code_table.md R130). -/
def codeOfChar (ct : Vector (Option BitString) 95) (o : Nat) : BitString :=
  if h : 32 ≤ o ∧ o ≤ 126 then (ct[o - 32]).getD [] else []

/-- Does the ordinal have a code? -/
def hasCode (ct : Vector (Option BitString) 95) (o : Nat) : Bool :=
  if h : 32 ≤ o ∧ o ≤ 126 then (ct[o - 32]).isSome else false

/-- The concatenation of the codes of a text (42_code_table.md R130). -/
def encodePure (ct : Vector (Option BitString) 95) (text : List Nat) : BitString := text.flatMap (codeOfChar ct)

/-- A character the engine counts: an ordinal in 32..126 (00_scope.md R7). -/
def eligible (o : Nat) : Bool := decide (32 ≤ o) && decide (o ≤ 126)

/-- A table of the host as the engine holds it (40_frequency_table.md R97). -/
def tableOf (T : Vector Nat 95) : Vector Count 95 := T.map (BitVec.ofNat 32)

end Sys2Proof.Machine
end

