-- ==== Sys2Proof/Certificates/Slice0/Obligations.lean ====
section
/-! DEFINITION. The statements about the machine, each from a numbered rule of spec/. Where a premise `Inv` stands, it is the
invariant of every reachable state (45_invariants.md R160); that it holds at reset and that every step keeps it are statements
of their own. -/

open Sys2Proof Sys2Proof.Machine
open Sys2Proof.Config (TieRule)

/-! ## Encoding -/

/-- 30_encoding.md R71, R75: decoding the word of a command gives the command back, for every command with every operand, and
the word's fields pass the checks of the field table. -/
def Obligations.DecodeEncodeAgree : Prop :=
  ∀ i : Instr, decode (encode i) = .ok i ∧ (Fields.ofWord (encode i)).legal = true

/-- 30_encoding.md R75: decoding is total. Every word either spells exactly one command, which one row of the opcode map
spells too and whose encoding is the word, or it is illegal, no row spells it, and it executes as nothing in every state. -/
def Obligations.EveryWordSpellsOneCommandOrIsIllegal : Prop :=
  ∀ w : CommandWord,
    (∃ i, decode w = .ok i ∧ encode i = w ∧ (opcodeTable.filter (fun r => r.spells w)).map (fun r => r.op) = [i.op]) ∨
    ((∀ i, decode w ≠ .ok i) ∧ opcodeTable.filter (fun r => r.spells w) = [] ∧
      ∀ (s : State) (rest : List HostEvent), s.input = .command w :: rest →
        step s = .next (State.respond .errIllegal 0 { s with input := rest }))

/-- 30_encoding.md R71, R76: a word spells a command exactly when its fields pass the four checks of the field table. -/
def Obligations.DecodedExactlyWhenFieldsAreLegal : Prop :=
  ∀ w : CommandWord, (∃ i, decode w = .ok i) ↔ (Fields.ofWord w).legal = true

/-- 30_encoding.md R74: ten opcodes are assigned, 0x01 to 0x0A in the order of the map, every other value is reserved, and at
most one row of the map matches any word. -/
def Obligations.OpcodeRowsArePairwiseDisjoint : Prop :=
  opcodeTable.map (fun r => r.op) = Op.all ∧
  Op.all.map (fun o => o.code.toNat) = [1, 2, 3, 4, 5, 6, 7, 8, 9, 10] ∧
  (∀ r, r ∈ opcodeTable → r.pattern = r.op.code ++ 0#56) ∧
  (∀ c : BitVec 8, Op.ofCode? c = none ↔ c.toNat = 0 ∨ 11 ≤ c.toNat) ∧
  ∀ (w : CommandWord) (r r' : OpcodeRow), r ∈ opcodeTable → r' ∈ opcodeTable → r.spells w = true → r'.spells w = true →
    r = r'

/-- 30_encoding.md R77, R74, R75: words written out from the encoding decode to the commands they stand for, and illegal ones to an
error. A sanity check. That an illegal word has a NAMED reason, and which, is the model's choice (DESIGN CHOICE, log entry 8): the
spec has one illegal outcome. -/
def Obligations.SampleWordsDecode : Prop :=
  decode 0x0200006100000004 = .ok (.ldf 97 4) ∧ decode 0x0300006100000000 = .ok (.rdf 97) ∧
  decode 0x0400000000000000 = .ok .build ∧ decode 0x0500000000000000 = .ok .gen ∧
  decode 0x0600000200000000 = .ok (.rdn 2) ∧ decode 0x0700006100000000 = .ok (.rdc 97) ∧
  decode 0x0A00000100000000 = .ok (.dbit true) ∧ decode 0x0000000000000000 = .error .reservedOpcode ∧
  decode 0x0100010000000000 = .error .zNotZero ∧ decode 0x0400000100000000 = .error .aNotZero ∧
  decode 0x0300006100000001 = .error .dNotZero ∧ decode 0x0A00000200000000 = .error .aNotZero

/-- 30_encoding.md R77: the worked encodings of the assembler, from their lines (character codes): `LDF 'a', 4`, `RDN 2`,
`RDC 'a'`, `DBIT 1`, `DBIT 0`, `BUILD`. -/
def Obligations.WorkedLinesAssemble : Prop :=
  assembleLine [76, 68, 70, 32, 39, 97, 39, 44, 32, 52] = some (.words [0x0200006100000004]) ∧
  assembleLine [82, 68, 78, 32, 50] = some (.words [0x0600000200000000]) ∧
  assembleLine [82, 68, 67, 32, 39, 97, 39] = some (.words [0x0700006100000000]) ∧
  assembleLine [68, 66, 73, 84, 32, 49] = some (.words [0x0A00000100000000]) ∧
  assembleLine [68, 66, 73, 84, 32, 48] = some (.words [0x0A00000000000000]) ∧
  assembleLine [66, 85, 73, 76, 68] = some (.words [0x0400000000000000])

/-! ## Steps, reset and runs -/

/-- 00_scope.md R11: a step with a command word presented runs exactly the command the word spells; what the step adds is that
the word is taken from the port. -/
def Obligations.StepRunsTheDecodedCommand : Prop :=
  ∀ (s : State) (w : CommandWord) (rest : List HostEvent) (i : Instr),
    s.input = .command w :: rest → decode w = .ok i → step s = exec i { s with input := rest }

/-- 70_reset_and_hazards.md R200, 60_exceptions.md R190: reset gives the reset state whatever the state was, and an idle engine
keeps all state. That the observation starts anew at a reset is 00_scope.md R16; that an idle step keeps it too is the model's
(log entry 1). -/
def Obligations.ResetAndIdleSteps : Prop :=
  (∀ (s : State) (rest : List HostEvent), s.input = .reset :: rest → step s = .next { State.reset with input := rest }) ∧
  ∀ s : State, s.input = [] → step s = .next s

/-- 10_state.md R35: every piece of state at its reset value after reset and after CLR, and STATUS reads 8. -/
def Obligations.ResetValues : Prop :=
  State.reset.eng.phase = .load ∧ (∀ i : SymIdx, State.reset.eng.ft[i] = 0) ∧ State.reset.eng.nleaves = 0 ∧
  State.reset.eng.nnodes = 0 ∧ State.reset.eng.root = 0 ∧ State.reset.eng.node = [] ∧
  (∀ i : SymIdx, State.reset.eng.ct[i] = none) ∧ State.reset.eng.dcur = 0 ∧ State.reset.eng.statusWord = 8 ∧
  ∀ s : State, ∃ t, exec .clr s = .next t ∧ t.eng = State.reset.eng

/-- 70_reset_and_hazards.md R202: CLR and reset reach the same engine state from every state; CLR gets the response (OK, 0) and
reset gets none. That a reset also EMPTIES the list of responses, as the start of a new run (00_scope.md R16), is the model's choice
(DESIGN CHOICE, log entry 1). -/
def Obligations.ClrReachesTheResetState : Prop :=
  ∀ s : State,
    exec .clr s = .next { eng := .reset, input := s.input, responses := s.responses ++ [⟨.ok, 0⟩] } ∧
    ∀ rest, ∃ t, step { s with input := .reset :: rest } = .next t ∧ t.eng = .reset ∧ t.responses = []

/-- 00_scope.md R16: running command words one step each is the left fold of the engine's step over them: every command gets
exactly one response, in order, and the observation grows by exactly those. -/
def Obligations.RunIsTheFoldOfTheEngineStep : Prop :=
  ∀ (e : Engine) (ws : List CommandWord), e.Inv →
    ∃ e' rs, e.answers ws = some (e', rs) ∧ rs.length = ws.length ∧
      ∀ (rest : List HostEvent) (seen : List Response),
        Host.Core.run Sys2Proof.core ws.length
            ({ eng := e, input := ws.map HostEvent.command ++ rest, responses := seen } : State) =
          .next ({ eng := e', input := rest, responses := seen ++ rs } : State)

/-! ## The invariant -/

/-- 45_invariants.md R160: the reset state satisfies the invariant of every reachable state. -/
def Obligations.InvariantHoldsAtReset : Prop := State.reset.Inv

/-- 45_invariants.md R160: every step keeps the invariant, whatever the host presents. -/
def Obligations.EveryStepKeepsTheInvariant : Prop :=
  ∀ s t : State, s.Inv → step s = .next t → t.Inv

/-- 00_scope.md R15, R11: from a state that satisfies the invariant no sequence of events, however long, stops the machine: it
never traps, hangs or gets stuck. -/
def Obligations.ReachableStatesNeverStop : Prop :=
  ∀ (n : Nat) (s : State), s.Inv → ∃ t : State, Host.Core.run Sys2Proof.core n s = .next t ∧ t.Inv

/-- 45_invariants.md R160: every state that a run reaches from reset, whatever the host presents, satisfies the invariant, and in
every state that satisfies it (a) to (e) hold. -/
def Obligations.WhatHoldsInEveryReachableState : Prop :=
  (∀ (n : Nat) (events : List HostEvent) (t : State),
    Host.Core.run Sys2Proof.core n ({ State.reset with input := events } : State) = .next t → t.Inv) ∧
  ∀ e : Engine, e.Inv →
    (e.phase = .load ∨ e.phase = .tree ∨ e.phase = .coded) ∧
    (e.phase = .load → e.nleaves = 0 ∧ e.nnodes = 0 ∧ e.root = 0 ∧ e.dcur = 0 ∧ e.node = [] ∧
      ∀ i : SymIdx, e.ct[i] = none) ∧
    (e.phase ≠ .load →
      1 ≤ e.nleaves.toNat ∧ e.nleaves.toNat ≤ 95 ∧ e.nnodes.toNat = 2 * e.nleaves.toNat - 1 ∧
      e.nnodes.toNat = e.node.length ∧ e.root.toNat = e.nnodes.toNat - 1 ∧ e.dcur.toNat < e.nnodes.toNat ∧
      e.nleaves.toNat = leafCount e.ft ∧ buildTree TieRule.hardware e.ft = some ⟨e.node, e.root⟩) ∧
    (e.phase = .tree → ∀ i : SymIdx, e.ct[i] = none) ∧
    (e.phase = .coded →
      (∀ sym f, nodeAt e.node e.root = some (.leaf sym f) →
        ∀ (i : SymIdx) (p : BitString), e.ct[i] = some p ↔ ordinalOf i = sym ∧ p = [false]) ∧
      (∀ f l r, nodeAt e.node e.root = some (.internal f l r) →
        ∀ (i : SymIdx) (p : BitString),
          e.ct[i] = some p ↔ ∃ g, follow e.node e.root p = some (.leaf (ordinalOf i) g)))

/-! ## Statuses, permission, frames -/

/-- 60_exceptions.md R185: legality first, then permission in the phase, then BUILD's own condition, decide the status of every
command word; an error carries data 0. -/
def Obligations.StatusOfEveryCommandWord : Prop :=
  ∀ (s : State) (w : CommandWord) (rest : List HostEvent), s.Inv → s.input = .command w :: rest →
    ∃ (t : State) (data : Data), step s = .next t ∧ t.input = rest ∧
      t.responses = s.responses ++ [⟨expectedStatus w s.eng, data⟩] ∧ (expectedStatus w s.eng ≠ .ok → data = 0)

/-- 60_exceptions.md R182: a command the table does not permit in the phase raises ERR_STATE, in every state; one it permits
answers OK, or ERR_EMPTY if it is BUILD, and in a reachable state it answers. -/
def Obligations.PermissionTable : Prop :=
  ∀ (i : Instr) (s : State),
    (permitted i.op s.eng.phase = false → exec i s = .next (s.respond .errState 0)) ∧
    (permitted i.op s.eng.phase = true → ∀ (t : State) (r : Response), exec i s = .next t →
      t.responses = s.responses ++ [r] → r.status = .ok ∨ (i = .build ∧ r.status = .errEmpty)) ∧
    (permitted i.op s.eng.phase = true → s.Inv → ∃ t r, exec i s = .next t ∧ t.responses = s.responses ++ [r])

/-- 60_exceptions.md R183: ERR_ILLEGAL is raised for every illegal word, in every state, and for no other word. -/
def Obligations.ErrIllegalExactlyForIllegalWords : Prop :=
  ∀ (s : State) (w : CommandWord) (rest : List HostEvent), s.input = .command w :: rest →
    ((Fields.ofWord w).legal = false → step s = .next (State.respond .errIllegal 0 { s with input := rest })) ∧
    ((Fields.ofWord w).legal = true → ∀ (t : State) (r : Response), step s = .next t →
      t.responses = s.responses ++ [r] → r.status ≠ .errIllegal)

/-- 60_exceptions.md R184: a command whose status is not OK writes no state of the engine and carries data 0. -/
def Obligations.ErrorsChangeNothing : Prop :=
  ∀ (s t : State) (w : CommandWord) (rest : List HostEvent) (r : Response), s.input = .command w :: rest →
    step s = .next t → t.responses = s.responses ++ [r] → r.status ≠ .ok → t.eng = s.eng ∧ r.data = 0

/-- 60_exceptions.md R181, 41_tree_builder.md R101: ERR_EMPTY is raised by BUILD and only by BUILD, exactly in phase LOAD with
every count 0, and then nothing is written. -/
def Obligations.ErrEmptyExactlyWhenEveryCountIsZero : Prop :=
  ∀ (i : Instr) (s : State),
    ((∃ t data, exec i s = .next t ∧ t.responses = s.responses ++ [⟨.errEmpty, data⟩]) ↔
      i = .build ∧ s.eng.phase = .load ∧ ∀ k : SymIdx, s.eng.ft[k] = 0) ∧
    (i = .build → s.eng.phase = .load → (∀ k : SymIdx, s.eng.ft[k] = 0) → exec i s = .next (s.respond .errEmpty 0))

/-- 20_memory.md R56: RDF, RDN, RDC and RDS change no state of the engine in any phase, and reading twice gives the same
response. -/
def Obligations.ReadsChangeNothingAndRepeat : Prop :=
  ∀ (i : Instr) (s t u : State), (i.op = .rdf ∨ i.op = .rdn ∨ i.op = .rdc ∨ i.op = .rds) →
    exec i s = .next t → exec i t = .next u →
    t.eng = s.eng ∧ t.input = s.input ∧ u.eng = s.eng ∧
      ∃ r, t.responses = s.responses ++ [r] ∧ u.responses = t.responses ++ [r]

/-- The frames of the writing commands (the `Writes` clauses of R90, R100, R120, R135, R136): everything a command does not
write is unchanged, in every state in which it completes or is refused by phase, and it adds one response. -/
def Obligations.WritingCommandsChangeOnlyWhatTheyWrite : Prop :=
  ∀ s t : State,
    (∀ c count, exec (.ldf c count) s = .next t →
      t.eng = { s.eng with ft := t.eng.ft } ∧ ∀ k : SymIdx, c.toNat ≠ k.val + 32 → t.eng.ft[k] = s.eng.ft[k]) ∧
    (exec .build s = .next t → t.eng.ft = s.eng.ft ∧ t.eng.ct = s.eng.ct) ∧
    (exec .gen s = .next t → t.eng = { s.eng with ct := t.eng.ct, phase := t.eng.phase }) ∧
    (exec .drst s = .next t → t.eng = { s.eng with dcur := t.eng.dcur }) ∧
    (∀ b, exec (.dbit b) s = .next t → t.eng = { s.eng with dcur := t.eng.dcur }) ∧
    ∀ i, exec i s = .next t → t.input = s.input ∧ ∃ r, t.responses = s.responses ++ [r]

/-- 44_control.md R155: the phase after every command is the one of the phase machine. -/
def Obligations.PhaseMachine : Prop :=
  ∀ (i : Instr) (s t : State), exec i s = .next t → t.eng.phase = nextPhase i.op s.eng

/-- 10_state.md R22, 20_memory.md R60: once a tree exists no command but CLR changes the frequency table, the tree or its
counts, and once a code table exists none but CLR changes it. -/
def Obligations.TreeAndTableAreImmutable : Prop :=
  ∀ (i : Instr) (s t : State), s.eng.phase ≠ .load → i ≠ .clr → exec i s = .next t →
    t.eng.ft = s.eng.ft ∧ t.eng.node = s.eng.node ∧ t.eng.nleaves = s.eng.nleaves ∧ t.eng.nnodes = s.eng.nnodes ∧
    t.eng.root = s.eng.root ∧ (s.eng.phase = .coded → t.eng.ct = s.eng.ct ∧ t.eng.phase = .coded)

/-! ## The frequency table -/

/-- 40_frequency_table.md R90: in phase LOAD, LDF completes with (OK, 0) and overwrites the one entry that its ordinal names;
with an ordinal outside the alphabet it changes nothing (no entry has such an ordinal). -/
def Obligations.LdfOverwritesOneCount : Prop :=
  ∀ (s : State) (c : CharCode) (count : Count), s.eng.phase = .load →
    ∃ t, exec (.ldf c count) s = .next t ∧ t.responses = s.responses ++ [⟨.ok, 0⟩] ∧ t.input = s.input ∧
      t.eng = { s.eng with ft := t.eng.ft } ∧
      ∀ k : SymIdx, t.eng.ft[k] = if c.toNat = k.val + 32 then count else s.eng.ft[k]

/-- 40_frequency_table.md R91: in every phase, RDF answers the count of its ordinal, and 0 outside the alphabet. -/
def Obligations.RdfAnswersTheCount : Prop :=
  ∀ (s : State) (c : CharCode), ∃ data, exec (.rdf c) s = .next (s.respond .ok data) ∧
    (∀ k : SymIdx, c.toNat = k.val + 32 → data.toNat = s.eng.ft[k].toNat) ∧
    (c.toNat < 32 ∨ 126 < c.toNat → data = 0)

/-- 40_frequency_table.md R96: FreqAnalyze counts the positions of every ordinal of the alphabet, its sum is the number of
eligible characters, and the empty text gives the all-zero table. -/
def Obligations.FreqAnalyzeCountsPositions : Prop :=
  (∀ (text : List Nat) (i : SymIdx), (freqAnalyze text)[i] = text.count (i.val + 32)) ∧
  (∀ text : List Nat, (freqAnalyze text).toList.sum = (text.filter eligible).length) ∧
  freqAnalyze [] = Vector.replicate 95 0

/-- 40_frequency_table.md R97: from the reset state, loads of a table that cover its non-zero counts leave exactly the table in
FT, in whatever order they come and whether or not the zeros are loaded too; LoadTable is such a list, and it refuses a table
with a count that does not fit. -/
def Obligations.LoadTableLoadsInAnyOrder : Prop :=
  ∀ T : Vector Nat 95,
    ((∀ i : SymIdx, T[i] < 2 ^ 32) →
      (∀ loads : List Instr, (∀ j, j ∈ loads → ∃ i, j = loadCommand T i) →
        (∀ i : SymIdx, 0 < T[i] → loadCommand T i ∈ loads) →
        Engine.issueAll loads .reset = some { Engine.reset with ft := tableOf T }) ∧
      ∃ loads, loadTable T = some loads ∧ Engine.issueAll loads .reset = some { Engine.reset with ft := tableOf T }) ∧
    ((∃ i : SymIdx, 2 ^ 32 ≤ T[i]) → loadTable T = none)

/-! ## The tree builder -/

/-- 41_tree_builder.md R107: in phase LOAD with some count above 0, BUILD completes with (OK, 0): FT and CT stay, the cursor is at
the root, the phase is TREE, and the counts, the root and the arena have the shape of R107. -/
def Obligations.BuildMakesATreeOfTheTable : Prop :=
  ∀ (s : State) (k : SymIdx), s.eng.phase = .load → s.eng.ft[k] ≠ 0 →
    ∃ t, exec .build s = .next t ∧ t.responses = s.responses ++ [⟨.ok, 0⟩] ∧ t.input = s.input ∧
      t.eng.phase = .tree ∧ t.eng.ft = s.eng.ft ∧ t.eng.ct = s.eng.ct ∧ t.eng.dcur = t.eng.root ∧
      t.eng.nleaves.toNat = leafCount s.eng.ft ∧ t.eng.nnodes.toNat = 2 * leafCount s.eng.ft - 1 ∧
      t.eng.nnodes.toNat = t.eng.node.length ∧ t.eng.nnodes.toNat ≤ 189 ∧
      t.eng.root.toNat = 2 * leafCount s.eng.ft - 2 ∧ TreeShape s.eng.ft t.eng.node t.eng.root

/-- 41_tree_builder.md R104, R105: every Internal node that BUILD makes is the parent of the two nodes with the least keys of the
live set at that moment, the least on the left, with the sum of their frequencies, at the next free index; there are `L − 1` of them;
the keys are compared by frequency and then by index. -/
def Obligations.EachMergeTakesTheTwoLeastLiveNodes : Prop :=
  ∀ s t : State, s.eng.phase = .load → exec .build s = .next t → t.eng.phase = .tree →
    t.eng.node.length = leafCount s.eng.ft + (leafCount s.eng.ft - 1) ∧
    ∀ n, leafCount s.eng.ft ≤ n → n < t.eng.node.length →
      ∃ f l r, t.eng.node[n]? = some (.internal f l r) ∧
        LiveBefore t.eng.node n l.toNat ∧ LiveBefore t.eng.node n r.toNat ∧ KeyBefore t.eng.node l.toNat r.toNat ∧
        (∀ k, LiveBefore t.eng.node n k → k ≠ l.toNat → k ≠ r.toNat → KeyBefore t.eng.node r.toNat k) ∧
        f.toNat = freqAt t.eng.node l.toNat + freqAt t.eng.node r.toNat

/-- 45_invariants.md R161 to R164 under EVERY tie-break and left/right choice, as 41_tree_builder.md R104 says they hold: the shape
and the frequency laws of a tree do not lean on this hardware's choice. That `TieRule` covers every tie-break is an inference of
the model (DEDUCED, log entry 6). -/
def Obligations.TreeLawsHoldForEveryTieBreak : Prop :=
  ∀ (tie : TieRule) (ft : Vector Count 95) (b : Built), buildTree tie ft = some b →
    TreeShape ft b.nodes b.root ∧ FrequencyLaws ft b.nodes b.root

/-- 45_invariants.md R161, R162, R164 of every reachable state with a tree: the tree shape, the frequency-sum invariant as an
equation of natural numbers, and the greedy order. -/
def Obligations.TreesOfReachableStates : Prop :=
  ∀ e : Engine, e.Inv → e.phase ≠ .load → TreeShape e.ft e.node e.root ∧ FrequencyLaws e.ft e.node e.root

/-- 45_invariants.md R163: the root's frequency is the sum of all counts, and for a table that came from a text that sum is the
number of eligible characters of the text. -/
def Obligations.RootHoldsTheTotalCount : Prop :=
  (∀ e : Engine, e.Inv → e.phase ≠ .load → freqAt e.node e.root.toNat = totalCount e.ft) ∧
  ∀ text : List Nat, (∀ i : SymIdx, (freqAnalyze text)[i] < 2 ^ 32) →
    totalCount (tableOf (freqAnalyze text)) = (text.filter eligible).length

/-- 41_tree_builder.md R108: the 39-bit addition of BUILD never wraps, whatever the tie-break: an Internal node's frequency is the sum
of its children's as natural numbers, and no node's frequency exceeds the sum of all counts, which is below 2^39. That `TieRule`
covers every tie-break is an inference of the model (DEDUCED, log entry 6). -/
def Obligations.NodeFrequenciesNeverOverflow : Prop :=
  ∀ (tie : TieRule) (ft : Vector Count 95) (b : Built), buildTree tie ft = some b →
    (∀ (j : Nat) f l r, b.nodes[j]? = some (.internal f l r) →
      f.toNat = freqAt b.nodes l.toNat + freqAt b.nodes r.toNat ∧
      freqAt b.nodes l.toNat + freqAt b.nodes r.toNat < 2 ^ 39) ∧
    (∀ n, n ∈ b.nodes → 0 < n.freq.toNat ∧ n.freq.toNat ≤ totalCount ft) ∧ totalCount ft ≤ 95 * (2 ^ 32 - 1) ∧
    95 * (2 ^ 32 - 1) < 2 ^ 39

/-- 41_tree_builder.md R110: in phases TREE and CODED, RDN answers OK: 0 at or beyond `nnodes`, and otherwise the record of the
node, field by field. -/
def Obligations.RdnAnswersTheNodeRecord : Prop :=
  ∀ (s : State) (j : NodeIdx), s.Inv → s.eng.phase ≠ .load →
    ∃ data, exec (.rdn j) s = .next (s.respond .ok data) ∧
      (s.eng.nnodes.toNat ≤ j.toNat → data = 0) ∧
      (j.toNat < s.eng.nnodes.toNat → ∃ n, nodeAt s.eng.node j = some n ∧
        data.getLsbD 0 = true ∧ data.getLsbD 1 = !n.isLeaf ∧ data.extractLsb' 2 6 = 0 ∧
        data.extractLsb' 32 39 = n.freq ∧ data.extractLsb' 71 57 = 0 ∧
        (∀ sym f, n = .leaf sym f →
          data.extractLsb' 8 8 = sym ∧ data.extractLsb' 16 8 = 0 ∧ data.extractLsb' 24 8 = 0) ∧
        (∀ f l r, n = .internal f l r →
          data.extractLsb' 8 8 = 0 ∧ data.extractLsb' 16 8 = l ∧ data.extractLsb' 24 8 = r))

/-! ## The code table -/

/-- 42_code_table.md R122, R125: in phase TREE of a reachable state GEN completes with (OK, 0), writes CT and the phase and nothing
else, and CT is the table of R125: the code of a symbol is the path from an Internal root to its leaf, and "0" for the sole symbol
of a single-leaf tree. -/
def Obligations.GenRecordsEveryLeafPath : Prop :=
  ∀ s : State, s.Inv → s.eng.phase = .tree →
    ∃ ct, exec .gen s =
        .next { s with eng := { s.eng with ct := ct, phase := .coded }, responses := s.responses ++ [⟨.ok, 0⟩] } ∧
      (∀ sym f, nodeAt s.eng.node s.eng.root = some (.leaf sym f) →
        ∀ (i : SymIdx) (p : BitString), ct[i] = some p ↔ ordinalOf i = sym ∧ p = [false]) ∧
      (∀ f l r, nodeAt s.eng.node s.eng.root = some (.internal f l r) →
        ∀ (i : SymIdx) (p : BitString),
          ct[i] = some p ↔ ∃ g, follow s.eng.node s.eng.root p = some (.leaf (ordinalOf i) g))

/-- 45_invariants.md R165: in phase CODED a symbol has a code exactly if its count is above 0, and every code has length 1 to 94. -/
def Obligations.CodesExistExactlyForCountedSymbols : Prop :=
  ∀ e : Engine, e.Inv → e.phase = .coded →
    (∀ i : SymIdx, e.ct[i] ≠ none ↔ e.ft[i] ≠ 0) ∧
    ∀ (i : SymIdx) (p : BitString), e.ct[i] = some p → p ≠ [] ∧ p.length ≤ 94

/-- 42_code_table.md R123, R126: the number of codes is `nleaves`; with two or more symbols a code is at most `L − 1` long, with one
symbol it has length 1. -/
def Obligations.CodeLengthsAreBounded : Prop :=
  ∀ e : Engine, e.Inv → e.phase = .coded →
    ((List.finRange 95).filter (fun i => e.ct[i].isSome)).length = e.nleaves.toNat ∧
    ∀ (i : SymIdx) (p : BitString), e.ct[i] = some p →
      1 ≤ p.length ∧ (2 ≤ e.nleaves.toNat → p.length ≤ e.nleaves.toNat - 1) ∧ (e.nleaves.toNat = 1 → p.length = 1)

/-- 45_invariants.md R166: of two distinct symbols' codes neither is a prefix of the other. -/
def Obligations.CodesArePrefixFree : Prop :=
  ∀ (e : Engine) (i j : SymIdx) (p q : BitString), e.Inv → e.phase = .coded → i ≠ j →
    e.ct[i] = some p → e.ct[j] = some q → ¬ p <+: q ∧ ¬ q <+: p

/-- 45_invariants.md R169: the total encoded length of the training text is the same for every tie-break and every left/right
choice, it is the length of the text's encoding, and it is the sum of the Internal frequencies with two or more symbols and the
sole count with one. That `TieRule` covers every tie-break is an inference of the model (DEDUCED, log entry 6). -/
def Obligations.EncodedLengthIsTieIndependent : Prop :=
  ∀ (tie tie' : TieRule) (ft : Vector Count 95) (b b' : Built),
    buildTree tie ft = some b → buildTree tie' ft = some b' →
    ∃ ct ct', genCodes b.nodes b.root = .ok ct ∧ genCodes b'.nodes b'.root = .ok ct' ∧
      encodedLength ft ct = encodedLength ft ct' ∧
      (∀ text : List Nat, (∀ i : SymIdx, (freqAnalyze text)[i] < 2 ^ 32) → ft = tableOf (freqAnalyze text) →
        (encodePure ct text).length = encodedLength ft ct) ∧
      (2 ≤ leafCount ft → encodedLength ft ct = internalSum b.nodes) ∧
      (leafCount ft = 1 → encodedLength ft ct = totalCount ft)

/-- 42_code_table.md R128: the packing of a code, bit by bit; `pack` is injective, is never 0, and unpacks. -/
def Obligations.PackedCodesUnpack : Prop :=
  (∀ p : BitString, 1 ≤ p.length → p.length ≤ 94 →
    (pack p).getLsbD 0 = true ∧ ((pack p).extractLsb' 1 7).toNat = p.length ∧
    (∀ (k : Nat) (b : Bool), p[k]? = some b → (pack p).getLsbD (8 + k) = b) ∧
    (∀ k, p.length ≤ k → k < 94 → (pack p).getLsbD (8 + k) = false) ∧
    (pack p).extractLsb' 102 26 = 0 ∧ pack p ≠ 0 ∧ unpack (pack p) = p) ∧
  ∀ p q : BitString, 1 ≤ p.length → p.length ≤ 94 → 1 ≤ q.length → q.length ≤ 94 → pack p = pack q → p = q

/-- 42_code_table.md R127: in phase CODED, RDC answers the packed code of its ordinal, and 0 where there is none. -/
def Obligations.RdcAnswersThePackedCode : Prop :=
  ∀ (s : State) (c : CharCode), s.eng.phase = .coded →
    ∃ data, exec (.rdc c) s = .next (s.respond .ok data) ∧
      (c.toNat < 32 ∨ 126 < c.toNat → data = 0) ∧
      ∀ k : SymIdx, c.toNat = k.val + 32 →
        (s.eng.ct[k] = none → data = 0) ∧ ∀ p, s.eng.ct[k] = some p → data = pack p

/-! ## The decoder -/

/-- 43_decoder.md R135: in phases TREE and CODED, DRST completes with (OK, 0) and only moves the cursor to the root. -/
def Obligations.DrstPutsTheCursorAtTheRoot : Prop :=
  ∀ s : State, s.eng.phase ≠ .load →
    exec .drst s =
      .next { s with eng := { s.eng with dcur := s.eng.root }, responses := s.responses ++ [⟨.ok, 0⟩] }

/-- 43_decoder.md R136, R137, R138: in phases TREE and CODED of a reachable state DBIT completes with OK and writes only the cursor.
From an Internal node, bit 0 goes left and bit 1 right; a Leaf reached, or the Leaf the cursor stands at, emits its symbol and the
cursor goes to the root; at an Internal node reached the cursor stays and nothing is emitted. -/
def Obligations.DbitWalksOneBit : Prop :=
  ∀ (s : State) (b : Bool), s.Inv → s.eng.phase ≠ .load →
    ∃ (t : State) (data : Data), exec (.dbit b) s = .next t ∧ t.responses = s.responses ++ [⟨.ok, data⟩] ∧
      t.input = s.input ∧ t.eng = { s.eng with dcur := t.eng.dcur } ∧
      (∀ f l r, nodeAt s.eng.node s.eng.dcur = some (.internal f l r) →
        (∃ n, nodeAt s.eng.node (if b then r else l) = some n) ∧
        (∀ sym g, nodeAt s.eng.node (if b then r else l) = some (.leaf sym g) →
          t.eng.dcur = s.eng.root ∧ data.getLsbD 0 = true ∧ data.extractLsb' 1 7 = 0 ∧ data.extractLsb' 8 8 = sym ∧
            data.extractLsb' 16 112 = 0) ∧
        (∀ g l' r', nodeAt s.eng.node (if b then r else l) = some (.internal g l' r') →
          t.eng.dcur = (if b then r else l) ∧ data = 0)) ∧
      (∀ sym g, nodeAt s.eng.node s.eng.dcur = some (.leaf sym g) →
        t.eng.dcur = s.eng.root ∧ data.getLsbD 0 = true ∧ data.extractLsb' 1 7 = 0 ∧ data.extractLsb' 8 8 = sym ∧
          data.extractLsb' 16 112 = 0)

/-- 43_decoder.md R139: on a single-leaf tree every DBIT, of either bit, emits the sole symbol and leaves the cursor at 0, so a
bit-string decodes to the symbol repeated once per bit. -/
def Obligations.SingleLeafDecodesEveryBit : Prop :=
  ∀ s : State, s.Inv → s.eng.phase ≠ .load → s.eng.nleaves = 1 →
    s.eng.root = 0 ∧ s.eng.dcur = 0 ∧
    ∃ sym f, s.eng.node = [.leaf sym f] ∧ 32 ≤ sym.toNat ∧ sym.toNat ≤ 126 ∧
      (∀ b, exec (.dbit b) s = .next (s.respond .ok (emitData sym))) ∧
      ∀ bits : BitString, ∃ e, decodeText bits s.eng = some (e, List.replicate bits.length sym)

/-- 43_decoder.md R141: the cursor names an existing node that is the root or Internal; it stands at a Leaf exactly if the root is
one, exactly if `nleaves` = 1; in phase LOAD it is 0. -/
def Obligations.CursorRestsAtRootOrInternal : Prop :=
  ∀ e : Engine, e.Inv →
    (e.phase = .load → e.dcur = 0) ∧
    (e.phase ≠ .load →
      e.dcur.toNat < e.nnodes.toNat ∧
      (e.dcur = e.root ∨ ∃ f l r, nodeAt e.node e.dcur = some (.internal f l r)) ∧
      ((∃ sym f, nodeAt e.node e.dcur = some (.leaf sym f)) ↔ e.nleaves = 1) ∧
      ((∃ sym f, nodeAt e.node e.root = some (.leaf sym f)) ↔ e.nleaves = 1))

/-- 43_decoder.md R144: Decode, run on the engine command by command, never fails, gives what the pure function `dec` gives, only
ordinals of the alphabet, and leaves the engine as it was but for the cursor at the root. -/
def Obligations.DecodeRunsAsThePureFunction : Prop :=
  ∀ (e : Engine) (bits : BitString), e.Inv → e.phase ≠ .load →
    decodeText bits e = some ({ e with dcur := e.root }, decodeFrom e.node e.root e.root bits) ∧
    ∀ o, o ∈ decodeFrom e.node e.root e.root bits → 32 ≤ o.toNat ∧ o.toNat ≤ 126

/-! ## Status -/

/-- 10_state.md R32, 44_control.md R152: in every phase RDS answers STATUS, field by field. -/
def Obligations.RdsAnswersTheStatusWord : Prop :=
  ∀ s : State, ∃ data, exec .rds s = .next (s.respond .ok data) ∧
    data.extractLsb' 0 2 = (match s.eng.phase with | .load => 0 | .tree => 1 | .coded => 2) ∧
    (data.getLsbD 2 = true ↔ s.eng.phase ≠ .load ∧ s.eng.nleaves = 1) ∧
    (data.getLsbD 3 = true ↔ s.eng.dcur = s.eng.root) ∧ data.extractLsb' 4 4 = 0 ∧
    data.extractLsb' 8 8 = s.eng.nleaves ∧ data.extractLsb' 16 8 = s.eng.nnodes ∧
    data.extractLsb' 24 8 = s.eng.root ∧ data.extractLsb' 32 8 = s.eng.dcur ∧ data.extractLsb' 40 88 = 0

/-! ## The coder as a whole -/

/-- 42_code_table.md R130: in phase CODED, Encode, run on the engine, is the concatenation of the codes that exist and changes
nothing. -/
def Obligations.EncodeRunsAsThePureFunction : Prop :=
  ∀ (e : Engine) (text : List Nat), e.Inv → e.phase = .coded → encodeText text e = some (e, encodePure e.ct text)

/-- 45_invariants.md R167: in phase CODED, decoding the encoding of any text gives the text without the characters that have no
code; so a text all of whose characters have a code comes back unchanged. -/
def Obligations.DecodeUndoesEncode : Prop :=
  ∀ (e : Engine) (text : List Nat), e.Inv → e.phase = .coded →
    ∃ bits e' out, encodeText text e = some (e, bits) ∧ decodeText bits e = some (e', out) ∧
      out.map BitVec.toNat = text.filter (hasCode e.ct) ∧
      ((∀ o, o ∈ text → hasCode e.ct o = true) → out.map BitVec.toNat = text)

/-- 45_invariants.md R168: the bits of an encoding, issued from the root, leave the cursor at the root. -/
def Obligations.EncodingsEndAtTheRoot : Prop :=
  ∀ (e : Engine) (text : List Nat), e.Inv → e.phase = .coded → e.dcur = e.root →
    ∃ out, decodeBits (encodePure e.ct text) e = some (e, out)

/-- 44_control.md R156: Construct of a text gives a coder in phase CODED with the text's table, whatever the engine held before;
it fails with EmptyInputError exactly if the text has no eligible character, leaving the reset state; and it refuses a text with a
count that does not fit. -/
def Obligations.ConstructMakesACoderOrFails : Prop :=
  ∀ (text : List Nat) (e : Engine),
    ((∃ i : SymIdx, 2 ^ 32 ≤ (freqAnalyze text)[i]) → construct text e = .countTooLarge) ∧
    ((∀ i : SymIdx, (freqAnalyze text)[i] < 2 ^ 32) →
      ((∀ o, o ∈ text → eligible o = false) → construct text e = .emptyInput .reset) ∧
      ((∃ o, o ∈ text ∧ eligible o = true) →
        ∃ e', construct text e = .coder e' ∧ e'.phase = .coded ∧ e'.Inv ∧ e'.ft = tableOf (freqAnalyze text) ∧
          e'.dcur = e'.root))

/-- 30_encoding.md R78: CONSTRUCT is BUILD and then, only if BUILD responded OK, GEN, in every phase. With a count above 0 in LOAD both
respond OK and the engine is in phase CODED at the root; with every count 0 the one response is ERR_EMPTY, and in TREE and CODED it
is ERR_STATE (60_exceptions.md R181, R182), and the engine is as before. -/
def Obligations.ConstructGeneratesOnlyAfterBuild : Prop :=
  ∃ x, Pseudo.construct.expand = some x ∧ ∀ e : Engine, e.Inv →
    (e.phase ≠ .load → x.run e = some (e, [⟨.errState, 0⟩])) ∧
    (e.phase = .load → allZero e.ft = true → x.run e = some (e, [⟨.errEmpty, 0⟩])) ∧
    ∀ k : SymIdx, e.phase = .load → e.ft[k] ≠ 0 →
      ∃ e', x.run e = some (e', [⟨.ok, 0⟩, ⟨.ok, 0⟩]) ∧ e'.Inv ∧ e'.phase = .coded ∧ e'.ft = e.ft ∧ e'.dcur = e'.root

/-- 45_invariants.md R171: what Construct gives is a function of the text's frequency table alone, not of what the engine held. -/
def Obligations.ConstructIsAFunctionOfTheTable : Prop :=
  ∀ (text text' : List Nat) (e e' : Engine), freqAnalyze text = freqAnalyze text' →
    construct text e = construct text' e'

/-- 45_invariants.md R172: the single-symbol case "aaaa" of the source: one leaf, one code "0", "0000" both ways. -/
def Obligations.SingleSymbolCase : Prop :=
  ∃ e, construct [97, 97, 97, 97] .reset = .coder e ∧ e.node = [.leaf 97 4] ∧ e.nleaves = 1 ∧ e.nnodes = 1 ∧ e.root = 0 ∧
    (∀ i : SymIdx, e.ct[i] = if i.val = 65 then some [false] else none) ∧
    encodeText [97, 97, 97, 97] e = some (e, [false, false, false, false]) ∧
    decodeText [false, false, false, false] e = some (e, [97, 97, 97, 97])

/-- 45_invariants.md R174: with exactly two symbols the codes are one "0" and one "1"; the lighter symbol has "0", and with equal
counts the smaller ordinal has it (this hardware's choice, decisions D9 and D10). The text "aab" gives the counts 2 and 1. -/
def Obligations.TwoSymbolCodes : Prop :=
  (∀ (e : Engine) (i j : SymIdx), e.Inv → e.phase = .coded → i < j → e.ft[i] ≠ 0 → e.ft[j] ≠ 0 →
    (∀ k : SymIdx, k ≠ i → k ≠ j → e.ft[k] = 0) →
    (e.ft[j].toNat < e.ft[i].toNat → e.ct[j] = some [false] ∧ e.ct[i] = some [true]) ∧
    (e.ft[i].toNat ≤ e.ft[j].toNat → e.ct[i] = some [false] ∧ e.ct[j] = some [true])) ∧
  ∀ i : SymIdx, (freqAnalyze [97, 97, 98])[i] = if i.val = 65 then 2 else if i.val = 66 then 1 else 0

/-! ## The pins -/

/-- 30_encoding.md R80: between resets, commands and responses alternate at the pins and the k-th response answers the k-th command:
what was delivered, with what is still presented, is the run of the engine's step over the words taken, whatever latency each
command has; a command in flight is the last word taken and not yet answered. That the latency is the input `finish`, and that the
engine's state is unchanged while a command is in flight, are the model's choice (DESIGN CHOICE, log entry 5); so is that an idle
engine is always ready for a command (DESIGN CHOICE, log entry 15). -/
def Obligations.PortDeliversTheRunOfTheWordsTaken : Prop :=
  ∀ (e : Engine) (xs : List PinsIn), e.Inv → (∀ x, x ∈ xs → x.rst = false) →
    ∃ e' rs, let trace := PortState.run ⟨e, .idle⟩ xs
      e.answers trace.taken = some (e', rs) ∧
      match trace.last.transfer with
      | .idle => trace.last.eng = e' ∧ trace.delivered = rs
      | .answered r => trace.last.eng = e' ∧ trace.delivered ++ [r] = rs
      | .busy w => trace.taken = trace.taken.dropLast ++ [w] ∧ trace.delivered = rs.dropLast ∧
          e.answers trace.taken.dropLast = some (trace.last.eng, trace.delivered)

/-- 30_encoding.md R80, 70_reset_and_hazards.md R212: a command in flight, or one taken on this edge, is answered on the edge the
engine completes it, by the engine's step and nothing else; until then it stays in flight, no response is presented and no command
is taken; and a response is held, with `rsp_valid`, `rsp_status` and `rsp_data`, until it is delivered, and then the port is idle.
That the completing edge is the input `finish`, that the engine's state changes on that edge, and that it may be the taking edge
itself, are the model's choice (DESIGN CHOICE, log entry 5); so is that an idle engine is always ready, by which a command presented
to it is taken (DESIGN CHOICE, log entry 15). -/
def Obligations.PortAnswersAndHolds : Prop :=
  (∀ (e : Engine) (w : CommandWord) (x : PinsIn), e.Inv → x.rst = false → x.finish = true →
    ∃ e' r, e.answer w = some (e', r) ∧ e'.Inv ∧ PortState.edge ⟨e, .busy w⟩ x = ⟨e', .answered r⟩ ∧
      (x.cmdValid = true → x.cmd = w → PortState.edge ⟨e, .idle⟩ x = ⟨e', .answered r⟩)) ∧
  (∀ (e : Engine) (w : CommandWord) (x : PinsIn), x.rst = false → x.finish = false →
    PortState.edge ⟨e, .busy w⟩ x = ⟨e, .busy w⟩ ∧ PortState.taken ⟨e, .busy w⟩ x = none ∧
    PortState.delivered ⟨e, .busy w⟩ x = none ∧
    (x.cmdValid = true → x.cmd = w → PortState.edge ⟨e, .idle⟩ x = ⟨e, .busy w⟩)) ∧
  (∀ (e : Engine) (w : CommandWord),
    (PortState.outputs ⟨e, .busy w⟩ false).cmdReady = false ∧ (PortState.outputs ⟨e, .busy w⟩ false).rspValid = false) ∧
  ∀ (e : Engine) (r : Response) (x : PinsIn), x.rst = false →
    (x.rspReady = false → PortState.edge ⟨e, .answered r⟩ x = ⟨e, .answered r⟩ ∧
      PortState.delivered ⟨e, .answered r⟩ x = none) ∧
    (x.rspReady = true → PortState.edge ⟨e, .answered r⟩ x = ⟨e, .idle⟩ ∧
      PortState.delivered ⟨e, .answered r⟩ x = some r) ∧
    PortState.taken ⟨e, .answered r⟩ x = none ∧
    (PortState.outputs ⟨e, .answered r⟩ false).rspValid = true ∧
    (PortState.outputs ⟨e, .answered r⟩ false).rsp = some (r.status.code, r.data) ∧
    (PortState.outputs ⟨e, .answered r⟩ false).cmdReady = false

/-- 70_reset_and_hazards.md R200, R203: while `rst` = 1 the port is in the reset state after the edge whatever it was doing, takes no
command, delivers no response and drives neither `cmd_ready` nor `rsp_valid`; so a command in flight is abandoned, and what follows
is what follows a reset of the same engine with no command in flight. That `rsp` then carries no value at all is the model's choice
(DESIGN CHOICE, log entry 5): R79 gives `rsp_status` and `rsp_data` a meaning only while `rsp_valid` = 1. -/
def Obligations.ResetAbandonsTheCommandInFlight : Prop :=
  ∀ (p : PortState) (x : PinsIn), x.rst = true →
    p.edge x = ⟨.reset, .idle⟩ ∧ p.taken x = none ∧ p.delivered x = none ∧ p.outputs true = ⟨false, false, none⟩ ∧
    (PortState.outputs (p.edge x) false).cmdReady = true ∧
    ∀ (e : Engine) (w : CommandWord) (xs : List PinsIn),
      PortState.run ⟨e, .busy w⟩ (x :: xs) = PortState.run ⟨e, .idle⟩ (x :: xs)
end

