-- ==== Sys2Proof/Laws/Encoding.lean ====
section
/-! SUPPORT. Cutting a word into its fields and putting four fields together are inverse to one another. -/

namespace Sys2Proof

/-- Bit `i` of the word of four fields. -/
theorem Fields.toWord_getLsbD (f : Fields) (i : Nat) :
    f.toWord.getLsbD i =
      if i < 32 then f.d.getLsbD i
      else if i < 40 then f.a.getLsbD (i - 32)
      else if i < 56 then f.z.getLsbD (i - 40)
      else f.op.getLsbD (i - 56) := by
  simp only [Fields.toWord, BitVec.getLsbD_append]
  split
  · rfl
  split
  · rw [if_pos (by omega)]
  split
  · rw [if_neg (by omega), if_pos (by omega), show i - 32 - 8 = i - 40 from by omega]
  · rw [if_neg (by omega), if_neg (by omega), show i - 32 - 8 - 16 = i - 56 from by omega]

@[simp] theorem Fields.ofWord_toWord (f : Fields) : Fields.ofWord f.toWord = f := by
  have h : ∀ {n start : Nat} {x : BitVec n}, (∀ i, i < n → f.toWord.getLsbD (start + i) = x.getLsbD i) →
      f.toWord.extractLsb' start n = x := by
    intro n start x hx
    refine BitVec.eq_of_getLsbD_eq fun i hi => ?_
    simp [hi, hx i hi]
  have hop : f.toWord.extractLsb' 56 8 = f.op := h fun i hi => by
    simp [Fields.toWord_getLsbD, show ¬ 56 + i < 32 from by omega, show ¬ 56 + i < 40 from by omega]
  have hz : f.toWord.extractLsb' 40 16 = f.z := h fun i hi => by
    simp [Fields.toWord_getLsbD, show ¬ 40 + i < 32 from by omega, show 40 + i < 56 from by omega]
  have ha : f.toWord.extractLsb' 32 8 = f.a := h fun i hi => by
    simp [Fields.toWord_getLsbD, show 32 + i < 40 from by omega]
  have hd : f.toWord.extractLsb' 0 32 = f.d := h fun i hi => by
    simp [Fields.toWord_getLsbD, hi]
  simp only [Fields.ofWord, hop, hz, ha, hd]

@[simp] theorem Fields.toWord_ofWord (w : CommandWord) : (Fields.ofWord w).toWord = w := by
  refine BitVec.eq_of_getLsbD_eq fun i hi => ?_
  rw [Fields.toWord_getLsbD]
  simp only [Fields.ofWord, BitVec.getLsbD_extractLsb']
  split
  · simp [*]
  split
  · rw [show 32 + (i - 32) = i from by omega]
    simp
    omega
  split
  · rw [show 40 + (i - 40) = i from by omega]
    simp
    omega
  · rw [show 56 + (i - 56) = i from by omega]
    simp
    omega

end Sys2Proof
end

