-- ==== Sys2Proof/Laws/HostSide.lean ====
section
/-! SUPPORT. What the host and the port can do: one lemma for each way an expansion runs, Construct ends, and an edge goes. -/

namespace Sys2Proof.Machine

/-! ## Expansions -/

theorem Expansion.run_ifOk_ok {first second : Instr} {e e' e'' : Engine} {r r' : Response}
    (h : e.issue first = some (e', r)) (hr : r.status = .ok) (h' : e'.issue second = some (e'', r')) :
    (Expansion.ifOk first second).run e = some (e'', [r, r']) := by
  simp [Expansion.run, h, hr, h']

theorem Expansion.run_ifOk_error {first second : Instr} {e e' : Engine} {r : Response}
    (h : e.issue first = some (e', r)) (hr : r.status ≠ .ok) :
    (Expansion.ifOk first second).run e = some (e', [r]) := by
  simp [Expansion.run, h, hr]

/-- Everything a conditional expansion that answers can have done. -/
theorem Expansion.run_ifOk_cases {first second : Instr} {e e'' : Engine} {rs : List Response}
    (h : (Expansion.ifOk first second).run e = some (e'', rs)) :
    ∃ e' r, e.issue first = some (e', r) ∧
      ((r.status = .ok ∧ ∃ r', e'.issue second = some (e'', r') ∧ rs = [r, r']) ∨
        (r.status ≠ .ok ∧ e'' = e' ∧ rs = [r])) := by
  simp only [Expansion.run, Option.bind_eq_some_iff] at h
  obtain ⟨⟨e', r⟩, hfirst, h⟩ := h
  refine ⟨e', r, hfirst, ?_⟩
  by_cases hr : r.status = .ok
  · rw [if_pos hr, Option.map_eq_some_iff] at h
    obtain ⟨⟨e₂, r'⟩, hsecond, h⟩ := h
    cases h
    exact .inl ⟨hr, r', hsecond, rfl⟩
  · rw [if_neg hr] at h
    cases h
    exact .inr ⟨hr, rfl, rfl⟩

/-! ## How Construct ends -/

theorem Constructed.ofRun_ok (e : Engine) {rs : List Response} {r : Response} (h : rs.getLast? = some r)
    (hr : r.status = .ok) : Constructed.ofRun (some (e, rs)) = .coder e := by
  simp [Constructed.ofRun, h, hr]

theorem Constructed.ofRun_errEmpty (e : Engine) {rs : List Response} {r : Response} (h : rs.getLast? = some r)
    (hr : r.status = .errEmpty) : Constructed.ofRun (some (e, rs)) = .emptyInput e := by
  simp [Constructed.ofRun, h, hr]

/-! ## Edges of the port -/

@[simp] theorem PortState.work_waits (e : Engine) (w : CommandWord) : PortState.work e w false = ⟨e, .busy w⟩ := rfl

theorem PortState.work_answers {e e' : Engine} {w : CommandWord} {r : Response} (h : e.answer w = some (e', r)) :
    PortState.work e w true = ⟨e', .answered r⟩ := by
  simp [PortState.work, h]

theorem PortState.edge_reset (p : PortState) {x : PinsIn} (h : x.rst = true) : p.edge x = ⟨.reset, .idle⟩ := by
  simp [PortState.edge, h]

theorem PortState.edge_takes (e : Engine) {x : PinsIn} (h : x.rst = false) (hv : x.cmdValid = true) :
    PortState.edge ⟨e, .idle⟩ x = .work e x.cmd x.finish := by
  simp [PortState.edge, h, hv]

theorem PortState.edge_idles (e : Engine) {x : PinsIn} (h : x.rst = false) (hv : x.cmdValid = false) :
    PortState.edge ⟨e, .idle⟩ x = ⟨e, .idle⟩ := by
  simp [PortState.edge, h, hv]

theorem PortState.edge_works (e : Engine) (w : CommandWord) {x : PinsIn} (h : x.rst = false) :
    PortState.edge ⟨e, .busy w⟩ x = .work e w x.finish := by
  simp [PortState.edge, h]

end Sys2Proof.Machine
end

