-- ==== Sys2Proof/Laws/State.lean ====
section
/-! SUPPORT. One lemma per field per update of the state, true by definition, so that no later proof unfolds an update. -/

namespace Sys2Proof.Machine

@[simp] theorem State.respond_phase (st : Status) (data : Data) (s : State) :
    (s.respond st data).eng.phase = s.eng.phase := rfl
@[simp] theorem State.respond_ft (st : Status) (data : Data) (s : State) :
    (s.respond st data).eng.ft = s.eng.ft := rfl
@[simp] theorem State.respond_nleaves (st : Status) (data : Data) (s : State) :
    (s.respond st data).eng.nleaves = s.eng.nleaves := rfl
@[simp] theorem State.respond_nnodes (st : Status) (data : Data) (s : State) :
    (s.respond st data).eng.nnodes = s.eng.nnodes := rfl
@[simp] theorem State.respond_root (st : Status) (data : Data) (s : State) :
    (s.respond st data).eng.root = s.eng.root := rfl
@[simp] theorem State.respond_node (st : Status) (data : Data) (s : State) :
    (s.respond st data).eng.node = s.eng.node := rfl
@[simp] theorem State.respond_ct (st : Status) (data : Data) (s : State) :
    (s.respond st data).eng.ct = s.eng.ct := rfl
@[simp] theorem State.respond_dcur (st : Status) (data : Data) (s : State) :
    (s.respond st data).eng.dcur = s.eng.dcur := rfl
@[simp] theorem State.respond_input (st : Status) (data : Data) (s : State) : (s.respond st data).input = s.input := rfl
@[simp] theorem State.respond_responses (st : Status) (data : Data) (s : State) :
    (s.respond st data).responses = s.responses ++ [⟨st, data⟩] := rfl
@[simp] theorem State.setFt_phase (i : SymIdx) (v : Count) (s : State) :
    (s.setFt i v).eng.phase = s.eng.phase := rfl
@[simp] theorem State.setFt_ft (i : SymIdx) (v : Count) (s : State) :
    (s.setFt i v).eng.ft = s.eng.ft.set i v := rfl
@[simp] theorem State.setFt_nleaves (i : SymIdx) (v : Count) (s : State) :
    (s.setFt i v).eng.nleaves = s.eng.nleaves := rfl
@[simp] theorem State.setFt_nnodes (i : SymIdx) (v : Count) (s : State) :
    (s.setFt i v).eng.nnodes = s.eng.nnodes := rfl
@[simp] theorem State.setFt_root (i : SymIdx) (v : Count) (s : State) :
    (s.setFt i v).eng.root = s.eng.root := rfl
@[simp] theorem State.setFt_node (i : SymIdx) (v : Count) (s : State) :
    (s.setFt i v).eng.node = s.eng.node := rfl
@[simp] theorem State.setFt_ct (i : SymIdx) (v : Count) (s : State) :
    (s.setFt i v).eng.ct = s.eng.ct := rfl
@[simp] theorem State.setFt_dcur (i : SymIdx) (v : Count) (s : State) :
    (s.setFt i v).eng.dcur = s.eng.dcur := rfl
@[simp] theorem State.setFt_input (i : SymIdx) (v : Count) (s : State) : (s.setFt i v).input = s.input := rfl
@[simp] theorem State.setFt_responses (i : SymIdx) (v : Count) (s : State) :
    (s.setFt i v).responses = s.responses := rfl
@[simp] theorem State.setDcur_phase (j : NodeIdx) (s : State) :
    (s.setDcur j).eng.phase = s.eng.phase := rfl
@[simp] theorem State.setDcur_ft (j : NodeIdx) (s : State) :
    (s.setDcur j).eng.ft = s.eng.ft := rfl
@[simp] theorem State.setDcur_nleaves (j : NodeIdx) (s : State) :
    (s.setDcur j).eng.nleaves = s.eng.nleaves := rfl
@[simp] theorem State.setDcur_nnodes (j : NodeIdx) (s : State) :
    (s.setDcur j).eng.nnodes = s.eng.nnodes := rfl
@[simp] theorem State.setDcur_root (j : NodeIdx) (s : State) :
    (s.setDcur j).eng.root = s.eng.root := rfl
@[simp] theorem State.setDcur_node (j : NodeIdx) (s : State) :
    (s.setDcur j).eng.node = s.eng.node := rfl
@[simp] theorem State.setDcur_ct (j : NodeIdx) (s : State) :
    (s.setDcur j).eng.ct = s.eng.ct := rfl
@[simp] theorem State.setDcur_dcur (j : NodeIdx) (s : State) :
    (s.setDcur j).eng.dcur = j := rfl
@[simp] theorem State.setDcur_input (j : NodeIdx) (s : State) : (s.setDcur j).input = s.input := rfl
@[simp] theorem State.setDcur_responses (j : NodeIdx) (s : State) :
    (s.setDcur j).responses = s.responses := rfl
@[simp] theorem State.installTree_phase (nodes : List Node) (n : Nat) (r : NodeIdx) (s : State) :
    (s.installTree nodes n r).eng.phase = .tree := rfl
@[simp] theorem State.installTree_ft (nodes : List Node) (n : Nat) (r : NodeIdx) (s : State) :
    (s.installTree nodes n r).eng.ft = s.eng.ft := rfl
@[simp] theorem State.installTree_nleaves (nodes : List Node) (n : Nat) (r : NodeIdx) (s : State) :
    (s.installTree nodes n r).eng.nleaves = BitVec.ofNat 8 n := rfl
@[simp] theorem State.installTree_nnodes (nodes : List Node) (n : Nat) (r : NodeIdx) (s : State) :
    (s.installTree nodes n r).eng.nnodes = BitVec.ofNat 8 nodes.length := rfl
@[simp] theorem State.installTree_root (nodes : List Node) (n : Nat) (r : NodeIdx) (s : State) :
    (s.installTree nodes n r).eng.root = r := rfl
@[simp] theorem State.installTree_node (nodes : List Node) (n : Nat) (r : NodeIdx) (s : State) :
    (s.installTree nodes n r).eng.node = nodes := rfl
@[simp] theorem State.installTree_ct (nodes : List Node) (n : Nat) (r : NodeIdx) (s : State) :
    (s.installTree nodes n r).eng.ct = s.eng.ct := rfl
@[simp] theorem State.installTree_dcur (nodes : List Node) (n : Nat) (r : NodeIdx) (s : State) :
    (s.installTree nodes n r).eng.dcur = r := rfl
@[simp] theorem State.installTree_input (nodes : List Node) (n : Nat) (r : NodeIdx) (s : State) : (s.installTree nodes n r).input = s.input := rfl
@[simp] theorem State.installTree_responses (nodes : List Node) (n : Nat) (r : NodeIdx) (s : State) :
    (s.installTree nodes n r).responses = s.responses := rfl
@[simp] theorem State.installCodes_phase (ct : Vector (Option BitString) 95) (s : State) :
    (s.installCodes ct).eng.phase = .coded := rfl
@[simp] theorem State.installCodes_ft (ct : Vector (Option BitString) 95) (s : State) :
    (s.installCodes ct).eng.ft = s.eng.ft := rfl
@[simp] theorem State.installCodes_nleaves (ct : Vector (Option BitString) 95) (s : State) :
    (s.installCodes ct).eng.nleaves = s.eng.nleaves := rfl
@[simp] theorem State.installCodes_nnodes (ct : Vector (Option BitString) 95) (s : State) :
    (s.installCodes ct).eng.nnodes = s.eng.nnodes := rfl
@[simp] theorem State.installCodes_root (ct : Vector (Option BitString) 95) (s : State) :
    (s.installCodes ct).eng.root = s.eng.root := rfl
@[simp] theorem State.installCodes_node (ct : Vector (Option BitString) 95) (s : State) :
    (s.installCodes ct).eng.node = s.eng.node := rfl
@[simp] theorem State.installCodes_ct (ct : Vector (Option BitString) 95) (s : State) :
    (s.installCodes ct).eng.ct = ct := rfl
@[simp] theorem State.installCodes_dcur (ct : Vector (Option BitString) 95) (s : State) :
    (s.installCodes ct).eng.dcur = s.eng.dcur := rfl
@[simp] theorem State.installCodes_input (ct : Vector (Option BitString) 95) (s : State) : (s.installCodes ct).input = s.input := rfl
@[simp] theorem State.installCodes_responses (ct : Vector (Option BitString) 95) (s : State) :
    (s.installCodes ct).responses = s.responses := rfl
@[simp] theorem State.respond_eng (st : Status) (data : Data) (s : State) : (s.respond st data).eng = s.eng := rfl
@[simp] theorem State.clear_eng (s : State) : s.clear.eng = Engine.reset := rfl
@[simp] theorem State.clear_input (s : State) : s.clear.input = s.input := rfl
@[simp] theorem State.clear_responses (s : State) : s.clear.responses = s.responses := rfl
@[simp] theorem Engine.reset_phase : Engine.reset.phase = .load := rfl
@[simp] theorem Engine.reset_ft : Engine.reset.ft = Vector.replicate 95 0 := rfl
@[simp] theorem Engine.reset_nleaves : Engine.reset.nleaves = 0 := rfl
@[simp] theorem Engine.reset_nnodes : Engine.reset.nnodes = 0 := rfl
@[simp] theorem Engine.reset_root : Engine.reset.root = 0 := rfl
@[simp] theorem Engine.reset_node : Engine.reset.node = [] := rfl
@[simp] theorem Engine.reset_ct : Engine.reset.ct = Vector.replicate 95 none := rfl
@[simp] theorem Engine.reset_dcur : Engine.reset.dcur = 0 := rfl
@[simp] theorem State.reset_eng : State.reset.eng = Engine.reset := rfl
@[simp] theorem State.reset_input : State.reset.input = [] := rfl
@[simp] theorem State.reset_responses : State.reset.responses = [] := rfl

end Sys2Proof.Machine
end

