-- ==== Sys2Proof/Laws/Ops.lean ====
section
/-! SUPPORT. One lemma for each shared operation that says everything it can do; proofs cite these instead of unfolding. -/

namespace Sys2Proof.Machine

@[simp] theorem complete_eq (data : Data) (s : State) : complete data s = .next (s.respond .ok data) := rfl

@[simp] theorem raise_eq (e : Status) (s : State) : raise e s = .next (s.respond e 0) := rfl

@[simp] theorem illegalWord_eq (s : State) : illegalWord s = .next (s.respond .errIllegal 0) := rfl

/-- What a command that reads a node can do: go on with the node that exists, or stop. -/
theorem withNode_cases (j : NodeIdx) (s : State) (k : Node → Result) :
    (∃ n, nodeAt s.eng.node j = some n ∧ withNode j s k = k n) ∨
      (nodeAt s.eng.node j = none ∧ withNode j s k = .fault .noSuchNode) := by
  cases h : nodeAt s.eng.node j with
  | some n => exact .inl ⟨n, rfl, by simp [withNode, h]⟩
  | none => exact .inr ⟨rfl, by simp [withNode, h]⟩

theorem withNode_of_some {j : NodeIdx} {s : State} {n : Node} (h : nodeAt s.eng.node j = some n) (k : Node → Result) :
    withNode j s k = k n := by
  simp [withNode, h]

/-- A node exists exactly below the length of the arena. -/
theorem nodeAt_isSome_iff (nodes : List Node) (j : NodeIdx) : (nodeAt nodes j).isSome ↔ j.toNat < nodes.length := by
  simp [nodeAt]

theorem nodeAt_mem {nodes : List Node} {j : NodeIdx} {n : Node} (h : nodeAt nodes j = some n) : n ∈ nodes :=
  List.mem_of_getElem? h

/-- The symbol index of an ordinal is its distance from 32. -/
theorem symIndex_eq_some_iff (c : CharCode) (i : SymIdx) : symIndex c = some i ↔ c.toNat = i.val + 32 := by
  unfold symIndex
  split
  · rename_i h
    simp only [Option.some.injEq, Fin.ext_iff]
    omega
  · simp only [reduceCtorEq, false_iff]
    omega

/-- An ordinal has no symbol index exactly outside the alphabet. -/
theorem symIndex_eq_none_iff (c : CharCode) : symIndex c = none ↔ c.toNat < 32 ∨ 126 < c.toNat := by
  unfold symIndex
  split <;> simp only [reduceCtorEq, false_iff, true_iff] <;> omega

@[simp] theorem ordinalOf_toNat (i : SymIdx) : (ordinalOf i).toNat = i.val + 32 := by
  simp only [ordinalOf, BitVec.toNat_ofNat]
  omega

@[simp] theorem symIndex_ordinalOf (i : SymIdx) : symIndex (ordinalOf i) = some i := by
  simp [symIndex_eq_some_iff]

theorem ordinalOf_injective {i j : SymIdx} (h : ordinalOf i = ordinalOf j) : i = j := by
  have := congrArg BitVec.toNat h
  simp only [ordinalOf_toNat] at this
  exact Fin.ext (by omega)

/-- Reading an entry of FT after a write gives the value at the written index and the old entry elsewhere. -/
theorem setFt_get (i k : SymIdx) (v : Count) (s : State) :
    (s.setFt i v).eng.ft[k] = if i = k then v else s.eng.ft[k] := by
  simp [Vector.getElem_set, Fin.ext_iff]

theorem countOf_of_symIndex {ft : Vector Count 95} {c : CharCode} {i : SymIdx} (h : symIndex c = some i) :
    countOf ft c = ft[i] := by
  simp [countOf, h]

theorem codeOf_of_symIndex {ct : Vector (Option BitString) 95} {c : CharCode} {i : SymIdx} (h : symIndex c = some i) :
    codeOf ct c = ct[i] := by
  simp [codeOf, h]

/-- Recording a code writes one entry of CT, or stops where the symbol is none. -/
theorem recordCode_cases (sym : CharCode) (p : BitString) (ct : Vector (Option BitString) 95) :
    (∃ i, symIndex sym = some i ∧ recordCode sym p ct = .ok (ct.set i (some p))) ∨
      (symIndex sym = none ∧ recordCode sym p ct = .error .noSuchSymbol) := by
  cases h : symIndex sym with
  | some i => exact .inl ⟨i, rfl, by simp [recordCode, h]⟩
  | none => exact .inr ⟨rfl, by simp [recordCode, h]⟩

/-- What one step can do with the event the host presents. -/
theorem step_cases (s : State) :
    (s.input = [] ∧ step s = .next s) ∨
    (∃ rest, s.input = .reset :: rest ∧ step s = .next (takeReset { s with input := rest })) ∨
    (∃ w i rest, s.input = .command w :: rest ∧ fetch w = some i ∧ step s = exec i { s with input := rest }) ∨
    (∃ w rest, s.input = .command w :: rest ∧ fetch w = none ∧ step s = illegalWord { s with input := rest }) := by
  cases h : s.input with
  | nil => exact .inl ⟨rfl, by simp [step, h]⟩
  | cons ev rest =>
    cases ev with
    | reset => exact .inr (.inl ⟨rest, rfl, by simp [step, h]⟩)
    | command w =>
      cases hf : fetch w with
      | some i => exact .inr (.inr (.inl ⟨w, i, rest, rfl, hf, by simp [step, h, hf]⟩))
      | none => exact .inr (.inr (.inr ⟨w, rest, rfl, hf, by simp [step, h, hf]⟩))

theorem fetch_eq_some_iff (w : CommandWord) (i : Instr) : fetch w = some i ↔ decode w = .ok i := by
  unfold fetch
  cases decode w <;> simp

end Sys2Proof.Machine
end

