-- ==== Sys2Proof/Laws/Invariant.lean ====
section
/-! SUPPORT. The invariant, taken apart once for each phase. -/

namespace Sys2Proof.Machine

open Sys2Proof.Config (TieRule)

/-- What the invariant says in phase LOAD. -/
theorem Engine.inv_load_iff {e : Engine} (h : e.phase = .load) :
    e.Inv ↔ e.nleaves = 0 ∧ e.nnodes = 0 ∧ e.root = 0 ∧ e.dcur = 0 ∧ e.node = [] ∧ e.ct = noCodes := by
  simp [Engine.Inv, Engine.inv, h, Engine.loadInv, and_assoc]

/-- What the invariant says in phase TREE. -/
theorem Engine.inv_tree_iff {e : Engine} (h : e.phase = .tree) :
    e.Inv ↔ e.builtFromTable = true ∧ e.cursorOk = true ∧ e.ct = noCodes := by
  simp [Engine.Inv, Engine.inv, h, and_assoc]

/-- What the invariant says in phase CODED. -/
theorem Engine.inv_coded_iff {e : Engine} (h : e.phase = .coded) :
    e.Inv ↔ e.builtFromTable = true ∧ e.cursorOk = true ∧ e.codesOfTree = true := by
  simp [Engine.Inv, Engine.inv, h, and_assoc]

/-- The tree is the one of the table. -/
theorem Engine.builtFromTable_iff (e : Engine) :
    e.builtFromTable = true ↔ ∃ b, buildTree TieRule.hardware e.ft = some b ∧ e.node = b.nodes ∧ e.root = b.root ∧
      e.nleaves = BitVec.ofNat 8 (leavesOf e.ft).length ∧ e.nnodes = BitVec.ofNat 8 b.nodes.length := by
  unfold Engine.builtFromTable
  cases h : buildTree TieRule.hardware e.ft <;> simp [and_assoc]

/-- The cursor names a node, and one that is the root or Internal. -/
theorem Engine.cursorOk_iff (e : Engine) :
    e.cursorOk = true ↔ ∃ n, nodeAt e.node e.dcur = some n ∧ (e.dcur = e.root ∨ n.isLeaf = false) := by
  unfold Engine.cursorOk
  cases h : nodeAt e.node e.dcur <;> simp

/-- The code table is the one of the tree. -/
theorem Engine.codesOfTree_iff (e : Engine) : e.codesOfTree = true ↔ genCodes e.node e.root = .ok e.ct := by
  unfold Engine.codesOfTree
  cases h : genCodes e.node e.root with
  | error f => simp
  | ok ct =>
    simp only [beq_iff_eq, Except.ok.injEq]
    exact eq_comm

/-- The invariant does not look at the port. -/
@[simp] theorem State.inv_respond (st : Status) (data : Data) (s : State) : (s.respond st data).Inv ↔ s.Inv := Iff.rfl

end Sys2Proof.Machine
end

