-- ==== Sys2Proof/Laws/Layout.lean ====
section
/-! SUPPORT. The layouts of the data words, bit by bit: which field each bit of a response belongs to. -/

namespace Sys2Proof.Machine

/-- A field of a word is given by its bits. -/
theorem extractLsb'_eq_of_getLsbD {n w : Nat} {x : BitVec n} {y : BitVec w} (start : Nat)
    (h : ∀ i, i < w → x.getLsbD (start + i) = y.getLsbD i) : x.extractLsb' start w = y := by
  refine BitVec.eq_of_getLsbD_eq fun i hi => ?_
  simp [hi, h i hi]

/-- The bits of the record of a Leaf. -/
theorem nodeData_leaf_getLsbD (sym : CharCode) (freq : Freq) (i : Nat) :
    (nodeData (.leaf sym freq)).getLsbD i =
      if i < 1 then true
      else if i < 8 then false
      else if i < 16 then sym.getLsbD (i - 8)
      else if i < 32 then false
      else freq.getLsbD (i - 32) := by
  simp only [nodeData, BitVec.getLsbD_append]
  by_cases h1 : i < 1
  · simp [show i = 0 from by omega]
  simp only [h1, if_false]
  by_cases h2 : i - 1 < 1
  · simp [show i - 1 = 0 from by omega, show i < 8 from by omega]
  by_cases h3 : i - 1 - 1 < 6
  · simp [h2, h3, show i < 8 from by omega]
  by_cases h4 : i - 1 - 1 - 6 < 8
  · rw [if_neg h2, if_neg h3, if_pos h4, if_neg (by omega), if_pos (by omega), show i - 1 - 1 - 6 = i - 8 from by omega]
  by_cases h5 : i - 1 - 1 - 6 - 8 < 8
  · simp [h2, h3, h4, h5, show ¬ i < 8 from by omega, show ¬ i < 16 from by omega, show i < 32 from by omega]
  by_cases h6 : i - 1 - 1 - 6 - 8 - 8 < 8
  · simp [h2, h3, h4, h5, h6, show ¬ i < 8 from by omega, show ¬ i < 16 from by omega, show i < 32 from by omega]
  have h7 : ¬ i < 8 ∧ ¬ i < 16 ∧ ¬ i < 32 ∧ i - 1 - 1 - 6 - 8 - 8 - 8 = i - 32 := by omega
  simp only [h2, h3, h4, h5, h6, h7, if_false]
  split
  · rfl
  · rw [BitVec.getLsbD_of_ge freq _ (by omega)]
    simp

/-- The bits of the record of an Internal node. -/
theorem nodeData_internal_getLsbD (freq : Freq) (left right : NodeIdx) (i : Nat) :
    (nodeData (.internal freq left right)).getLsbD i =
      if i < 2 then true
      else if i < 16 then false
      else if i < 24 then left.getLsbD (i - 16)
      else if i < 32 then right.getLsbD (i - 24)
      else freq.getLsbD (i - 32) := by
  simp only [nodeData, BitVec.getLsbD_append]
  by_cases h1 : i < 1
  · simp [show i = 0 from by omega]
  simp only [h1, if_false]
  by_cases h2 : i - 1 < 1
  · simp [show i - 1 = 0 from by omega, show i < 2 from by omega]
  by_cases h3 : i - 1 - 1 < 6
  · simp [h2, h3, show ¬ i < 2 from by omega, show i < 16 from by omega]
  by_cases h4 : i - 1 - 1 - 6 < 8
  · simp [h2, h3, h4, show ¬ i < 2 from by omega, show i < 16 from by omega]
  by_cases h5 : i - 1 - 1 - 6 - 8 < 8
  · rw [if_neg h2, if_neg h3, if_neg h4, if_pos h5, if_neg (by omega), if_neg (by omega), if_pos (by omega),
      show i - 1 - 1 - 6 - 8 = i - 16 from by omega]
  by_cases h6 : i - 1 - 1 - 6 - 8 - 8 < 8
  · rw [if_neg h2, if_neg h3, if_neg h4, if_neg h5, if_pos h6, if_neg (by omega), if_neg (by omega), if_neg (by omega),
      if_pos (by omega), show i - 1 - 1 - 6 - 8 - 8 = i - 24 from by omega]
  have h7 : ¬ i < 2 ∧ ¬ i < 16 ∧ ¬ i < 24 ∧ ¬ i < 32 ∧ i - 1 - 1 - 6 - 8 - 8 - 8 = i - 32 := by omega
  simp only [h2, h3, h4, h5, h6, h7, if_false]
  split
  · rfl
  · rw [BitVec.getLsbD_of_ge freq _ (by omega)]
    simp

/-- The bits of the data word of a DBIT that completes a symbol. -/
theorem emitData_getLsbD (sym : CharCode) (i : Nat) :
    (emitData sym).getLsbD i = if i < 1 then true else if i < 8 then false else sym.getLsbD (i - 8) := by
  simp only [emitData, BitVec.getLsbD_append]
  by_cases h1 : i < 1
  · simp [show i = 0 from by omega]
  simp only [h1, if_false]
  by_cases h2 : i - 1 < 7
  · simp [h2, show i < 8 from by omega]
  have h3 : ¬ i < 8 ∧ i - 1 - 7 = i - 8 := by omega
  simp only [h2, h3, if_false]
  split
  · rfl
  · rw [BitVec.getLsbD_of_ge sym _ (by omega)]
    simp

/-- The bits of a packed code. -/
theorem pack_getLsbD (p : BitString) (i : Nat) :
    (pack p).getLsbD i =
      if i < 1 then true
      else if i < 8 then (BitVec.ofNat 7 p.length).getLsbD (i - 1)
      else (BitVec.ofNat 94 (bitsNat p)).getLsbD (i - 8) := by
  simp only [pack, BitVec.getLsbD_append]
  by_cases h1 : i < 1
  · simp [show i = 0 from by omega]
  simp only [h1, if_false]
  by_cases h2 : i - 1 < 7
  · simp only [h2, if_true, show i < 8 from by omega]
  have h3 : ¬ i < 8 ∧ i - 1 - 7 = i - 8 := by omega
  simp only [h2, h3, if_false]
  split
  · rfl
  · rw [BitVec.getLsbD_of_ge (BitVec.ofNat 94 (bitsNat p)) _ (by omega)]
    simp

/-- Bit `k` of the number of a bit-string is its bit `k`, and 0 beyond its end. -/
theorem bitsNat_testBit (p : BitString) (k : Nat) : (bitsNat p).testBit k = (p[k]?).getD false := by
  induction p generalizing k with
  | nil => simp [bitsNat]
  | cons b p ih =>
    cases k with
    | zero => cases b <;> simp [bitsNat, Nat.testBit_zero]
    | succ k =>
      rw [List.getElem?_cons_succ, ← ih k, Nat.testBit_succ]
      congr 1
      cases b
      · simp [bitsNat]
      · simp [bitsNat]; omega

/-- The bits of STATUS. -/
theorem statusWord_getLsbD (e : Engine) (i : Nat) :
    e.statusWord.getLsbD i =
      if i < 2 then e.phase.code.getLsbD i
      else if i < 3 then e.rootIsLeaf
      else if i < 4 then e.atRoot
      else if i < 8 then false
      else if i < 16 then e.nleaves.getLsbD (i - 8)
      else if i < 24 then e.nnodes.getLsbD (i - 16)
      else if i < 32 then e.root.getLsbD (i - 24)
      else e.dcur.getLsbD (i - 32) := by
  simp only [Engine.statusWord, BitVec.getLsbD_append]
  by_cases h1 : i < 2
  · simp only [h1, if_true]
  by_cases h2 : i - 2 < 1
  · simp [h1, show i - 2 = 0 from by omega, show i < 3 from by omega]
  by_cases h3 : i - 2 - 1 < 1
  · simp [h1, h2, show i - 2 - 1 = 0 from by omega, show ¬ i < 3 from by omega, show i < 4 from by omega]
  by_cases h4 : i - 2 - 1 - 1 < 4
  · simp [h1, h2, h3, h4, show ¬ i < 3 from by omega, show ¬ i < 4 from by omega, show i < 8 from by omega]
  have g1 : ¬ i < 3 ∧ ¬ i < 4 ∧ ¬ i < 8 := by omega
  by_cases h5 : i - 2 - 1 - 1 - 4 < 8
  · simp only [h1, g1, if_false]
    rw [if_neg h2, if_neg h3, if_neg h4, if_pos h5, if_pos (by omega), show i - 2 - 1 - 1 - 4 = i - 8 from by omega]
  by_cases h6 : i - 2 - 1 - 1 - 4 - 8 < 8
  · simp only [h1, g1, if_false]
    rw [if_neg h2, if_neg h3, if_neg h4, if_neg h5, if_pos h6, if_neg (by omega), if_pos (by omega),
      show i - 2 - 1 - 1 - 4 - 8 = i - 16 from by omega]
  by_cases h7 : i - 2 - 1 - 1 - 4 - 8 - 8 < 8
  · simp only [h1, g1, if_false]
    rw [if_neg h2, if_neg h3, if_neg h4, if_neg h5, if_neg h6, if_pos h7, if_neg (by omega), if_neg (by omega),
      if_pos (by omega), show i - 2 - 1 - 1 - 4 - 8 - 8 = i - 24 from by omega]
  have h8 : ¬ i < 16 ∧ ¬ i < 24 ∧ ¬ i < 32 ∧ i - 2 - 1 - 1 - 4 - 8 - 8 - 8 = i - 32 := by omega
  simp only [h1, h2, h3, h4, h5, h6, h7, h8, g1, if_false]
  split
  · rfl
  · rw [BitVec.getLsbD_of_ge e.dcur _ (by omega)]
    simp

end Sys2Proof.Machine
end

