-- ==== Sys2Proof/Laws/PerInstr.lean ====
section
/-! SUPPORT. Statements about every instruction as syntax, one lemma per constructor. -/

namespace Sys2Proof.Laws.LegalFields

/-- The fields an instruction is encoded in pass all four checks of the field table (30_encoding.md R71), and they carry its
own opcode. -/
def Statement (i : Instr) : Prop := i.toFields.legal = true ∧ i.toFields.op = i.op.code

theorem clr : Statement .clr := by unfold Statement; decide
theorem ldf (c : CharCode) (count : Count) : Statement (.ldf c count) := by
  refine ⟨?_, rfl⟩
  have h : Op.ofCode? 0x02#8 = some .ldf := by decide
  simp [Fields.legal, Fields.opAssigned, Fields.zClear, Fields.aClear, Fields.dClear, Instr.toFields, h, Op.freeA, Op.freeD]
theorem rdf (c : CharCode) : Statement (.rdf c) := by
  refine ⟨?_, rfl⟩
  have h : Op.ofCode? 0x03#8 = some .rdf := by decide
  simp [Fields.legal, Fields.opAssigned, Fields.zClear, Fields.aClear, Fields.dClear, Instr.toFields, h, Op.freeA, Op.freeD]
theorem build : Statement .build := by unfold Statement; decide
theorem gen : Statement .gen := by unfold Statement; decide
theorem rdn (j : NodeIdx) : Statement (.rdn j) := by
  refine ⟨?_, rfl⟩
  have h : Op.ofCode? 0x06#8 = some .rdn := by decide
  simp [Fields.legal, Fields.opAssigned, Fields.zClear, Fields.aClear, Fields.dClear, Instr.toFields, h, Op.freeA, Op.freeD]
theorem rdc (c : CharCode) : Statement (.rdc c) := by
  refine ⟨?_, rfl⟩
  have h : Op.ofCode? 0x07#8 = some .rdc := by decide
  simp [Fields.legal, Fields.opAssigned, Fields.zClear, Fields.aClear, Fields.dClear, Instr.toFields, h, Op.freeA, Op.freeD]
theorem rds : Statement .rds := by unfold Statement; decide
theorem drst : Statement .drst := by unfold Statement; decide
theorem dbit (b : Bool) : Statement (.dbit b) := by cases b <;> unfold Statement <;> decide

end Sys2Proof.Laws.LegalFields
end

