-- ==== Sys2Proof/Laws/Queue.lean ====
section
/-! SUPPORT. The live set of BUILD: removing a minimum keeps the other members and takes one away. -/

namespace Sys2Proof.Machine

open Sys2Proof.Config (TieRule)

/-- The entry removed and the set left are together the set it was removed from. -/
theorem takeMin_perm (t : TieRule) (e : QEntry) (es : List QEntry) :
    ((takeMin t e es).1 :: (takeMin t e es).2).Perm (e :: es) := by
  induction es generalizing e with
  | nil => simp [takeMin]
  | cons x xs ih =>
    unfold takeMin
    split
    · exact (List.Perm.swap _ _ _).trans ((ih x).cons e)
    · exact (List.Perm.swap _ _ _).trans (((ih e).cons x).trans (List.Perm.swap _ _ _))

/-- Removing a minimum shrinks the live set by one. -/
theorem takeMin_length (t : TieRule) (e : QEntry) (es : List QEntry) : (takeMin t e es).2.length = es.length := by
  have h := (takeMin_perm t e es).length_eq
  simp only [List.length_cons] at h
  omega

/-- The loop ends when the node removed was the last one: it is the root. -/
theorem mergeLoop_last (t : TieRule) (fuel : Nat) (nodes : List Node) {e : QEntry} {es : List QEntry}
    (h : (takeMin t e es).2 = []) :
    mergeLoop t (fuel + 1) nodes e es = ⟨nodes, (takeMin t e es).1.idx⟩ := by
  simp [mergeLoop, h]

/-- One round of the loop: two nodes are removed and their parent joins the arena and the live set. -/
theorem mergeLoop_round (t : TieRule) (fuel : Nat) (nodes : List Node) {e : QEntry} {es : List QEntry} {q : QEntry}
    {qs : List QEntry} (h : (takeMin t e es).2 = q :: qs) :
    mergeLoop t (fuel + 1) nodes e es =
      mergeLoop t fuel
        (nodes ++ [mergeNode t (BitVec.ofNat 8 nodes.length) (takeMin t e es).1 (takeMin t q qs).1])
        ⟨(takeMin t e es).1.freq + (takeMin t q qs).1.freq, BitVec.ofNat 8 nodes.length⟩ (takeMin t q qs).2 := by
  simp [mergeLoop, h]

/-- The merge loop only appends: the nodes it was given stay where they are. -/
theorem mergeLoop_keeps (t : TieRule) (fuel : Nat) (nodes : List Node) (e : QEntry) (es : List QEntry) :
    ∃ more, (mergeLoop t fuel nodes e es).nodes = nodes ++ more := by
  induction fuel generalizing nodes e es with
  | zero => exact ⟨[], by simp [mergeLoop]⟩
  | succ fuel ih =>
    cases h : (takeMin t e es).2 with
    | nil => exact ⟨[], by simp [mergeLoop_last t fuel nodes h]⟩
    | cons q qs =>
      rw [mergeLoop_round t fuel nodes h]
      obtain ⟨more, hm⟩ := ih (nodes ++ [mergeNode t (BitVec.ofNat 8 nodes.length) (takeMin t e es).1 (takeMin t q qs).1])
        ⟨(takeMin t e es).1.freq + (takeMin t q qs).1.freq, BitVec.ofNat 8 nodes.length⟩ (takeMin t q qs).2
      exact ⟨_ :: more, by rw [hm, List.append_assoc]; rfl⟩

/-- With fuel for the live set, each round but the last appends one node. -/
theorem mergeLoop_length (t : TieRule) (fuel : Nat) (nodes : List Node) (e : QEntry) (es : List QEntry)
    (h : es.length < fuel) : (mergeLoop t fuel nodes e es).nodes.length = nodes.length + es.length := by
  induction fuel generalizing nodes e es with
  | zero => omega
  | succ fuel ih =>
    have hl := takeMin_length t e es
    cases hq : (takeMin t e es).2 with
    | nil =>
      rw [hq, List.length_nil] at hl
      simp [mergeLoop_last t fuel nodes hq, ← hl]
    | cons q qs =>
      rw [hq, List.length_cons] at hl
      have hl' := takeMin_length t q qs
      rw [mergeLoop_round t fuel nodes hq, ih _ _ _ (by omega)]
      simp only [List.length_append, List.length_cons, List.length_nil]
      omega

end Sys2Proof.Machine
end

