-- ==== Sys2Proof/Tests/Slice0.lean ====
section
/-! SUPPORT. The model's own tests, each a named theorem about one step. Expected values come from 95_test_vectors.md (the vector
is named) or from the example of the rule cited. Then, for every statement with hypotheses, a witness that meets them.

The tests are elaborated one after another (`Elab.async false`): many kernel evaluations at once, each in a thread of its own, can
exhaust the memory a check may use. -/

set_option Elab.async false

namespace Sys2Proof.Tests

open Sys2Proof Sys2Proof.Machine
open Sys2Proof.Config (TieRule)

/-! ## Helpers -/

/-- The state after a step that went on. -/
def nextOf : Result → Option State
  | .next s => some s
  | .fault _ => none
  | .refused _ => none

theorem exists_next {r : Result} (h : (nextOf r).isSome = true) : ∃ t, r = .next t := by
  cases r with
  | next t => exact ⟨t, rfl⟩
  | fault f => simp [nextOf] at h
  | refused f => simp [nextOf] at h

theorem eq_next {r : Result} {t : State} (h : nextOf r = some t) : r = .next t := by
  cases r with
  | next u => simp [nextOf] at h; rw [h]
  | fault f => simp [nextOf] at h
  | refused f => simp [nextOf] at h

/-- A state with nothing presented and nothing answered. -/
def at_ (e : Engine) : State := { eng := e, input := [], responses := [] }

/-- The engine after a command that went on. -/
def engOf (r : Result) : Engine :=
  match nextOf r with
  | some s => s.eng
  | none => .reset

/-- The one response of a command issued on `e`. -/
def answerOf (i : Instr) (e : Engine) : Option (List Response) := (nextOf (exec i (at_ e))).map (fun s => s.responses)

/-- Phase LOAD with some counts. -/
def withCounts (counts : List (SymIdx × Count)) : Engine :=
  { Engine.reset with ft := counts.foldl (fun ft p => ft.set p.1 p.2) Engine.reset.ft }

/-- A code table with some codes. -/
def codesOf (codes : List (SymIdx × BitString)) : Vector (Option BitString) 95 :=
  codes.foldl (fun ct p => ct.set p.1 (some p.2)) noCodes

def loadAab : Engine := withCounts [(65, 2), (66, 1)]
/-- 95_test_vectors.md S3 after BUILD. -/
def treeAab : Engine :=
  { loadAab with
    phase := .tree, node := [.leaf 97 2, .leaf 98 1, .internal 3 1 0], nleaves := 2, nnodes := 3, root := 2, dcur := 2 }
/-- S3 after GEN. -/
def codedAab : Engine := { treeAab with phase := .coded, ct := codesOf [(65, [true]), (66, [false])] }
def loadAbra : Engine := withCounts [(65, 5), (66, 2), (67, 1), (68, 1), (82, 2)]
/-- V-B1. -/
def treeAbra : Engine :=
  { loadAbra with
    phase := .tree
    node := [.leaf 97 5, .leaf 98 2, .leaf 99 1, .leaf 100 1, .leaf 114 2, .internal 2 2 3, .internal 4 1 4,
      .internal 6 5 6, .internal 11 0 7]
    nleaves := 5, nnodes := 9, root := 8, dcur := 8 }
/-- V-G3. -/
def codedAbra : Engine :=
  { treeAbra with
    phase := .coded
    ct := codesOf [(65, [false]), (66, [true, true, false]), (67, [true, false, false]), (68, [true, false, true]),
      (82, [true, true, true])] }
/-- S1 after BUILD. -/
def treeSole : Engine :=
  { withCounts [(65, 4)] with phase := .tree, node := [.leaf 97 4], nleaves := 1, nnodes := 1, root := 0, dcur := 0 }
/-- S1 after GEN. -/
def codedSole : Engine := { treeSole with phase := .coded, ct := codesOf [(65, [false])] }
/-- V-B3 and V-G5: two symbols with equal counts. -/
def codedAb : Engine :=
  { withCounts [(65, 1), (66, 1)] with
    phase := .coded, node := [.leaf 97 1, .leaf 98 1, .internal 2 0 1], nleaves := 2, nnodes := 3, root := 2, dcur := 2
    ct := codesOf [(65, [false]), (66, [true])] }

/-! ## Well-formedness: an ill-formed word for each check -/

theorem test_opAssigned_refuses : (Fields.ofWord 0x0B00000000000000).opAssigned = false := by decide
theorem test_zClear_refuses : (Fields.ofWord 0x0100010000000000).zClear = false := by decide
theorem test_aClear_refuses : (Fields.ofWord 0x0400000100000000).aClear = false := by decide
theorem test_aClear_refuses_high_bits_of_dbit : (Fields.ofWord 0x0A00000200000000).aClear = false := by decide
theorem test_dClear_refuses : (Fields.ofWord 0x0300006100000001).dClear = false := by decide
theorem test_legal_accepts_every_operand_of_ldf : (Fields.ofWord 0x020000FFFFFFFFFF).legal = true := by decide
theorem test_widths_are_the_parameters :
    Config.chw = 8 ∧ Config.symHi - Config.symLo + 1 = Config.nsym ∧ Config.nnodeMax = 2 * Config.nsym - 1 ∧
      Config.maxlen = Config.nsym - 1 ∧ Config.sw = Config.fw + 7 := by decide

/-! ## Decoding: words written out from 30_encoding.md R71 and R77 -/

theorem test_decode_clr : decode 0x0100000000000000 = .ok .clr := by decide
/-- R77: `LDF 'a', 4`. -/
theorem test_decode_ldf :
    decode 0b0000001000000000000000000110000100000000000000000000000000000100 = .ok (.ldf 97 4) := by decide
theorem test_decode_rdf : decode 0x0300006100000000 = .ok (.rdf 97) := by decide
theorem test_decode_build : decode 0x0400000000000000 = .ok .build := by decide
theorem test_decode_gen : decode 0x0500000000000000 = .ok .gen := by decide
theorem test_decode_rdn : decode 0x0600000200000000 = .ok (.rdn 2) := by decide
theorem test_decode_rdc : decode 0x0700006100000000 = .ok (.rdc 97) := by decide
theorem test_decode_rds : decode 0x0800000000000000 = .ok .rds := by decide
theorem test_decode_drst : decode 0x0900000000000000 = .ok .drst := by decide
theorem test_decode_dbit_one :
    decode 0b0000101000000000000000000000000100000000000000000000000000000000 = .ok (.dbit true) := by decide
theorem test_decode_dbit_zero : decode 0x0A00000000000000 = .ok (.dbit false) := by decide
/-- V-E3, V-E5, V-E9, V-E6, V-E7, V-E8: illegal words. -/
theorem test_decode_rejects_by_name :
    decode 0 = .error .reservedOpcode ∧ decode 0xFF00000000000000 = .error .reservedOpcode ∧
      decode 0x0100010000000000 = .error .zNotZero ∧ decode 0x0400000100000000 = .error .aNotZero ∧
      decode 0x0300006100000001 = .error .dNotZero ∧ decode 0x0A00000200000000 = .error .aNotZero := by decide
theorem test_encode_ldf : encode (.ldf 97 4) = 0x0200006100000004 := by decide
theorem test_table_word : decodeTableWord 64 0x020000FFFFFFFFFF = some (.ldf 255 0xFFFFFFFF) := by decide

/-! ## One command each -/

/-- V-F1. -/
theorem test_ldf_stores : (engOf (execLdf 97 4 (at_ .reset))).ft[65] = 4 := by decide +kernel
/-- V-F4: 31 and 127 are just outside the alphabet. -/
theorem test_ldf_outside_alphabet :
    engOf (execLdf 31 5 (at_ .reset)) = .reset ∧ engOf (execLdf 127 5 (at_ .reset)) = .reset := by decide +kernel
/-- V-F5: the two ends of the alphabet. -/
theorem test_rdf_ends :
    answerOf (.rdf 32) (withCounts [(0, 1), (94, 2)]) = some [⟨.ok, 1⟩] ∧
      answerOf (.rdf 126) (withCounts [(0, 1), (94, 2)]) = some [⟨.ok, 2⟩] := by decide +kernel
theorem test_rdf_outside_alphabet : answerOf (.rdf 127) loadAab = some [⟨.ok, 0⟩] := by decide +kernel
/-- 41_tree_builder.md R111: the trace of "abracadabra". -/
theorem test_build_abracadabra : engOf (execBuild (at_ loadAbra)) = treeAbra := by decide +kernel
/-- V-F7, V-B11. -/
theorem test_build_refused :
    answerOf .build .reset = some [⟨.errEmpty, 0⟩] ∧ answerOf .build treeAab = some [⟨.errState, 0⟩] := by decide +kernel
/-- V-G3. -/
theorem test_gen_abracadabra : engOf (execGen (at_ treeAbra)) = codedAbra := by decide +kernel
/-- V-G1. -/
theorem test_gen_single_leaf : engOf (execGen (at_ treeSole)) = codedSole := by decide +kernel
/-- V-B1: `RDN 4`, `RDN 8` and, beyond `nnodes`, `RDN 9`. -/
theorem test_rdn_answers :
    answerOf (.rdn 4) treeAbra = some [⟨.ok, 0x200007201⟩] ∧ answerOf (.rdn 8) treeAbra = some [⟨.ok, 0xB07000003⟩] ∧
      answerOf (.rdn 9) treeAbra = some [⟨.ok, 0⟩] := by decide +kernel
theorem test_rdn_refused : answerOf (.rdn 0) .reset = some [⟨.errState, 0⟩] := by decide +kernel
/-- V-G3, V-G2. -/
theorem test_rdc_answers :
    answerOf (.rdc 98) codedAbra = some [⟨.ok, 0x307⟩] ∧ answerOf (.rdc 10) codedAbra = some [⟨.ok, 0⟩] ∧
      answerOf (.rdc 101) codedAbra = some [⟨.ok, 0⟩] := by decide +kernel
theorem test_rdc_refused : answerOf (.rdc 97) treeAab = some [⟨.errState, 0⟩] := by decide +kernel
/-- V-S1, V-S4, V-S6. -/
theorem test_rds_answers :
    answerOf .rds .reset = some [⟨.ok, 8⟩] ∧ answerOf .rds treeSole = some [⟨.ok, 0x1010D⟩] ∧
      answerOf .rds codedAbra = some [⟨.ok, 0x80809050A⟩] := by decide +kernel
/-- 43_decoder.md R135. -/
theorem test_drst_to_root : (engOf (execDrst (at_ { treeAbra with dcur := 7 }))).dcur = 8 := by decide +kernel
theorem test_drst_refused : answerOf .drst .reset = some [⟨.errState, 0⟩] := by decide +kernel
/-- V-D1: the second and the third bit of "110". -/
theorem test_dbit_moves_and_emits :
    (engOf (execDbit true (at_ { treeAbra with dcur := 7 }))).dcur = 6 ∧
      answerOf (.dbit true) { treeAbra with dcur := 7 } = some [⟨.ok, 0⟩] ∧
      answerOf (.dbit false) { treeAbra with dcur := 6 } = some [⟨.ok, 0x6201⟩] := by decide +kernel
/-- V-D5: either bit emits the sole symbol. -/
theorem test_dbit_single_leaf :
    answerOf (.dbit false) treeSole = some [⟨.ok, 0x6101⟩] ∧ answerOf (.dbit true) treeSole = some [⟨.ok, 0x6101⟩] := by
  decide +kernel
/-- V-S8. -/
theorem test_clr_resets : engOf (execClr (at_ codedAab)) = .reset := by decide +kernel
/-- V-X7: legality before phase. -/
theorem test_illegal_before_phase :
    (nextOf (step (present 0x0400000100000000 (at_ treeAab)))).map (fun s => s.responses) = some [⟨.errIllegal, 0⟩] := by
  decide +kernel
/-- The unreachable states that stop: no node at the cursor, a leaf outside the alphabet, a node that is its own child. -/
theorem test_faults_are_reached :
    (nextOf (execDbit true (at_ { treeAab with node := [] }))).isSome = false ∧
      (nextOf (execGen (at_ { treeAab with node := [.leaf 200 1], root := 0 }))).isSome = false ∧
      (nextOf (execGen (at_ { treeAab with node := [.internal 1 0 0], root := 0 }))).isSome = false := by decide +kernel
/-- 30_encoding.md R78: `DBITS "10"`, and `LDTEXT "ba"` in ascending order of ordinal. -/
theorem test_pseudo_commands :
    (Pseudo.dbits [49, 48]).expand = some (.commands [.dbit true, .dbit false]) ∧ (Pseudo.dbits [50]).expand = none ∧
      (Pseudo.dbits []).expand = some (.commands []) ∧ Pseudo.dend.expand = some (.commands [.drst]) ∧
      (Pseudo.ldtext [98, 97]).expand = some (.commands [.ldf 97 1, .ldf 98 1]) := by decide +kernel
/-- 30_encoding.md R78, 60_exceptions.md R182: CONSTRUCT issues GEN only if BUILD responded OK; where BUILD is refused by phase the
engine stays and its response is ERR_STATE. -/
theorem test_construct_pseudo :
    Pseudo.construct.expand = some (.ifOk .build .gen) ∧
      (Expansion.ifOk .build .gen).run loadAab = some (codedAab, [⟨.ok, 0⟩, ⟨.ok, 0⟩]) ∧
      (Expansion.ifOk .build .gen).run treeAab = some (treeAab, [⟨.errState, 0⟩]) ∧
      (Expansion.ifOk .build .gen).run .reset = some (.reset, [⟨.errEmpty, 0⟩]) := by decide +kernel
/-- 30_encoding.md R77: a comment, a hexadecimal count, a wrong bit (`; x`, `LDF 97, 0xF`, `DBIT 2`) and `CONSTRUCT`. -/
theorem test_assembler_lines :
    assembleLine [59, 32, 120] = some (.words []) ∧
      assembleLine [76, 68, 70, 32, 57, 55, 44, 32, 48, 120, 70] = some (.words [0x020000610000000F]) ∧
      assembleLine [68, 66, 73, 84, 32, 50] = none ∧
      assembleLine [67, 79, 78, 83, 84, 82, 85, 67, 84] = some (.ifOk 0x0400000000000000 0x0500000000000000) := by
  decide +kernel

/-! ## Witnesses: for every statement with hypotheses, a state and operands that meet all of them -/

/-- The state in which `w` is presented to `e`. -/
def offered (w : CommandWord) (e : Engine) : State := present w (at_ e)

theorem inv_reset : Engine.reset.Inv := by decide +kernel
theorem inv_treeAab : treeAab.Inv := by decide +kernel
theorem inv_codedAab : codedAab.Inv := by decide +kernel
theorem inv_treeSole : treeSole.Inv := by decide +kernel
theorem inv_codedSole : codedSole.Inv := by decide +kernel
theorem inv_treeAbra : treeAbra.Inv := by decide +kernel
theorem inv_partialPath : ({ treeAbra with dcur := 7 } : Engine).Inv := by decide +kernel
theorem inv_codedAb : codedAb.Inv := by decide +kernel

theorem test_witness_EveryWordSpellsOneCommandOrIsIllegal :
    (offered 0 .reset).input = .command 0 :: [] ∧ decode 0 = .error .reservedOpcode := by decide
theorem test_witness_StepRunsTheDecodedCommand :
    (offered 0x0A00000100000000 treeAab).input = .command 0x0A00000100000000 :: [] ∧
      decode 0x0A00000100000000 = .ok (.dbit true) := ⟨rfl, by decide⟩
theorem test_witness_ResetAndIdleSteps :
    ({ at_ codedAab with input := [.reset] } : State).input = .reset :: [] ∧ (at_ codedAab).input = [] := ⟨rfl, rfl⟩
theorem test_witness_OpcodeRowsArePairwiseDisjoint :
    (opcodeTable.filter (fun r => r.spells 0x0A00000100000000)).map (fun r => r.op) = [.dbit] := by decide
theorem test_witness_RunIsTheFoldOfTheEngineStep :
    codedAab.Inv := inv_codedAab
theorem test_witness_EveryStepKeepsTheInvariant :
    (offered 0x0A00000100000000 treeAab).Inv ∧ ∃ t, step (offered 0x0A00000100000000 treeAab) = .next t :=
  ⟨inv_treeAab, exists_next (by decide +kernel)⟩
theorem test_witness_ReachableStatesNeverStop :
    (offered 0x0500000000000000 treeAab).Inv := inv_treeAab
theorem test_witness_WhatHoldsInEveryReachableState :
    Engine.reset.Inv ∧ (treeAab.Inv ∧ treeAab.phase = .tree) ∧ (codedAab.Inv ∧ codedAab.phase = .coded) ∧
      (∃ f l r, nodeAt codedAab.node codedAab.root = some (.internal f l r)) ∧
      (codedSole.Inv ∧ codedSole.phase = .coded) ∧ ∃ sym f, nodeAt codedSole.node codedSole.root = some (.leaf sym f) :=
  ⟨inv_reset, ⟨inv_treeAab, rfl⟩, ⟨inv_codedAab, rfl⟩, ⟨3, 1, 0, rfl⟩, ⟨inv_codedSole, rfl⟩, ⟨97, 4, rfl⟩⟩
theorem test_witness_run_from_reset :
    ∃ t, Host.Core.run Sys2Proof.core 1 ({ State.reset with input := [.command 0x0800000000000000] } : State) = .next t := ⟨_, rfl⟩
theorem test_witness_StatusOfEveryCommandWord :
    (offered 0x0500000000000000 treeAab).Inv ∧
      (offered 0x0500000000000000 treeAab).input = .command 0x0500000000000000 :: [] ∧
      expectedStatus 0x0500000000000000 treeAab = .ok ∧ expectedStatus 0x0500000000000000 codedAab = .errState ∧
      expectedStatus 0x0400000000000000 .reset = .errEmpty ∧ expectedStatus 0x0400000100000000 treeAab = .errIllegal :=
  ⟨inv_treeAab, rfl, by decide +kernel, by decide +kernel, by decide +kernel, by decide +kernel⟩
theorem test_witness_PermissionTable :
    permitted (Instr.rdc 97).op treeAab.phase = false ∧ permitted (Instr.rdc 97).op codedAab.phase = true ∧
      (at_ codedAab).Inv ∧
      ∃ t, exec (.rdc 97) (at_ codedAab) = .next t ∧ t.responses = (at_ codedAab).responses ++ [⟨.ok, 0x103⟩] :=
  ⟨by decide +kernel, by decide +kernel, inv_codedAab, (at_ codedAab).respond .ok 0x103, eq_next (by decide +kernel), rfl⟩
theorem test_witness_ErrIllegalExactlyForIllegalWords :
    (Fields.ofWord 0x0B00000000000000).legal = false ∧ (Fields.ofWord 0x0800000000000000).legal = true ∧
      ∃ t, step (offered 0x0800000000000000 .reset) = .next t ∧
        t.responses = (offered 0x0800000000000000 .reset).responses ++ [⟨.ok, 8⟩] :=
  ⟨by decide, by decide, (at_ .reset).respond .ok 8, eq_next (by decide +kernel), rfl⟩
theorem test_witness_ErrorsChangeNothing :
    (offered 0x0500000000000000 codedAab).input = .command 0x0500000000000000 :: [] ∧
      ∃ t, step (offered 0x0500000000000000 codedAab) = .next t ∧
        t.responses = (offered 0x0500000000000000 codedAab).responses ++ [⟨.errState, 0⟩] :=
  ⟨rfl, (at_ codedAab).respond .errState 0, eq_next (by decide +kernel), rfl⟩
theorem test_witness_ErrEmptyExactlyWhenEveryCountIsZero :
    (at_ .reset).eng.phase = .load ∧ (∀ k : SymIdx, (at_ .reset).eng.ft[k] = 0) ∧
      nextOf (exec .build (at_ .reset)) = some ((at_ .reset).respond .errEmpty 0) := by decide +kernel
theorem test_witness_ReadsChangeNothingAndRepeat :
    ∃ t u, exec (.rdn 2) (at_ treeAab) = .next t ∧ exec (.rdn 2) t = .next u :=
  ⟨(at_ treeAab).respond .ok 0x300010003, ((at_ treeAab).respond .ok 0x300010003).respond .ok 0x300010003,
    eq_next (by decide +kernel), eq_next (by decide +kernel)⟩
theorem test_witness_WritingCommandsChangeOnlyWhatTheyWrite :
    (∃ t, exec (.ldf 126 9) (at_ loadAab) = .next t) ∧ (∃ t, exec .build (at_ loadAab) = .next t) ∧
      (∃ t, exec .gen (at_ treeAab) = .next t) ∧ (∃ t, exec .drst (at_ treeAab) = .next t) ∧
      ∃ t, exec (.dbit true) (at_ treeAab) = .next t :=
  ⟨exists_next (by decide +kernel), exists_next (by decide +kernel), exists_next (by decide +kernel),
    exists_next (by decide +kernel), exists_next (by decide +kernel)⟩
theorem test_witness_PhaseMachine :
    (∃ t, exec .build (at_ loadAab) = .next t) ∧ nextPhase .build loadAab = .tree ∧ nextPhase .build .reset = .load ∧
      nextPhase .gen treeAab = .coded ∧ nextPhase .clr codedAab = .load :=
  ⟨exists_next (by decide +kernel), by decide +kernel, by decide +kernel, by decide +kernel, by decide +kernel⟩
theorem test_witness_TreeAndTableAreImmutable :
    (at_ codedAab).eng.phase ≠ .load ∧ (at_ codedAab).eng.phase = .coded ∧ Instr.ldf 97 5 ≠ .clr ∧
      ∃ t, exec (.ldf 97 5) (at_ codedAab) = .next t :=
  ⟨by decide +kernel, by decide +kernel, by decide, exists_next (by decide +kernel)⟩
theorem test_witness_LdfOverwritesOneCount :
    (at_ loadAab).eng.phase = .load ∧ (126 : CharCode).toNat = (94 : SymIdx).val + 32 ∧
      (32 : CharCode).toNat = (0 : SymIdx).val + 32 := by decide
theorem test_witness_RdfAnswersTheCount :
    (126 : CharCode).toNat = (94 : SymIdx).val + 32 ∧ (31 : CharCode).toNat < 32 ∧ 126 < (127 : CharCode).toNat := by decide
theorem test_witness_LoadTableLoadsInAnyOrder :
    (∀ i : SymIdx, (freqAnalyze [98, 97])[i] < 2 ^ 32) ∧
      (∀ j, j ∈ [loadCommand (freqAnalyze [98, 97]) 66, loadCommand (freqAnalyze [98, 97]) 65] →
        ∃ i, j = loadCommand (freqAnalyze [98, 97]) i) ∧
      (∀ i : SymIdx, 0 < (freqAnalyze [98, 97])[i] → loadCommand (freqAnalyze [98, 97]) i ∈
        [loadCommand (freqAnalyze [98, 97]) 66, loadCommand (freqAnalyze [98, 97]) 65]) ∧
      ∃ i : SymIdx, 2 ^ 32 ≤ (Vector.replicate 95 (2 ^ 32))[i] :=
  ⟨by decide +kernel, by simp, by decide +kernel, 0, by simp⟩
theorem test_witness_BuildMakesATreeOfTheTable :
    (at_ loadAab).eng.phase = .load ∧ (at_ loadAab).eng.ft[(66 : SymIdx)] ≠ 0 := by decide +kernel
theorem test_witness_EachMergeTakesTheTwoLeastLiveNodes :
    (at_ loadAbra).eng.phase = .load ∧ (∃ t, exec .build (at_ loadAbra) = .next t) ∧ treeAbra.phase = .tree ∧
      leafCount loadAbra.ft ≤ 8 ∧ 8 < treeAbra.node.length :=
  ⟨rfl, exists_next (by decide +kernel), rfl, by decide +kernel, by decide⟩
/-- Another tie-break than the hardware's: the larger index first, the node removed first on the right. -/
def otherTie : TieRule := { before := fun i j => decide (j.toNat < i.toNat), firstLeft := fun _ => false }
theorem test_witness_TreeLawsHoldForEveryTieBreak :
    (buildTree otherTie loadAbra.ft).isSome = true ∧
      buildTree otherTie loadAbra.ft ≠ buildTree TieRule.hardware loadAbra.ft := by decide +kernel
theorem test_witness_TreesOfReachableStates :
    treeAab.Inv ∧ treeAab.phase ≠ .load := ⟨inv_treeAab, by decide⟩
theorem test_witness_RootHoldsTheTotalCount :
    (treeAab.Inv ∧ treeAab.phase ≠ .load) ∧ ∀ i : SymIdx, (freqAnalyze [97, 9, 98])[i] < 2 ^ 32 :=
  ⟨⟨inv_treeAab, by decide⟩, by decide +kernel⟩
theorem test_witness_NodeFrequenciesNeverOverflow :
    (buildTree otherTie (Vector.replicate 95 0xFFFFFFFF)).isSome = true ∧
      ((buildTree otherTie (Vector.replicate 95 0xFFFFFFFF)).bind (fun b => b.nodes[95]?)) =
        some (.internal 0x1FFFFFFFE 93 94) := by decide +kernel
theorem test_witness_RdnAnswersTheNodeRecord :
    (at_ treeAab).Inv ∧ (at_ treeAab).eng.phase ≠ .load ∧ (at_ treeAab).eng.nnodes.toNat ≤ (3 : NodeIdx).toNat ∧
      (2 : NodeIdx).toNat < (at_ treeAab).eng.nnodes.toNat ∧
      nodeAt treeAab.node 2 = some (.internal 3 1 0) ∧ nodeAt treeAab.node 0 = some (.leaf 97 2) :=
  ⟨inv_treeAab, by decide, by decide, by decide, rfl, rfl⟩
theorem test_witness_GenRecordsEveryLeafPath :
    ((at_ treeAab).Inv ∧ (at_ treeAab).eng.phase = .tree ∧ nodeAt treeAab.node treeAab.root = some (.internal 3 1 0)) ∧
      (at_ treeSole).Inv ∧ (at_ treeSole).eng.phase = .tree ∧ nodeAt treeSole.node treeSole.root = some (.leaf 97 4) :=
  ⟨⟨inv_treeAab, rfl, rfl⟩, inv_treeSole, rfl, rfl⟩
theorem test_witness_CodesExistExactlyForCountedSymbols :
    codedAab.Inv ∧ codedAab.phase = .coded ∧ codedAab.ct[(65 : SymIdx)] = some [true] :=
  ⟨inv_codedAab, rfl, by decide +kernel⟩
theorem test_witness_CodeLengthsAreBounded :
    (codedAab.Inv ∧ codedAab.phase = .coded ∧ codedAab.ct[(65 : SymIdx)] = some [true] ∧ 2 ≤ codedAab.nleaves.toNat) ∧
      codedSole.Inv ∧ codedSole.phase = .coded ∧ codedSole.ct[(65 : SymIdx)] = some [false] ∧
      codedSole.nleaves.toNat = 1 :=
  ⟨⟨inv_codedAab, rfl, by decide +kernel, by decide⟩, inv_codedSole, rfl, by decide +kernel, rfl⟩
theorem test_witness_CodesArePrefixFree :
    codedAab.Inv ∧ codedAab.phase = .coded ∧ (65 : SymIdx) ≠ 66 ∧ codedAab.ct[(65 : SymIdx)] = some [true] ∧
      codedAab.ct[(66 : SymIdx)] = some [false] :=
  ⟨inv_codedAab, rfl, by decide, by decide +kernel, by decide +kernel⟩
theorem test_witness_EncodedLengthIsTieIndependent :
    (buildTree TieRule.hardware loadAbra.ft).isSome = true ∧ (buildTree otherTie loadAbra.ft).isSome = true ∧
      2 ≤ leafCount loadAbra.ft ∧ leafCount treeSole.ft = 1 ∧ (buildTree otherTie treeSole.ft).isSome = true ∧
      (∀ i : SymIdx, (freqAnalyze [97, 97, 97, 97])[i] < 2 ^ 32) ∧ treeSole.ft = tableOf (freqAnalyze [97, 97, 97, 97]) := by
  decide +kernel
/-- A code of the greatest length, 94, beside one of length 1. -/
theorem test_witness_PackedCodesUnpack :
    1 ≤ (List.replicate 94 true).length ∧ (List.replicate 94 true).length ≤ 94 ∧ 1 ≤ [false].length ∧ [false].length ≤ 94 ∧
      (List.replicate 94 true)[93]? = some true ∧ pack (List.replicate 94 true) = pack (List.replicate 94 true) :=
  ⟨by simp, by simp, by simp, by simp, by simp, rfl⟩
theorem test_witness_RdcAnswersThePackedCode :
    (at_ codedAab).eng.phase = .coded ∧ (97 : CharCode).toNat = (65 : SymIdx).val + 32 ∧
      (at_ codedAab).eng.ct[(65 : SymIdx)] = some [true] ∧ (at_ codedAab).eng.ct[(94 : SymIdx)] = none ∧
      126 < (127 : CharCode).toNat ∧ (31 : CharCode).toNat < 32 := by decide +kernel
theorem test_witness_DrstPutsTheCursorAtTheRoot : (at_ { treeAbra with dcur := 7 }).eng.phase ≠ .load := by decide +kernel
theorem test_witness_DbitWalksOneBit :
    (({ treeAbra with dcur := 7 } : Engine).Inv ∧ treeAbra.phase ≠ .load ∧
      nodeAt treeAbra.node 7 = some (.internal 6 5 6) ∧ nodeAt treeAbra.node 6 = some (.internal 4 1 4)) ∧
      (treeAbra.Inv ∧ nodeAt treeAbra.node treeAbra.dcur = some (.internal 11 0 7) ∧
        nodeAt treeAbra.node 0 = some (.leaf 97 5)) ∧
      treeSole.Inv ∧ treeSole.phase ≠ .load ∧ nodeAt treeSole.node treeSole.dcur = some (.leaf 97 4) :=
  ⟨⟨inv_partialPath, by decide, rfl, rfl⟩, ⟨inv_treeAbra, rfl, rfl⟩, inv_treeSole, by decide, rfl⟩
theorem test_witness_SingleLeafDecodesEveryBit :
    (at_ treeSole).Inv ∧ (at_ treeSole).eng.phase ≠ .load ∧ (at_ treeSole).eng.nleaves = 1 :=
  ⟨inv_treeSole, by decide, rfl⟩
theorem test_witness_CursorRestsAtRootOrInternal :
    (Engine.reset.Inv ∧ Engine.reset.phase = .load) ∧ ({ treeAbra with dcur := 7 } : Engine).Inv ∧
      treeAbra.phase ≠ .load :=
  ⟨⟨inv_reset, rfl⟩, inv_partialPath, by decide⟩
theorem test_witness_DecodeRunsAsThePureFunction :
    ({ treeAbra with dcur := 7 } : Engine).Inv ∧ treeAbra.phase ≠ .load ∧
      decodeFrom treeAbra.node treeAbra.root treeAbra.root [false, true, true, false, true] = [97, 98] :=
  ⟨inv_partialPath, by decide, by decide +kernel⟩
theorem test_witness_EncodeRunsAsThePureFunction :
    codedAab.Inv ∧ codedAab.phase = .coded := ⟨inv_codedAab, rfl⟩
theorem test_witness_DecodeUndoesEncode :
    codedAab.Inv ∧ codedAab.phase = .coded ∧ (∀ o, o ∈ [97, 97, 98] → hasCode codedAab.ct o = true) ∧
      hasCode codedAab.ct 99 = false :=
  ⟨inv_codedAab, rfl, by decide +kernel, by decide +kernel⟩
theorem test_witness_EncodingsEndAtTheRoot :
    codedAab.Inv ∧ codedAab.phase = .coded ∧ codedAab.dcur = codedAab.root := ⟨inv_codedAab, rfl, rfl⟩
theorem test_witness_ConstructMakesACoderOrFails :
    (∀ i : SymIdx, (freqAnalyze [9, 10])[i] < 2 ^ 32) ∧ (∀ o, o ∈ [9, 10] → eligible o = false) ∧
      (∀ i : SymIdx, (freqAnalyze [126])[i] < 2 ^ 32) ∧ ∃ o, o ∈ [126] ∧ eligible o = true :=
  ⟨by decide +kernel, by decide, by decide +kernel, 126, by decide, by decide⟩
theorem count_spaces (n : Nat) (T : Vector Nat 95) :
    ((List.replicate n 32).foldl countChar T)[(0 : SymIdx)] = T[(0 : SymIdx)] + n := by
  induction n generalizing T with
  | zero => rfl
  | succ n ih =>
    rw [List.replicate_succ, List.foldl_cons, ih]
    simp [countChar]
    omega
theorem some_text_has_count (n : Nat) : ∃ (text : List Nat) (i : SymIdx), n ≤ (freqAnalyze text)[i] :=
  ⟨List.replicate n 32, 0, by rw [freqAnalyze, count_spaces]; omega⟩
/-- The first clause: a text of 2^32 spaces. -/
theorem test_witness_count_too_large : ∃ (text : List Nat) (i : SymIdx), 2 ^ 32 ≤ (freqAnalyze text)[i] :=
  some_text_has_count _
theorem test_witness_ConstructGeneratesOnlyAfterBuild :
    (treeAab.Inv ∧ treeAab.phase ≠ .load) ∧ (Engine.reset.Inv ∧ Engine.reset.phase = .load ∧ allZero Engine.reset.ft = true) ∧
      loadAab.Inv ∧ loadAab.phase = .load ∧ loadAab.ft[(66 : SymIdx)] ≠ 0 :=
  ⟨⟨inv_treeAab, by decide⟩, ⟨inv_reset, rfl, by decide +kernel⟩, by decide +kernel, rfl, by decide +kernel⟩
theorem test_witness_ConstructIsAFunctionOfTheTable : freqAnalyze [97, 98, 97] = freqAnalyze [98, 97, 97, 10] := by
  decide +kernel
theorem test_witness_TwoSymbolCodes :
    codedAab.Inv ∧ codedAab.phase = .coded ∧ (65 : SymIdx) < 66 ∧ codedAab.ft[(65 : SymIdx)] ≠ 0 ∧
      codedAab.ft[(66 : SymIdx)] ≠ 0 ∧ (∀ k : SymIdx, k ≠ 65 → k ≠ 66 → codedAab.ft[k] = 0) ∧
      codedAab.ft[(66 : SymIdx)].toNat < codedAab.ft[(65 : SymIdx)].toNat :=
  ⟨inv_codedAab, rfl, by decide, by decide +kernel, by decide +kernel, by decide +kernel, by decide +kernel⟩
/-- The other clause of `TwoSymbolCodes` at its boundary: equal counts (V-B3). -/
theorem test_witness_TwoSymbolCodes_equal :
    codedAb.Inv ∧ codedAb.ft[(65 : SymIdx)].toNat ≤ codedAb.ft[(66 : SymIdx)].toNat ∧
      codedAb.ct[(65 : SymIdx)] = some [false] :=
  ⟨inv_codedAb, by decide +kernel, by decide +kernel⟩

/-- Edges on which a command is presented, completed and its response taken. -/
def sampleEdges : List PinsIn :=
  [⟨false, true, 0x0800000000000000, false, false⟩, ⟨false, false, 0, false, true⟩, ⟨false, false, 0, true, false⟩]
theorem test_witness_PortDeliversTheRunOfTheWordsTaken :
    codedAab.Inv ∧ (∀ x, x ∈ sampleEdges → x.rst = false) ∧
      (PortState.run ⟨codedAab, .idle⟩ sampleEdges).delivered = [⟨.ok, 0x20203020A⟩] ∧
      (PortState.run ⟨codedAab, .idle⟩ sampleEdges).last.transfer = .idle ∧
      (PortState.run ⟨codedAab, .idle⟩ (sampleEdges.take 1)).last.transfer = .busy 0x0800000000000000 ∧
      (PortState.run ⟨codedAab, .idle⟩ (sampleEdges.take 2)).last.transfer = .answered ⟨.ok, 0x20203020A⟩ :=
  ⟨inv_codedAab, by decide, by decide +kernel, by decide +kernel, by decide +kernel, by decide +kernel⟩
/-- The least latency: the edge that takes RDS completes it, and the next edge delivers the response. -/
theorem test_latency_of_one_cycle :
    (PortState.run ⟨codedAab, .idle⟩
      [⟨false, true, 0x0800000000000000, false, true⟩, ⟨false, false, 0, true, false⟩]).delivered = [⟨.ok, 0x20203020A⟩] := by
  decide +kernel
theorem test_witness_PortAnswersAndHolds :
    codedAab.Inv ∧ (⟨false, false, 0, false, true⟩ : PinsIn).rst = false ∧
      (⟨false, false, 0, false, true⟩ : PinsIn).finish = true ∧
      (⟨false, false, 0, false, true⟩ : PinsIn).rspReady = false ∧
      (⟨false, true, 0, true, false⟩ : PinsIn).rst = false ∧ (⟨false, true, 0, true, false⟩ : PinsIn).finish = false ∧
      (⟨false, true, 0, true, false⟩ : PinsIn).cmdValid = true ∧ (⟨false, true, 0, true, false⟩ : PinsIn).rspReady = true :=
  ⟨inv_codedAab, rfl, rfl, rfl, rfl, rfl, rfl, rfl⟩
theorem test_witness_ResetAbandonsTheCommandInFlight : (⟨true, true, 0, true, true⟩ : PinsIn).rst = true := rfl

end Sys2Proof.Tests
end

section
/-! PROOFS. The reset values (10_state.md R35), reached by reset and by CLR. -/

namespace Sys2Proof.Machine

theorem Engine.reset_ft_get (i : SymIdx) : Engine.reset.ft[i] = 0 := by simp

theorem Engine.reset_ct_get (i : SymIdx) : Engine.reset.ct[i] = none := by simp

/-- The reset engine is at the root, both indices being 0, and no other field of STATUS is set (10_state.md R32, R35). -/
@[simp] theorem Engine.reset_statusWord : Engine.reset.statusWord = 8 := by decide

/-- CLR is permitted in every phase, clears the engine and answers OK with data 0 (44_control.md R150). -/
theorem exec_clr_eq (s : State) : exec .clr s = .next (s.clear.respond .ok 0) := rfl

/-- Settles O9: the reset engine read component by component, and CLR ends in `State.clear`, whose engine is that engine. -/
theorem resetValues : Obligations.ResetValues :=
  ⟨Engine.reset_phase, Engine.reset_ft_get, Engine.reset_nleaves, Engine.reset_nnodes, Engine.reset_root,
    Engine.reset_node, Engine.reset_ct_get, Engine.reset_dcur, Engine.reset_statusWord,
    fun s => ⟨s.clear.respond .ok 0, exec_clr_eq s, State.clear_eng s⟩⟩

end Sys2Proof.Machine
end

section
/-! PROOFS. Decoding is total (30_encoding.md R74, R75). Decoder, field table and opcode map meet in the FIELDS of a word: the
legal fields are the fields of an instruction, the decoder inverts `Instr.toFields`, and a row of the opcode map spells exactly
the words whose fields carry its opcode and are legal. -/

namespace Sys2Proof

/-! ## Opcodes (R71, R74) -/

@[simp] theorem Op.ofCode?_code (o : Op) : Op.ofCode? o.code = some o := by cases o <;> rfl

theorem Op.ofCode?_eq_some_iff {c : BitVec 8} {o : Op} : Op.ofCode? c = some o ↔ c = o.code := by
  constructor
  · intro h
    have hc : (o.code == c) = true := List.find?_some (p := fun o : Op => o.code == c) h
    exact (beq_iff_eq.mp hc).symm
  · rintro rfl
    exact o.ofCode?_code

@[simp] theorem Op.code_inj {o o' : Op} : o.code = o'.code ↔ o = o' := by
  rw [← Op.ofCode?_eq_some_iff, Op.ofCode?_code, Option.some.injEq]

/-! ## The legal fields are the fields of the instructions (R71) -/

theorem Instr.toFields_legal_op (i : Instr) : Laws.LegalFields.Statement i := by
  cases i with
  | clr => exact Laws.LegalFields.clr
  | ldf c count => exact Laws.LegalFields.ldf c count
  | rdf c => exact Laws.LegalFields.rdf c
  | build => exact Laws.LegalFields.build
  | gen => exact Laws.LegalFields.gen
  | rdn j => exact Laws.LegalFields.rdn j
  | rdc c => exact Laws.LegalFields.rdc c
  | rds => exact Laws.LegalFields.rds
  | drst => exact Laws.LegalFields.drst
  | dbit b => exact Laws.LegalFields.dbit b

@[simp] theorem Instr.toFields_legal (i : Instr) : i.toFields.legal = true := i.toFields_legal_op.1

@[simp] theorem Instr.toFields_op (i : Instr) : i.toFields.op = i.op.code := i.toFields_legal_op.2

/-- The checks of the field table, read for fields that carry the opcode of `o`. -/
theorem Fields.legal_iff_of_op {f : Fields} {o : Op} (h : f.op = o.code) :
    f.legal = true ↔ f.z = 0 ∧ f.a &&& ~~~o.freeA = 0 ∧ f.d &&& ~~~o.freeD = 0 := by
  simp [Fields.legal, Fields.opAssigned, Fields.zClear, Fields.aClear, Fields.dClear, h, and_assoc]

theorem Fields.exists_op_of_legal {f : Fields} (h : f.legal = true) : ∃ o : Op, f.op = o.code := by
  cases ho : Op.ofCode? f.op with
  | none => simp [Fields.legal, Fields.opAssigned, ho] at h
  | some o => exact ⟨o, Op.ofCode?_eq_some_iff.mp ho⟩

/-- A field that a command does not use at all is 0. -/
theorem eq_zero_of_and_not_zero {n : Nat} {x : BitVec n} (h : x &&& ~~~0 = 0) : x = 0 := by simpa using h

/-- A byte with no bit above bit 0 is the operand of DBIT that holds its bit 0. -/
theorem bitOperand_getLsbD_zero : ∀ a : BitVec 8, a.extractLsb' 1 7 = 0 → bitOperand (a.getLsbD 0) = a := by decide

/-- The bits of `A` that DBIT leaves free and the bits the decoder tests are complementary. -/
theorem extractLsb'_eq_zero_of_and_not_one : ∀ a : BitVec 8, a &&& ~~~0x01 = 0 → a.extractLsb' 1 7 = 0 := by decide

theorem Fields.exists_toFields_of_legal {f : Fields} (h : f.legal = true) : ∃ i : Instr, i.toFields = f := by
  obtain ⟨o, ho⟩ := Fields.exists_op_of_legal h
  obtain ⟨hz, ha, hd⟩ := (Fields.legal_iff_of_op ho).mp h
  obtain ⟨op, z, a, d⟩ := f
  simp only at ho hz ha hd
  subst ho hz
  cases o with
  | clr => exact ⟨.clr, by rw [eq_zero_of_and_not_zero ha, eq_zero_of_and_not_zero hd]; rfl⟩
  | ldf => exact ⟨.ldf a d, rfl⟩
  | rdf => exact ⟨.rdf a, by rw [eq_zero_of_and_not_zero hd]; rfl⟩
  | build => exact ⟨.build, by rw [eq_zero_of_and_not_zero ha, eq_zero_of_and_not_zero hd]; rfl⟩
  | gen => exact ⟨.gen, by rw [eq_zero_of_and_not_zero ha, eq_zero_of_and_not_zero hd]; rfl⟩
  | rdn => exact ⟨.rdn a, by rw [eq_zero_of_and_not_zero hd]; rfl⟩
  | rdc => exact ⟨.rdc a, by rw [eq_zero_of_and_not_zero hd]; rfl⟩
  | rds => exact ⟨.rds, by rw [eq_zero_of_and_not_zero ha, eq_zero_of_and_not_zero hd]; rfl⟩
  | drst => exact ⟨.drst, by rw [eq_zero_of_and_not_zero ha, eq_zero_of_and_not_zero hd]; rfl⟩
  | dbit =>
    have hb := bitOperand_getLsbD_zero a (extractLsb'_eq_zero_of_and_not_one a ha)
    exact ⟨.dbit (a.getLsbD 0), by rw [Instr.toFields, hb, eq_zero_of_and_not_zero hd]; rfl⟩

/-! ## The decoder inverts the encoder (R75) -/

theorem needsNoD_eq_ok_iff {op : BitVec 8} {z : BitVec 16} {a : BitVec 8} {d : BitVec 32} {i j : Instr} :
    needsNoD ⟨op, z, a, d⟩ i = .ok j ↔ d = 0 ∧ i = j := by
  unfold needsNoD
  split
  next hd => simp [show d = 0 from hd]
  next hd => exact ⟨nofun, fun h => absurd h.1 hd⟩

theorem needsNoOperand_eq_ok_iff {op : BitVec 8} {z : BitVec 16} {a : BitVec 8} {d : BitVec 32} {i j : Instr} :
    needsNoOperand ⟨op, z, a, d⟩ i = .ok j ↔ a = 0 ∧ d = 0 ∧ i = j := by
  unfold needsNoOperand
  split
  next ha => simp [show a = 0 from ha, needsNoD_eq_ok_iff]
  next ha => exact ⟨nofun, fun h => absurd h.1 ha⟩

theorem decodeFields_toFields (i : Instr) : decodeFields i.toFields = .ok i := by
  cases i with
  | dbit b => cases b <;> rfl
  | _ => rfl

theorem toFields_of_decodeFields {f : Fields} {i : Instr} (h : decodeFields f = .ok i) : i.toFields = f := by
  obtain ⟨op, z, a, d⟩ := f
  unfold decodeFields at h
  split at h
  next hz =>
    obtain rfl : z = 0 := hz
    dsimp only at h
    split at h
    case h_1 | h_4 | h_5 | h_8 | h_9 => obtain ⟨rfl, rfl, rfl⟩ := needsNoOperand_eq_ok_iff.mp h; rfl
    case h_2 => cases h; rfl
    case h_3 | h_6 | h_7 => obtain ⟨rfl, rfl⟩ := needsNoD_eq_ok_iff.mp h; rfl
    case h_10 =>
      split at h
      next ha =>
        obtain ⟨rfl, rfl⟩ := needsNoD_eq_ok_iff.mp h
        rw [Instr.toFields, bitOperand_getLsbD_zero a ha]
        rfl
      next => cases h
    case h_11 => cases h
  next => cases h

theorem decodeFields_eq_ok_iff {f : Fields} {i : Instr} : decodeFields f = .ok i ↔ i.toFields = f :=
  ⟨toFields_of_decodeFields, fun h => h ▸ decodeFields_toFields i⟩

theorem encode_eq_iff {w : CommandWord} {i : Instr} : encode i = w ↔ i.toFields = Fields.ofWord w :=
  ⟨fun h => by rw [← h, encode, Fields.ofWord_toWord], fun h => by rw [encode, h, Fields.toWord_ofWord]⟩

theorem decode_eq_ok_iff {w : CommandWord} {i : Instr} : decode w = .ok i ↔ encode i = w := by
  rw [decode, decodeFields_eq_ok_iff, encode_eq_iff]

/-! ## The opcode map (R74) -/

/-- The row of the opcode map for `o`, made from the field table: the mask leaves out the bits the command leaves free. -/
def Op.row (o : Op) : OpcodeRow :=
  { op := o
    pattern := Fields.toWord ⟨o.code, 0, 0, 0⟩
    mask := Fields.toWord ⟨0xFF, 0xFFFF, ~~~o.freeA, ~~~o.freeD⟩ }

theorem opcodeTable_eq_map_row : opcodeTable = Op.all.map Op.row := by decide

/-- Matching a word against a pattern under a mask is matching its fields. -/
theorem Fields.and_toWord_eq_toWord_iff {w : CommandWord} {m p : Fields} :
    w &&& m.toWord = p.toWord ↔
      (ofWord w).op &&& m.op = p.op ∧ (ofWord w).z &&& m.z = p.z ∧ (ofWord w).a &&& m.a = p.a ∧
        (ofWord w).d &&& m.d = p.d := by
  have hand : ofWord (w &&& m.toWord) =
      ⟨(ofWord w).op &&& m.op, (ofWord w).z &&& m.z, (ofWord w).a &&& m.a, (ofWord w).d &&& m.d⟩ := by
    conv_rhs => rw [← ofWord_toWord m]
    simp [ofWord, BitVec.extractLsb'_and]
  rw [← (Function.LeftInverse.injective toWord_ofWord).eq_iff, hand, ofWord_toWord]
  cases p
  simp

theorem Op.row_spells_iff_fields {o : Op} {w : CommandWord} :
    o.row.spells w = true ↔ (Fields.ofWord w).op = o.code ∧ (Fields.ofWord w).legal = true := by
  have h8 (x : BitVec 8) : x &&& 0xFF = x := BitVec.and_allOnes
  have h16 (x : BitVec 16) : x &&& 0xFFFF = x := BitVec.and_allOnes
  rw [OpcodeRow.spells, beq_iff_eq, Op.row, Fields.and_toWord_eq_toWord_iff, h8, h16]
  exact and_congr_right fun hop => (Fields.legal_iff_of_op hop).symm

/-- A row of the map spells the words of its command's instructions. -/
theorem Op.row_spells_iff {o : Op} {w : CommandWord} : o.row.spells w = true ↔ ∃ i, decode w = .ok i ∧ i.op = o := by
  simp only [Op.row_spells_iff_fields, decode, decodeFields_eq_ok_iff]
  constructor
  · rintro ⟨hop, hlegal⟩
    obtain ⟨i, hi⟩ := Fields.exists_toFields_of_legal hlegal
    exact ⟨i, hi, Op.code_inj.mp (by rw [← hop, ← hi, Instr.toFields_op])⟩
  · rintro ⟨i, hi, rfl⟩
    simp [← hi]

theorem filter_spells_eq_nil {w : CommandWord} {r : Illegal} (h : decode w = .error r) :
    opcodeTable.filter (fun r => r.spells w) = [] := by
  rw [opcodeTable_eq_map_row, List.filter_eq_nil_iff, List.forall_mem_map]
  intro o _ hs
  obtain ⟨i, hi, -⟩ := Op.row_spells_iff.mp hs
  simp [h] at hi

theorem Op.all_filter_eq (o : Op) : Op.all.filter (fun o' => decide (o = o')) = [o] := by cases o <;> rfl

theorem filter_spells_map_op {w : CommandWord} {i : Instr} (h : decode w = .ok i) :
    (opcodeTable.filter (fun r => r.spells w)).map (fun r => r.op) = [i.op] := by
  have hrow (o : Op) : o.row.spells w = decide (i.op = o) := by
    rw [Bool.eq_iff_iff, Op.row_spells_iff, h]
    simp
  calc (opcodeTable.filter (fun r => r.spells w)).map (fun r => r.op)
      = Op.all.filter (fun o => o.row.spells w) := by
        simp [opcodeTable_eq_map_row, List.filter_map, Function.comp_def, Op.row]
    _ = Op.all.filter (fun o => decide (i.op = o)) := by simp only [hrow]
    _ = [i.op] := i.op.all_filter_eq

namespace Machine

theorem step_illegal_word {w : CommandWord} {r : Illegal} (h : decode w = .error r) {s : State} {rest : List HostEvent}
    (hs : s.input = .command w :: rest) : step s = .next (State.respond .errIllegal 0 { s with input := rest }) := by
  simp [step, hs, fetch, h]

/-- Settles O2: the decoder either inverts the encoder on the word, and then the command's own row alone spells it, or it
rejects the word, and then no row spells it and a step answers ERR_ILLEGAL and nothing else. -/
theorem everyWordSpellsOneCommandOrIsIllegal : Obligations.EveryWordSpellsOneCommandOrIsIllegal := by
  intro w
  cases h : decode w with
  | ok i => exact .inl ⟨i, rfl, decode_eq_ok_iff.mp h, filter_spells_map_op h⟩
  | error r => exact .inr ⟨by simp, filter_spells_eq_nil h, fun s rest => step_illegal_word h⟩

end Machine

end Sys2Proof
end

section
/-! PROOFS. The host's frequency analysis (40_frequency_table.md R96): what one character does to one count and to the sum of
the counts, then the same for a text by induction on its characters. -/

namespace Sys2Proof.Machine

/-- Entry `i` of a table after one character: one more exactly where the character is the ordinal of `i`. -/
theorem countChar_get (T : Vector Nat 95) (o : Nat) (i : SymIdx) :
    (countChar T o)[i] = T[i] + if o = i.val + 32 then 1 else 0 := by
  unfold countChar
  split
  next ho =>
    by_cases hi : o - 32 = i.val
    · simp [show o = i.val + 32 by omega]
    · simp [hi, show o ≠ i.val + 32 by omega]
  next ho => simp [show o ≠ i.val + 32 by omega]

/-- Raising entry `i` of a table by one raises its sum by one. -/
theorem sum_set_succ (T : Vector Nat 95) (i : SymIdx) : (T.set i (T[i] + 1)).toList.sum = T.toList.sum + 1 := by
  have hi : i.val < T.toList.length := by simp
  have hsplit : T.toList.sum = (T.toList.take i).sum + T[i] + (T.toList.drop (i + 1)).sum := by
    rw [← List.sum_take_add_sum_drop T.toList i, List.drop_eq_getElem_cons hi, List.sum_cons, ← Nat.add_assoc]
    simp
  rw [Vector.toList_set, List.sum_set, if_pos hi, hsplit]
  omega

/-- The sum of a table after one character: one more exactly where the character is eligible. -/
theorem countChar_sum (T : Vector Nat 95) (o : Nat) :
    (countChar T o).toList.sum = T.toList.sum + if eligible o then 1 else 0 := by
  unfold countChar
  split
  next ho =>
    rw [if_pos (by simpa [eligible] using ho)]
    exact sum_set_succ T ⟨o - 32, by omega⟩
  next ho => rw [if_neg (by simpa [eligible] using ho), Nat.add_zero]

theorem foldl_countChar_get (text : List Nat) (T : Vector Nat 95) (i : SymIdx) :
    (text.foldl countChar T)[i] = T[i] + text.count (i.val + 32) := by
  induction text generalizing T with
  | nil => simp
  | cons o text ih =>
    rw [List.foldl_cons, ih, countChar_get, List.count_cons]
    simp only [beq_iff_eq]
    omega

theorem foldl_countChar_sum (text : List Nat) (T : Vector Nat 95) :
    (text.foldl countChar T).toList.sum = T.toList.sum + (text.filter eligible).length := by
  induction text generalizing T with
  | nil => simp
  | cons o text ih =>
    rw [List.foldl_cons, ih, countChar_sum, List.filter_cons]
    split
    · rw [List.length_cons]; omega
    · rfl

/-- FreqAnalyze counts the positions that hold an ordinal of the alphabet. -/
@[simp] theorem freqAnalyze_get (text : List Nat) (i : SymIdx) : (freqAnalyze text)[i] = text.count (i.val + 32) := by
  rw [freqAnalyze, foldl_countChar_get]
  simp

/-- The counts of a text add up to the number of its eligible characters. -/
theorem freqAnalyze_sum (text : List Nat) : (freqAnalyze text).toList.sum = (text.filter eligible).length := by
  rw [freqAnalyze, foldl_countChar_sum]
  simp

/-- Settles O27: each character adds one to the entry of its ordinal, and to the sum where it is eligible; the table starts
all zero. -/
theorem freqAnalyzeCountsPositions : Obligations.FreqAnalyzeCountsPositions :=
  ⟨freqAnalyze_get, freqAnalyze_sum, rfl⟩

end Sys2Proof.Machine
end

section
/-! PROOFS. Loading a table (40_frequency_table.md R97). A load makes one entry that of the table and leaves the others, so a
list of loads ends with the table as soon as every entry is either right at the start or loaded by some command of the list. -/

namespace Sys2Proof.Machine

@[simp] theorem fetch_encode (i : Instr) : fetch (encode i) = some i :=
  (fetch_eq_some_iff _ _).mpr (decode_eq_ok_iff.mpr rfl)

/-- The host's answer to a command is the engine and the one response that its execution ends with. -/
theorem Engine.issue_eq_of_exec {e : Engine} {i : Instr} {t : State} {r : Response}
    (h : exec i { eng := e, input := [], responses := [] } = .next t) (hr : t.responses = [r]) :
    e.issue i = some (t.eng, r) := by
  simp [Engine.issue, Engine.answer, step, h, hr]

/-- In phase LOAD an LDF with an ordinal of the alphabet writes its count and answers OK (R90). -/
theorem exec_ldf_of_symIndex {s : State} {c : CharCode} {i : SymIdx} (hs : s.eng.phase = .load) (hc : symIndex c = some i)
    (count : Count) : exec (.ldf c count) s = .next ((s.setFt i count).respond .ok 0) := by
  simp [exec, execLdf, hs, hc]

theorem tableOf_get (T : Vector Nat 95) (i : SymIdx) : (tableOf T)[i] = BitVec.ofNat 32 T[i] := by simp [tableOf]

theorem loadCommand_injective (T : Vector Nat 95) : Function.Injective (loadCommand T) := fun _ _ h =>
  ordinalOf_injective (Instr.ldf.inj h).1

theorem Engine.issue_loadCommand (T : Vector Nat 95) (i : SymIdx) {e : Engine} (he : e.phase = .load) :
    e.issue (loadCommand T i) = some ({ e with ft := e.ft.set i (tableOf T)[i] }, ⟨.ok, 0⟩) := by
  rw [tableOf_get]
  exact Engine.issue_eq_of_exec (exec_ldf_of_symIndex he (symIndex_ordinalOf i) _) rfl

/-- Loads of the table leave the table where each of its entries stands in FT already or is still to be loaded. -/
theorem Engine.issueAll_loads (T : Vector Nat 95) {loads : List Instr} (hloads : ∀ j ∈ loads, ∃ i, j = loadCommand T i)
    {e : Engine} (he : e.phase = .load)
    (hcover : ∀ i : SymIdx, e.ft[i] = (tableOf T)[i] ∨ loadCommand T i ∈ loads) :
    Engine.issueAll loads e = some { e with ft := tableOf T } := by
  induction loads generalizing e with
  | nil =>
    have hft : e.ft = tableOf T := Vector.ext fun i hi => by simpa using hcover ⟨i, hi⟩
    rw [← hft]
    rfl
  | cons j loads ih =>
    obtain ⟨⟨i, rfl⟩, htail⟩ := List.forall_mem_cons.mp hloads
    rw [Engine.issueAll, Engine.issue_loadCommand T i he, Option.bind_some]
    refine ih htail he fun k => ?_
    have hget : (e.ft.set i (tableOf T)[i])[k] = if i = k then (tableOf T)[i] else e.ft[k] := setFt_get i k _ ⟨e, [], []⟩
    by_cases hk : i = k
    · subst hk
      exact .inl (hget.trans (if_pos rfl))
    · have hne : loadCommand T k ≠ loadCommand T i := fun h => hk (loadCommand_injective T h).symm
      exact (hcover k).imp (hget.trans (if_neg hk)).trans (List.mem_of_ne_of_mem hne)

/-- From reset the zeros of the table stand in FT already, so loads of its non-zero counts suffice. -/
theorem Engine.issueAll_loads_reset (T : Vector Nat 95) {loads : List Instr}
    (hloads : ∀ j ∈ loads, ∃ i, j = loadCommand T i) (hcover : ∀ i : SymIdx, 0 < T[i] → loadCommand T i ∈ loads) :
    Engine.issueAll loads .reset = some { Engine.reset with ft := tableOf T } := by
  refine Engine.issueAll_loads T hloads Engine.reset_phase fun i => ?_
  rcases Nat.eq_zero_or_pos T[i] with hzero | hpos
  · exact .inl (by rw [Engine.reset_ft_get, tableOf_get, hzero]; rfl)
  · exact .inr (hcover i hpos)

theorem loadTable_eq_some {T : Vector Nat 95} (h : ∀ i : SymIdx, T[i] < 2 ^ 32) :
    loadTable T = some (((List.finRange 95).filter (fun i => decide (0 < T[i]))).map (loadCommand T)) := if_pos h

theorem loadTable_eq_none {T : Vector Nat 95} {i : SymIdx} (hi : 2 ^ 32 ≤ T[i]) : loadTable T = none :=
  if_neg fun hfits => Nat.not_lt.mpr hi (hfits i)

/-- LoadTable of a table that fits, run from reset, leaves the table in FT. -/
theorem exists_loadTable_issueAll {T : Vector Nat 95} (h : ∀ i : SymIdx, T[i] < 2 ^ 32) :
    ∃ loads, loadTable T = some loads ∧ Engine.issueAll loads .reset = some { Engine.reset with ft := tableOf T } := by
  refine ⟨_, loadTable_eq_some h, Engine.issueAll_loads_reset T ?_ fun i hi => ?_⟩
  · exact List.forall_mem_map.mpr fun i _ => ⟨i, rfl⟩
  · exact List.mem_map_of_mem (by simpa using hi)

/-- Settles O28: any loads that cover the non-zero counts complete the all-zero table of the reset state, by induction on the
loads; the list of LoadTable covers them. -/
theorem loadTableLoadsInAnyOrder : Obligations.LoadTableLoadsInAnyOrder := fun T =>
  ⟨fun hfits => ⟨fun _ hloads hcover => Engine.issueAll_loads_reset T hloads hcover, exists_loadTable_issueAll hfits⟩,
    fun ⟨_, hi⟩ => loadTable_eq_none hi⟩

end Sys2Proof.Machine
end

section
/-! PROOFS. The merge loop of BUILD (41_tree_builder.md R100 to R106) under any tie-break: removing a minimum by a key, the
induction over the rounds of the loop, and what the live set is in every round. -/

namespace Sys2Proof.Machine

open Sys2Proof.Config (TieRule)

/-! ## Removing a minimum (R104) -/

/-- The comparison of the tie-break `t` agrees with the order of `key`. -/
def OrderedBy {κ : Type} [LE κ] (t : TieRule) (key : QEntry → κ) : Prop :=
  ∀ a b, if keyLess t a b then key a ≤ key b else key b ≤ key a

/-- The entry removed has the least key of the live set. -/
theorem takeMin_key_le {κ : Type} [Preorder κ] {t : TieRule} {key : QEntry → κ} (ht : OrderedBy t key) (e : QEntry)
    (es : List QEntry) : ∀ x ∈ e :: es, key (takeMin t e es).1 ≤ key x := by
  induction es generalizing e with
  | nil => simp [takeMin]
  | cons y ys ih =>
    have hey := ht y e
    simp only [List.forall_mem_cons] at ih ⊢
    unfold takeMin
    split at hey
    next hlt =>
      obtain ⟨hy, hys⟩ := ih y
      rw [if_pos hlt]
      exact ⟨hy.trans hey, hy, hys⟩
    next hge =>
      obtain ⟨he, hys⟩ := ih e
      rw [if_neg hge]
      exact ⟨he, he.trans hey, hys⟩

/-! ## Induction over the rounds (R105) -/

/-- A property of the arena and the live set, read as a set, that every round keeps: a round removes `a`, which has a least key,
then `b`, which has a least key of the others, and makes their parent. -/
structure KeptByMerges {κ : Type} [LE κ] (t : TieRule) (key : QEntry → κ) (P : List Node → List QEntry → Prop) : Prop where
  perm {nodes : List Node} {q q' : List QEntry} : q.Perm q' → P nodes q → P nodes q'
  merge {nodes : List Node} {a b : QEntry} {rest : List QEntry} :
    (∀ x ∈ b :: rest, key a ≤ key x) → (∀ x ∈ rest, key b ≤ key x) → P nodes (a :: b :: rest) →
      P (nodes ++ [mergeNode t (BitVec.ofNat 8 nodes.length) a b])
        (⟨a.freq + b.freq, BitVec.ofNat 8 nodes.length⟩ :: rest)

/-- What every round keeps holds at the end of the loop, with the root alone in the live set. -/
theorem mergeLoop_induction {κ : Type} [Preorder κ] {t : TieRule} {key : QEntry → κ} (ht : OrderedBy t key)
    {P : List Node → List QEntry → Prop} (keeps : KeptByMerges t key P)
    (fuel : Nat) {nodes : List Node} {e : QEntry} {es : List QEntry} (hfuel : es.length < fuel) (hP : P nodes (e :: es)) :
    ∃ last, last.idx = (mergeLoop t fuel nodes e es).root ∧ P (mergeLoop t fuel nodes e es).nodes [last] := by
  induction fuel generalizing nodes e es with
  | zero => omega
  | succ fuel ih =>
    have hperm := takeMin_perm t e es
    have hlen := takeMin_length t e es
    cases hq : (takeMin t e es).2 with
    | nil =>
      rw [mergeLoop_last t fuel nodes hq]
      exact ⟨_, rfl, keeps.perm (hq ▸ hperm.symm) hP⟩
    | cons q qs =>
      rw [hq] at hperm hlen
      have hperm' := takeMin_perm t q qs
      have hlen' := takeMin_length t q qs
      rw [mergeLoop_round t fuel nodes hq]
      refine ih (by simp only [List.length_cons] at hlen; omega) (keeps.merge (fun x hx => ?_) (fun x hx => ?_)
        (keeps.perm (hperm.symm.trans (hperm'.symm.cons _)) hP))
      · exact takeMin_key_le ht e es x (hperm.subset (List.mem_cons_of_mem _ (hperm'.subset hx)))
      · exact takeMin_key_le ht q qs x (hperm'.subset (List.mem_cons_of_mem _ hx))

/-! ## The leaves (R102, R103) -/

theorem leavesOf_length (ft : Vector Count 95) : (leavesOf ft).length = leafCount ft := by
  rw [leavesOf, leafCount, List.length_filterMap_eq_countP, ← List.countP_eq_length_filter]
  refine List.countP_congr fun i _ => ?_
  by_cases h : ft[i] = 0 <;> simp_all [leafOf]

theorem leafCount_le (ft : Vector Count 95) : leafCount ft ≤ 95 :=
  (List.length_filter_le _ _).trans_eq List.length_finRange

theorem leavesOf_length_le (ft : Vector Count 95) : (leavesOf ft).length ≤ 95 := leavesOf_length ft ▸ leafCount_le ft

theorem initialQueue_length (leaves : List Node) : (initialQueue leaves).length = leaves.length := by simp [initialQueue]

/-- What holds of the leaves and is kept by every round holds of a finished tree. -/
theorem buildTree_induction {κ : Type} [Preorder κ] {t : TieRule} {key : QEntry → κ} (ht : OrderedBy t key)
    {P : List Node → List QEntry → Prop} (keeps : KeptByMerges t key P)
    {ft : Vector Count 95} {b : Built} (hb : buildTree t ft = some b) (hP : P (leavesOf ft) (initialQueue (leavesOf ft))) :
    ∃ last, last.idx = b.root ∧ P b.nodes [last] := by
  have hlen := initialQueue_length (leavesOf ft)
  unfold buildTree at hb
  split at hb
  · cases hb
  next e es hq =>
    cases hb
    rw [hq] at hP hlen
    exact mergeLoop_induction ht keeps _ (by rw [← hlen, List.length_cons]; omega) hP

/-! ## The children of a node -/

/-- Node `k` is a child. -/
def Node.HasChild (k : Nat) : Node → Prop
  | .leaf _ _ => False
  | .internal _ l r => l.toNat = k ∨ r.toNat = k

theorem mergeNode_hasChild {t : TieRule} {n : NodeIdx} {a b : QEntry} {k : Nat} :
    (mergeNode t n a b).HasChild k ↔ k = a.idx.toNat ∨ k = b.idx.toNat := by
  unfold mergeNode
  split
  · simp [Node.HasChild, eq_comm]
  · simp [Node.HasChild, eq_comm, or_comm]

theorem mergeNode_freq (t : TieRule) (n : NodeIdx) (a b : QEntry) : (mergeNode t n a b).freq = a.freq + b.freq := by
  unfold mergeNode
  split <;> rfl

/-- At the end of the arena a node is live when it exists and is no node's child. -/
theorem liveBefore_length_iff {nodes : List Node} {k : Nat} :
    LiveBefore nodes nodes.length k ↔ k < nodes.length ∧ ∀ x ∈ nodes, ¬ x.HasChild k := by
  refine and_congr_right fun _ => ⟨fun h x hx => ?_, fun h j f l r _ hj => ?_⟩
  · obtain ⟨j, hj, rfl⟩ := List.mem_iff_getElem.mp hx
    cases hn : nodes[j] with
    | leaf => exact id
    | internal f l r =>
      obtain ⟨hl, hr⟩ := h j f l r hj (List.getElem?_eq_some_iff.mpr ⟨hj, hn⟩)
      exact not_or.mpr ⟨hl, hr⟩
  · exact not_or.mp (h _ (List.mem_of_getElem? hj))

/-- Nodes that come later do not change which nodes are live. -/
theorem liveBefore_append {nodes more : List Node} {n k : Nat} (hn : n ≤ nodes.length) :
    LiveBefore (nodes ++ more) n k ↔ LiveBefore nodes n k := by
  have hget {j : Nat} (hj : j < n) : (nodes ++ more)[j]? = nodes[j]? := List.getElem?_append_left (by omega)
  exact and_congr_right fun _ =>
    ⟨fun h j f l r hj => hget hj ▸ h j f l r hj, fun h j f l r hj => (hget hj).symm ▸ h j f l r hj⟩

theorem freqAt_append {nodes : List Node} (more : List Node) {k : Nat} (hk : k < nodes.length) :
    freqAt (nodes ++ more) k = freqAt nodes k := by
  rw [freqAt, freqAt, List.getElem?_append_left hk]

theorem freqAt_of_getElem? {nodes : List Node} {k : Nat} {x : Node} (h : nodes[k]? = some x) :
    freqAt nodes k = x.freq.toNat := by
  simp [freqAt, h]

/-- The new node of a merge has the sum of the two frequencies. -/
theorem freqAt_merge (t : TieRule) (nodes : List Node) (n : NodeIdx) (a b : QEntry) :
    freqAt (nodes ++ [mergeNode t n a b]) nodes.length = (a.freq + b.freq).toNat := by
  rw [freqAt_of_getElem? List.getElem?_concat_length, mergeNode_freq]

/-! ## What the live set is -/

theorem QEntry.eq_of_toNat {x y : QEntry} (hfreq : x.freq.toNat = y.freq.toNat) (hidx : x.idx.toNat = y.idx.toNat) :
    x = y := by
  cases x
  cases y
  exact congr (congrArg _ (BitVec.eq_of_toNat_eq hfreq)) (BitVec.eq_of_toNat_eq hidx)

/-- The list `q` is the live set of the arena `nodes`: each live node once, with its frequency. The frequencies add up to the
total of the table, the children of every node exist, and each merge takes one from the live set and adds one to the arena. -/
structure LiveSet (ft : Vector Count 95) (nodes : List Node) (q : List QEntry) : Prop where
  idx_nodup : (q.map QEntry.idx).Nodup
  mem_iff : ∀ x, x ∈ q ↔ LiveBefore nodes nodes.length x.idx.toNat ∧ x.freq.toNat = freqAt nodes x.idx.toNat
  child_lt : ∀ x ∈ nodes, ∀ k, x.HasChild k → k < nodes.length
  size : nodes.length + q.length = 2 * leafCount ft
  total : (q.map (fun x => x.freq.toNat)).sum = totalCount ft

theorem LiveSet.perm {ft : Vector Count 95} {nodes : List Node} {q q' : List QEntry} (hqq : q.Perm q')
    (h : LiveSet ft nodes q) : LiveSet ft nodes q' where
  idx_nodup := (hqq.map _).nodup_iff.mp h.idx_nodup
  mem_iff x := hqq.mem_iff.symm.trans (h.mem_iff x)
  child_lt := h.child_lt
  size := hqq.length_eq ▸ h.size
  total := (hqq.map _).sum_nat ▸ h.total

/-! ### At the start -/

theorem not_hasChild_of_mem_leavesOf {ft : Vector Count 95} {x : Node} (hx : x ∈ leavesOf ft) (k : Nat) : ¬ x.HasChild k := by
  obtain ⟨i, -, hi⟩ := List.mem_filterMap.mp hx
  unfold leafOf at hi
  split at hi
  · cases hi
  · cases hi
    exact id

theorem sum_filterMap_leafOf (ft : Vector Count 95) (is : List SymIdx) :
    ((is.filterMap (leafOf ft)).map (fun x => x.freq.toNat)).sum = (is.map (fun i => ft[i].toNat)).sum := by
  induction is with
  | nil => rfl
  | cons i is ih =>
    by_cases h : ft[i] = 0
    · rw [List.filterMap_cons_none (by simp [leafOf, h]), ih, List.map_cons, h]
      simp
    · have hfit : ft[i].toNat % 2 ^ 39 = ft[i].toNat := Nat.mod_eq_of_lt (by have := ft[i].isLt; omega)
      rw [List.filterMap_cons_some (by simp only [leafOf, if_neg h]; rfl), List.map_cons, List.map_cons, List.sum_cons,
        List.sum_cons, ih]
      simp only [Node.freq, BitVec.toNat_setWidth, hfit]

theorem totalCount_le (ft : Vector Count 95) : totalCount ft ≤ 95 * (2 ^ 32 - 1) := by
  have h := List.sum_le_card_nsmul ((List.finRange 95).map (fun i : SymIdx => ft[i].toNat)) (2 ^ 32 - 1) (by
    intro c hc
    obtain ⟨i, -, rfl⟩ := List.mem_map.mp hc
    have := ft[i].isLt
    omega)
  simpa [totalCount] using h

theorem initialQueue_map_idx (leaves : List Node) :
    (initialQueue leaves).map QEntry.idx = (List.range leaves.length).map (BitVec.ofNat 8) := by
  rw [initialQueue, List.map_map, List.range_eq_range', ← List.zipIdx_map_snd 0 leaves, List.map_map]
  rfl

theorem initialQueue_map_freq (leaves : List Node) :
    (initialQueue leaves).map (fun x => x.freq.toNat) = leaves.map (fun x => x.freq.toNat) := by
  conv_rhs => rw [← List.zipIdx_map_fst 0 leaves, List.map_map]
  rw [initialQueue, List.map_map]
  rfl

theorem mem_initialQueue_iff {leaves : List Node} (hlen : leaves.length ≤ 256) {x : QEntry} :
    x ∈ initialQueue leaves ↔ x.idx.toNat < leaves.length ∧ x.freq.toNat = freqAt leaves x.idx.toNat := by
  obtain ⟨freq, idx⟩ := x
  simp only [initialQueue, List.mem_map, Prod.exists, List.mem_zipIdx_iff_getElem?, QEntry.mk.injEq]
  constructor
  · rintro ⟨y, i, hi, rfl, rfl⟩
    have hlt : i < leaves.length := (List.getElem?_eq_some_iff.mp hi).1
    rw [BitVec.toNat_ofNat, Nat.mod_eq_of_lt (by omega)]
    exact ⟨hlt, (freqAt_of_getElem? hi).symm⟩
  · rintro ⟨hlt, hfreq⟩
    have hget := List.getElem?_eq_getElem hlt
    rw [freqAt_of_getElem? hget] at hfreq
    exact ⟨_, _, hget, (BitVec.eq_of_toNat_eq hfreq).symm, by simp⟩

theorem LiveSet.initial (ft : Vector Count 95) : LiveSet ft (leavesOf ft) (initialQueue (leavesOf ft)) where
  idx_nodup := by
    have hlen := leavesOf_length_le ft
    rw [initialQueue_map_idx]
    refine List.nodup_range.map_on fun i hi j hj hij => ?_
    have hmod := congrArg BitVec.toNat hij
    simp only [BitVec.toNat_ofNat, List.mem_range] at hmod hi hj
    omega
  mem_iff x := by
    have hlen := leavesOf_length_le ft
    rw [mem_initialQueue_iff (by omega), liveBefore_length_iff,
      and_iff_left fun y hy => not_hasChild_of_mem_leavesOf hy _]
  child_lt x hx k hk := absurd hk (not_hasChild_of_mem_leavesOf hx k)
  size := by rw [initialQueue_length, leavesOf_length]; omega
  total := by rw [initialQueue_map_freq]; exact sum_filterMap_leafOf ft _

/-! ### In a round -/

section
variable {ft : Vector Count 95} {nodes : List Node} {q rest : List QEntry} {a b x y : QEntry}

/-- There is room in the arena for the parent of the next merge, and its index fits. -/
theorem LiveSet.length_lt (h : LiveSet ft nodes (a :: b :: rest)) : nodes.length < 189 := by
  have := h.size
  have := leafCount_le ft
  simp only [List.length_cons] at *
  omega

theorem LiveSet.toNat_new (h : LiveSet ft nodes (a :: b :: rest)) :
    (BitVec.ofNat 8 nodes.length).toNat = nodes.length := by
  rw [BitVec.toNat_ofNat, Nat.mod_eq_of_lt (by have := h.length_lt; omega)]

/-- The 39-bit addition of a merge does not wrap (R108). -/
theorem LiveSet.toNat_add (h : LiveSet ft nodes (a :: b :: rest)) :
    (a.freq + b.freq).toNat = a.freq.toNat + b.freq.toNat := by
  have htotal := h.total
  have := totalCount_le ft
  simp only [List.map_cons, List.sum_cons] at htotal
  exact BitVec.toNat_add_of_lt (by omega)

theorem LiveSet.liveBefore (h : LiveSet ft nodes q) (hx : x ∈ q) : LiveBefore nodes nodes.length x.idx.toNat :=
  ((h.mem_iff x).mp hx).1

theorem LiveSet.freqAt (h : LiveSet ft nodes q) (hx : x ∈ q) : freqAt nodes x.idx.toNat = x.freq.toNat :=
  ((h.mem_iff x).mp hx).2.symm

/-- No node is in the live set twice. -/
theorem LiveSet.idx_ne (h : LiveSet ft nodes (x :: q)) (hy : y ∈ q) : y.idx.toNat ≠ x.idx.toNat := fun hyx =>
  (List.nodup_cons.mp h.idx_nodup).1 (BitVec.eq_of_toNat_eq hyx ▸ List.mem_map_of_mem hy)

theorem LiveSet.idx_lt (h : LiveSet ft nodes q) (hx : x ∈ q) : x.idx.toNat < nodes.length := (h.liveBefore hx).1

/-- After a merge the live nodes are the new node and the old ones without the two that were removed. -/
theorem LiveSet.liveBefore_merge_iff (h : LiveSet ft nodes (a :: b :: rest)) {t : TieRule} {n : NodeIdx} {k : Nat} :
    LiveBefore (nodes ++ [mergeNode t n a b]) (nodes ++ [mergeNode t n a b]).length k ↔
      k = nodes.length ∨ (LiveBefore nodes nodes.length k ∧ k ≠ a.idx.toNat ∧ k ≠ b.idx.toNat) := by
  have ha := h.idx_lt (x := a) (by simp)
  have hb := h.idx_lt (x := b) (by simp)
  rw [liveBefore_length_iff, liveBefore_length_iff, List.forall_mem_append, List.forall_mem_singleton, mergeNode_hasChild,
    not_or, List.length_append, List.length_singleton]
  constructor
  · rintro ⟨hk, hold, hnew⟩
    rcases Nat.lt_succ_iff_lt_or_eq.mp hk with hlt | heq
    · exact .inr ⟨⟨hlt, hold⟩, hnew⟩
    · exact .inl heq
  · rintro (rfl | ⟨⟨hlt, hold⟩, hnew⟩)
    · exact ⟨Nat.lt_succ_self _, fun x hx hk => Nat.lt_irrefl _ (h.child_lt x hx _ hk), ha.ne', hb.ne'⟩
    · exact ⟨Nat.lt_succ_of_lt hlt, hold, hnew⟩

/-- A merge, whichever two nodes it takes, keeps the list the live set of the arena. -/
theorem LiveSet.merge (h : LiveSet ft nodes (a :: b :: rest)) (t : TieRule) :
    LiveSet ft (nodes ++ [mergeNode t (BitVec.ofNat 8 nodes.length) a b])
      (⟨a.freq + b.freq, BitVec.ofNat 8 nodes.length⟩ :: rest) where
  idx_nodup := by
    refine List.nodup_cons.mpr ⟨fun hmem => ?_, (List.nodup_cons.mp (List.nodup_cons.mp h.idx_nodup).2).2⟩
    obtain ⟨x, hx, hxn⟩ := List.mem_map.mp hmem
    have hlt := h.idx_lt (x := x) (by simp [hx])
    rw [hxn, h.toNat_new] at hlt
    exact Nat.lt_irrefl _ hlt
  mem_iff x := by
    rw [h.liveBefore_merge_iff, List.mem_cons]
    constructor
    · rintro (rfl | hx)
      · exact ⟨.inl h.toNat_new, by rw [h.toNat_new, freqAt_merge]⟩
      · have hx' : x ∈ a :: b :: rest := by simp [hx]
        refine ⟨.inr ⟨h.liveBefore hx', h.idx_ne (by simp [hx]), (h.perm (.swap _ _ _)).idx_ne (by simp [hx])⟩, ?_⟩
        rw [freqAt_append _ (h.idx_lt hx'), h.freqAt hx']
    · rintro ⟨heq | ⟨hlive, hxa, hxb⟩, hfreq⟩
      · exact .inl (QEntry.eq_of_toNat (by rw [hfreq, heq, freqAt_merge]) (heq.trans h.toNat_new.symm))
      · rw [freqAt_append _ hlive.1] at hfreq
        rcases List.mem_cons.mp ((h.mem_iff x).mpr ⟨hlive, hfreq⟩) with rfl | hx
        · exact absurd rfl hxa
        · exact .inr ((List.mem_cons.mp hx).resolve_left fun hx => hxb (hx ▸ rfl))
  child_lt x hx k hk := by
    rw [List.length_append, List.length_singleton, Nat.lt_succ_iff]
    rcases List.mem_append.mp hx with hx | hx
    · exact (h.child_lt x hx k hk).le
    · rw [List.mem_singleton.mp hx, mergeNode_hasChild] at hk
      rcases hk with rfl | rfl
      · exact (h.idx_lt (by simp)).le
      · exact (h.idx_lt (by simp)).le
  size := by
    have := h.size
    simp only [List.length_append, List.length_cons, List.length_nil] at *
    omega
  total := by
    have := h.total
    simp only [List.map_cons, List.sum_cons, h.toNat_add] at *
    omega

end

end Sys2Proof.Machine
end

section
/-! PROOFS. What BUILD's own tie-break adds (41_tree_builder.md R104, R105): every merge joins the two nodes with the least keys. -/

namespace Sys2Proof.Machine

open Sys2Proof.Config (TieRule)

/-- The key of R104: first the frequency, then the index. -/
def QEntry.key (x : QEntry) : Nat ×ₗ Nat := toLex (x.freq.toNat, x.idx.toNat)

theorem QEntry.key_lt_iff {x y : QEntry} :
    x.key < y.key ↔ x.freq.toNat < y.freq.toNat ∨ x.freq.toNat = y.freq.toNat ∧ x.idx.toNat < y.idx.toNat :=
  Prod.Lex.toLex_lt_toLex

theorem keyLess_hardware_iff {x y : QEntry} : keyLess TieRule.hardware x y = true ↔ x.key < y.key := by
  simp [keyLess, TieRule.hardware, QEntry.key_lt_iff, BitVec.toNat_inj]

/-- The hardware compares by the key of R104. -/
theorem orderedBy_key : OrderedBy TieRule.hardware QEntry.key := fun x y => by
  split
  next h => exact (keyLess_hardware_iff.mp h).le
  next h => exact not_lt.mp (mt keyLess_hardware_iff.mpr h)

/-- Node `n` is the parent of the two nodes with the least keys of the live set before it, the least on the left (R105). -/
def JoinsTwoLeast (nodes : List Node) (n : Nat) : Prop :=
  ∃ f l r, nodes[n]? = some (.internal f l r) ∧
    LiveBefore nodes n l.toNat ∧ LiveBefore nodes n r.toNat ∧ KeyBefore nodes l.toNat r.toNat ∧
    (∀ k, LiveBefore nodes n k → k ≠ l.toNat → k ≠ r.toNat → KeyBefore nodes r.toNat k) ∧
    f.toNat = freqAt nodes l.toNat + freqAt nodes r.toNat

theorem keyBefore_append {nodes : List Node} (more : List Node) {j k : Nat} (hj : j < nodes.length) (hk : k < nodes.length) :
    KeyBefore (nodes ++ more) j k ↔ KeyBefore nodes j k := by
  rw [KeyBefore, KeyBefore, freqAt_append more hj, freqAt_append more hk]

/-- Nodes that come later do not change what a node joins. -/
theorem JoinsTwoLeast.append {nodes : List Node} {n : Nat} (h : JoinsTwoLeast nodes n) (more : List Node) :
    JoinsTwoLeast (nodes ++ more) n := by
  obtain ⟨f, l, r, hget, hl, hr, hlr, hleast, hsum⟩ := h
  have hn : n < nodes.length := (List.getElem?_eq_some_iff.mp hget).1
  have hl' := hl.1.trans hn
  have hr' := hr.1.trans hn
  refine ⟨f, l, r, ?_, (liveBefore_append hn.le).mpr hl, (liveBefore_append hn.le).mpr hr,
    (keyBefore_append more hl' hr').mpr hlr, fun k hk hkl hkr => ?_, ?_⟩
  · rw [List.getElem?_append_left hn, hget]
  · rw [liveBefore_append hn.le] at hk
    exact (keyBefore_append more hr' (hk.1.trans hn)).mpr (hleast k hk hkl hkr)
  · rw [freqAt_append more hl', freqAt_append more hr', hsum]

section
variable {ft : Vector Count 95} {nodes : List Node} {q rest : List QEntry} {a b x y : QEntry}

/-- The keys of the live set's entries are the keys of the nodes they stand for (R104). -/
theorem LiveSet.keyBefore (h : LiveSet ft nodes q) (hx : x ∈ q) (hy : y ∈ q) (hne : y.idx.toNat ≠ x.idx.toNat)
    (hle : x.key ≤ y.key) : KeyBefore nodes x.idx.toNat y.idx.toNat := by
  have hlt : x.key < y.key := lt_of_le_of_ne hle fun heq => hne (congrArg (fun k => (ofLex k).2) heq).symm
  rw [KeyBefore, h.freqAt hx, h.freqAt hy]
  exact QEntry.key_lt_iff.mp hlt

/-- Every live node is in the live set. -/
theorem LiveSet.exists_mem (h : LiveSet ft nodes (a :: b :: rest)) {k : Nat} (hk : LiveBefore nodes nodes.length k) :
    ∃ x ∈ a :: b :: rest, x.idx.toNat = k := by
  have hidx : (BitVec.ofNat 8 k).toNat = k := by
    rw [BitVec.toNat_ofNat, Nat.mod_eq_of_lt (by have := h.length_lt; have := hk.1; omega)]
  refine ⟨⟨nodes[k]'hk.1 |>.freq, BitVec.ofNat 8 k⟩, (h.mem_iff _).mpr ⟨?_, ?_⟩, hidx⟩
  · rwa [hidx]
  · rw [hidx, freqAt_of_getElem? (List.getElem?_eq_getElem hk.1)]

/-- The node that a merge of the hardware makes joins the two least live nodes. -/
theorem LiveSet.joinsTwoLeast (h : LiveSet ft nodes (a :: b :: rest)) (ha : ∀ x ∈ b :: rest, a.key ≤ x.key)
    (hb : ∀ x ∈ rest, b.key ≤ x.key) (n : NodeIdx) :
    JoinsTwoLeast (nodes ++ [mergeNode TieRule.hardware n a b]) nodes.length := by
  have hma : a ∈ a :: b :: rest := by simp
  have hmb : b ∈ a :: b :: rest := by simp
  have hlt := h.idx_lt hma
  have hlt' := h.idx_lt hmb
  refine ⟨a.freq + b.freq, a.idx, b.idx, List.getElem?_concat_length, (liveBefore_append le_rfl).mpr (h.liveBefore hma),
    (liveBefore_append le_rfl).mpr (h.liveBefore hmb), ?_, fun k hk hka hkb => ?_, ?_⟩
  · exact (keyBefore_append _ hlt hlt').mpr (h.keyBefore hma hmb (h.idx_ne (by simp)) (ha b (by simp)))
  · rw [liveBefore_append le_rfl] at hk
    obtain ⟨x, hx, rfl⟩ := h.exists_mem hk
    have hrest : x ∈ rest := by
      refine (List.mem_cons.mp ((List.mem_cons.mp hx).resolve_left ?_)).resolve_left ?_
      · rintro rfl; exact hka rfl
      · rintro rfl; exact hkb rfl
    exact (keyBefore_append _ hlt' hk.1).mpr (h.keyBefore hmb hx hkb (hb x hrest))
  · rw [freqAt_append _ hlt, freqAt_append _ hlt', h.freqAt hma, h.freqAt hmb, h.toNat_add]

end

/-- What holds in every round of BUILD: the list is the live set, and every Internal node so far joins two least nodes. -/
structure Merged (ft : Vector Count 95) (nodes : List Node) (q : List QEntry) : Prop where
  liveSet : LiveSet ft nodes q
  joins : ∀ n, leafCount ft ≤ n → n < nodes.length → JoinsTwoLeast nodes n

theorem Merged.keptByMerges (ft : Vector Count 95) : KeptByMerges TieRule.hardware QEntry.key (Merged ft) where
  perm hqq h := ⟨h.liveSet.perm hqq, h.joins⟩
  merge ha hb h := by
    refine ⟨h.liveSet.merge _, fun n hL hn => ?_⟩
    rw [List.length_append, List.length_singleton] at hn
    rcases Nat.lt_succ_iff_lt_or_eq.mp hn with hlt | rfl
    · exact (h.joins n hL hlt).append _
    · exact h.liveSet.joinsTwoLeast ha hb _

theorem Merged.initial (ft : Vector Count 95) : Merged ft (leavesOf ft) (initialQueue (leavesOf ft)) where
  liveSet := .initial ft
  joins n hL hn := absurd hn (by rw [leavesOf_length]; omega)

/-- What a finished tree of the hardware is. -/
theorem exists_merged_of_buildTree {ft : Vector Count 95} {b : Built} (h : buildTree TieRule.hardware ft = some b) :
    ∃ last, last.idx = b.root ∧ Merged ft b.nodes [last] :=
  buildTree_induction orderedBy_key (Merged.keptByMerges ft) h (.initial ft)

/-- A BUILD in phase LOAD that reaches phase TREE has installed the tree of the table. -/
theorem exec_build_tree {s t : State} (hs : s.eng.phase = .load) (h : exec .build s = .next t) (ht : t.eng.phase = .tree) :
    ∃ b, buildTree TieRule.hardware s.eng.ft = some b ∧
      t = (s.installTree b.nodes (leavesOf s.eng.ft).length b.root).respond .ok 0 := by
  simp only [exec, execBuild, hs, ne_eq, not_true_eq_false, if_false] at h
  split at h
  · cases h
    simp [hs] at ht
  next b hb =>
    cases h
    exact ⟨b, hb, rfl⟩

/-- Settles O30: along the rounds of the loop the list is the live set of the arena, and the entries removed are the two with the
least keys of it. -/
theorem eachMergeTakesTheTwoLeastLiveNodes : Obligations.EachMergeTakesTheTwoLeastLiveNodes := by
  intro s t hs hexec ht
  obtain ⟨b, hb, rfl⟩ := exec_build_tree hs hexec ht
  obtain ⟨last, -, hm⟩ := exists_merged_of_buildTree hb
  have hsize := hm.liveSet.size
  refine ⟨?_, hm.joins⟩
  simp only [List.length_singleton, State.respond_node, State.installTree_node] at *
  omega

end Sys2Proof.Machine
end

section
/-! PROOFS. The packing of a code (42_code_table.md R128): the value of every field of the data word, and the host's way back. -/

namespace Sys2Proof.Machine

theorem pack_valid (p : BitString) : (pack p).getLsbD 0 = true := by simp [pack_getLsbD]

theorem pack_ne_zero (p : BitString) : pack p ≠ 0 := fun h => by simpa [h] using pack_valid p

theorem pack_len {p : BitString} (hp : p.length ≤ 94) : ((pack p).extractLsb' 1 7).toNat = p.length := by
  have hfield : (pack p).extractLsb' 1 7 = BitVec.ofNat 7 p.length :=
    extractLsb'_eq_of_getLsbD 1 fun i hi => by simp [pack_getLsbD, show 1 + i < 8 by omega]
  rw [hfield, BitVec.toNat_ofNat]
  omega

/-- The code bits are those of the bit-string, and 0 beyond its end. -/
theorem pack_code_bit (p : BitString) {k : Nat} (hk : k < 94) : (pack p).getLsbD (8 + k) = (p[k]?).getD false := by
  rw [pack_getLsbD, if_neg (by omega), if_neg (by omega), Nat.add_sub_cancel_left, BitVec.getLsbD_ofNat, bitsNat_testBit]
  simp [hk]

theorem pack_high (p : BitString) : (pack p).extractLsb' 102 26 = 0 :=
  extractLsb'_eq_of_getLsbD 102 fun i _ => by
    rw [pack_getLsbD, if_neg (by omega), if_neg (by omega), BitVec.getLsbD_of_ge _ _ (by omega)]
    exact BitVec.getLsbD_zero.symm

theorem unpack_pack {p : BitString} (hp : p.length ≤ 94) : unpack (pack p) = p := by
  rw [unpack, pack_len hp]
  refine List.ext_getElem (by simp) fun k _ hk => ?_
  rw [List.getElem_map, List.getElem_range, pack_code_bit p (by omega), List.getElem?_eq_getElem hk, Option.getD_some]

/-- Settles O41: the fields of the data word one by one; unpacking reads them back, so equal words have equal codes. -/
theorem packedCodesUnpack : Obligations.PackedCodesUnpack := by
  refine ⟨fun p _ hp => ⟨pack_valid p, pack_len hp, fun k b hb => ?_, fun k hk hk' => ?_, pack_high p, pack_ne_zero p,
    unpack_pack hp⟩, fun p q _ hp _ hq h => ?_⟩
  · have hk : k < p.length := (List.getElem?_eq_some_iff.mp hb).1
    rw [pack_code_bit p (by omega), hb, Option.getD_some]
  · rw [pack_code_bit p hk', List.getElem?_eq_none hk, Option.getD_none]
  · rw [← unpack_pack hp, h, unpack_pack hq]

end Sys2Proof.Machine
end

section
/-! PROOFS. The length of the codes in phase CODED (42_code_table.md R120 to R122): the walk of GEN goes from the root, which is
the last node, to smaller and smaller indices, and the Internal nodes come after the leaves, so a path has at most one step
for each Internal node. -/

namespace Sys2Proof.Machine

open Sys2Proof.Config (TieRule)

/-- Every code of the table is non-empty and has at most `n` bits. -/
def CodesWithin (n : Nat) (ct : Vector (Option BitString) 95) : Prop :=
  ∀ (i : SymIdx) (p : BitString), ct[i] = some p → 1 ≤ p.length ∧ p.length ≤ n

theorem codesWithin_noCodes (n : Nat) : CodesWithin n noCodes := fun i p h => by simp [noCodes] at h

theorem CodesWithin.of_recordCode {n : Nat} {ct ct' : Vector (Option BitString) 95} (hct : CodesWithin n ct) {sym : CharCode}
    {p : BitString} (hp : 1 ≤ p.length ∧ p.length ≤ n) (h : recordCode sym p ct = .ok ct') : CodesWithin n ct' := by
  rcases recordCode_cases sym p ct with ⟨i, -, hset⟩ | ⟨-, herr⟩
  · obtain rfl : ct.set i (some p) = ct' := Except.ok.inj (hset.symm.trans h)
    intro k q hq
    by_cases hik : i.val = k.val
    · obtain rfl : p = q := by simpa [Vector.getElem_set, hik] using hq
      exact hp
    · exact hct k q (by simpa [Vector.getElem_set, hik] using hq)
  · rw [herr] at h
    cases h

/-- The Internal nodes of the arena come at index `L` and after, each after its children (41_tree_builder.md R107). -/
def InternalsAfter (L : Nat) (nodes : List Node) : Prop :=
  ∀ ⦃j : NodeIdx⦄ ⦃f : Freq⦄ ⦃l r : NodeIdx⦄, nodeAt nodes j = some (.internal f l r) →
    L ≤ j.toNat ∧ l.toNat < j.toNat ∧ r.toNat < j.toNat

/-- A walk from node `j` records paths that are longer than `p` by at most the number of indices from `L` to `j`. -/
theorem CodesWithin.of_walk {n L : Nat} {nodes : List Node} (hnodes : InternalsAfter L nodes) {fuel : Nat} {j : NodeIdx}
    {p : BitString} {ct ct' : Vector (Option BitString) 95} (hct : CodesWithin n ct)
    (hp : 1 ≤ p.length ∨ ∃ f l r, nodeAt nodes j = some (.internal f l r)) (hn : p.length + (j.toNat + 1 - L) ≤ n)
    (h : walk nodes fuel j p ct = .ok ct') : CodesWithin n ct' := by
  induction fuel generalizing j p ct ct' with
  | zero => cases h
  | succ fuel ih =>
    unfold walk at h
    split at h
    · cases h
    next sym f hj =>
      have hpos : 1 ≤ p.length := hp.resolve_right fun ⟨_, _, _, hi⟩ => by simp [hj] at hi
      exact hct.of_recordCode ⟨hpos, by omega⟩ h
    next f l r hj =>
      obtain ⟨hL, hl, hr⟩ := hnodes hj
      split at h
      next ct₁ hleft =>
        have hct₁ : CodesWithin n ct₁ := ih hct (.inl (by simp)) (by rw [List.length_append, List.length_singleton]; omega) hleft
        exact ih hct₁ (.inl (by simp)) (by rw [List.length_append, List.length_singleton]; omega) h
      · cases h

/-- The codes of a tree are non-empty: the walk starts at an Internal node, and a sole leaf has the code "0" (R122). -/
theorem codesWithin_genCodes {n L : Nat} {nodes : List Node} {root : NodeIdx} {ct : Vector (Option BitString) 95}
    (hnodes : InternalsAfter L nodes) (hpos : 1 ≤ n) (hn : root.toNat + 1 - L ≤ n) (h : genCodes nodes root = .ok ct) :
    CodesWithin n ct := by
  unfold genCodes at h
  split at h
  · cases h
  · exact (codesWithin_noCodes n).of_recordCode (p := [false]) ⟨le_rfl, hpos⟩ h
  next f l r hroot => exact (codesWithin_noCodes n).of_walk hnodes (.inr ⟨f, l, r, hroot⟩) (by simpa using hn) h

theorem exists_append_of_buildTree {t : TieRule} {ft : Vector Count 95} {b : Built} (h : buildTree t ft = some b) :
    ∃ more, b.nodes = leavesOf ft ++ more := by
  unfold buildTree at h
  split at h
  · cases h
  · cases h
    exact mergeLoop_keeps _ _ _ _ _

/-- The nodes of a tree before index `leafCount` are the leaves, and from there on each joins two earlier nodes. -/
theorem internalsAfter_of_buildTree {ft : Vector Count 95} {b : Built} (h : buildTree TieRule.hardware ft = some b) :
    InternalsAfter (leafCount ft) b.nodes := by
  intro j f l r hj
  obtain ⟨more, hmore⟩ := exists_append_of_buildTree h
  obtain ⟨last, -, hm⟩ := exists_merged_of_buildTree h
  have hL : leafCount ft ≤ j.toNat := by
    by_contra hlt
    rw [nodeAt, hmore, List.getElem?_append_left (by rw [leavesOf_length]; omega)] at hj
    exact not_hasChild_of_mem_leavesOf (List.mem_of_getElem? hj) l.toNat (.inl rfl)
  obtain ⟨_, l', r', hj', hl, hr, -⟩ := hm.joins j.toNat hL (List.getElem?_eq_some_iff.mp hj).1
  cases hj'.symm.trans hj
  exact ⟨hL, hl.1, hr.1⟩

/-- The root is the last of at most `2 * leafCount - 1` nodes (R107), stated without subtraction. -/
theorem root_lt_of_buildTree {ft : Vector Count 95} {b : Built} (h : buildTree TieRule.hardware ft = some b) :
    b.root.toNat + 1 < 2 * leafCount ft := by
  obtain ⟨last, hroot, hm⟩ := exists_merged_of_buildTree h
  have hsize := hm.liveSet.size
  have hlt := hm.liveSet.idx_lt (List.mem_singleton_self last)
  rw [hroot] at hlt
  rw [List.length_singleton] at hsize
  omega

/-- In phase CODED every code has 1 to 94 bits (10_state.md R28). -/
theorem Engine.codesWithin_of_inv {e : Engine} (h : e.Inv) (he : e.phase = .coded) : CodesWithin 94 e.ct := by
  obtain ⟨hbuilt, -, hcodes⟩ := (Engine.inv_coded_iff he).mp h
  obtain ⟨b, hb, hnode, hroot, -⟩ := e.builtFromTable_iff.mp hbuilt
  rw [Engine.codesOfTree_iff, hnode, hroot] at hcodes
  have hlt := root_lt_of_buildTree hb
  have hcount := leafCount_le e.ft
  exact codesWithin_genCodes (internalsAfter_of_buildTree hb) (by omega) (by omega) hcodes

end Sys2Proof.Machine
end

section
/-! PROOFS. Encode, run on the engine (42_code_table.md R130): each RDC changes nothing and answers the packed code of its
ordinal, which the host unpacks. -/

namespace Sys2Proof.Machine

/-- In phase CODED an RDC answers the packed code of its ordinal, and 0 where there is none (R127). -/
theorem exec_rdc_coded {s : State} (hs : s.eng.phase = .coded) (c : CharCode) :
    exec (.rdc c) s = .next (s.respond .ok ((codeOf s.eng.ct c).elim 0 pack)) := by
  cases h : codeOf s.eng.ct c <;> simp [exec, execRdc, hs, h]

theorem Engine.issue_rdc_coded {e : Engine} (he : e.phase = .coded) (c : CharCode) :
    e.issue (.rdc c) = some (e, ⟨.ok, (codeOf e.ct c).elim 0 pack⟩) :=
  Engine.issue_eq_of_exec (exec_rdc_coded he c) rfl

/-- The code of a character below 256 is what RDC looks up for it. -/
theorem codeOf_ofNat_getD (ct : Vector (Option BitString) 95) {o : Nat} (ho : o ≤ 255) :
    (codeOf ct (BitVec.ofNat 8 o)).getD [] = codeOfChar ct o := by
  have hnat : (BitVec.ofNat 8 o).toNat = o := by rw [BitVec.toNat_ofNat]; omega
  unfold codeOfChar
  split
  next h =>
    have hidx : symIndex (BitVec.ofNat 8 o) = some ⟨o - 32, by omega⟩ := by
      rw [symIndex_eq_some_iff, hnat]
      simp only
      omega
    rw [codeOf_of_symIndex hidx]
    rfl
  next h =>
    have hidx : symIndex (BitVec.ofNat 8 o) = none := by
      rw [symIndex_eq_none_iff, hnat]
      omega
    simp [codeOf, hidx]

theorem codeOf_length_le {n : Nat} {ct : Vector (Option BitString) 95} (hct : CodesWithin n ct) {c : CharCode}
    {p : BitString} (h : codeOf ct c = some p) : p.length ≤ n := by
  unfold codeOf at h
  split at h
  next i _ => exact (hct i p h).2
  · cases h

/-- One character of Encode, run on the engine: it appends its code and changes nothing. -/
theorem encodeChar_coded {e : Engine} (h : e.Inv) (he : e.phase = .coded) (o : Nat) :
    encodeChar o e = some (e, codeOfChar e.ct o) := by
  unfold encodeChar
  split
  next ho =>
    rw [Engine.issue_rdc_coded he, Option.map_some, ← codeOf_ofNat_getD e.ct ho]
    cases hp : codeOf e.ct (BitVec.ofNat 8 o) with
    | none => simp
    | some p => simp [pack_valid, unpack_pack (codeOf_length_le (Engine.codesWithin_of_inv h he) hp)]
  next ho => rw [codeOfChar, dif_neg (by omega)]

/-- Settles O49: each character appends its code and leaves the engine as it is, by induction on the text. -/
theorem encodeRunsAsThePureFunction : Obligations.EncodeRunsAsThePureFunction := by
  intro e text h he
  induction text with
  | nil => rfl
  | cons o text ih => simp [encodeText, encodeChar_coded h he, ih, encodePure]

end Sys2Proof.Machine
end

section
/-! PROOFS. Decode, run on the engine (43_decoder.md R144): as long as the cursor stands at a node of the tree, each DBIT makes the
one move of the pure function `dec` (R136 to R138), and in a tree every move leads to a node again. -/

namespace Sys2Proof.Machine

open Sys2Proof.Config (TieRule)

/-! ## The data word of a DBIT that emits (R136) -/

@[simp] theorem emitData_emit (sym : CharCode) : (emitData sym).getLsbD 0 = true := by simp [emitData_getLsbD]

@[simp] theorem emitData_sym (sym : CharCode) : (emitData sym).extractLsb' 8 8 = sym :=
  extractLsb'_eq_of_getLsbD 8 fun i _ => by
    rw [emitData_getLsbD, if_neg (by omega), if_neg (by omega), Nat.add_sub_cancel_left]

/-! ## DRST and DBIT as the host sees them -/

/-- In phases TREE and CODED a DRST moves the cursor to the root (R135). -/
theorem exec_drst_eq {s : State} (hs : s.eng.phase ≠ .load) :
    exec .drst s = .next ((s.setDcur s.eng.root).respond .ok 0) := by
  simp [exec, execDrst, hs]

theorem Engine.issue_drst {e : Engine} (he : e.phase ≠ .load) :
    e.issue .drst = some ({ e with dcur := e.root }, ⟨.ok, 0⟩) :=
  Engine.issue_eq_of_exec (exec_drst_eq he) rfl

section
variable {s : State} {b : Bool} {n : Node} (hs : s.eng.phase ≠ .load) (hn : nodeAt s.eng.node s.eng.dcur = some n)
include hs hn

/-- In phases TREE and CODED a DBIT whose cursor and target exist ends at the target (R136). -/
theorem exec_dbit_eq {m : Node} (hm : nodeAt s.eng.node (bitTarget b s.eng.dcur n) = some m) :
    exec (.dbit b) s = arrive (bitTarget b s.eng.dcur n) s m := by
  rw [exec, execDbit, if_neg hs, withNode_of_some hn, withNode_of_some hm]

/-- A DBIT that reaches a Leaf emits its symbol, and the cursor goes back to the root (R138). -/
theorem exec_dbit_leaf {sym : CharCode} {f : Freq}
    (hm : nodeAt s.eng.node (bitTarget b s.eng.dcur n) = some (.leaf sym f)) :
    exec (.dbit b) s = .next ((s.setDcur s.eng.root).respond .ok (emitData sym)) :=
  exec_dbit_eq hs hn hm

/-- A DBIT that reaches an Internal node emits nothing, and the cursor stays there (R138). -/
theorem exec_dbit_internal {f : Freq} {l r : NodeIdx}
    (hm : nodeAt s.eng.node (bitTarget b s.eng.dcur n) = some (.internal f l r)) :
    exec (.dbit b) s = .next ((s.setDcur (bitTarget b s.eng.dcur n)).respond .ok 0) :=
  exec_dbit_eq hs hn hm

end

section
variable {e : Engine} {b : Bool} {n : Node} (he : e.phase ≠ .load) (hn : nodeAt e.node e.dcur = some n)
include he hn

theorem Engine.issue_dbit_leaf {sym : CharCode} {f : Freq}
    (hm : nodeAt e.node (bitTarget b e.dcur n) = some (.leaf sym f)) :
    e.issue (.dbit b) = some ({ e with dcur := e.root }, ⟨.ok, emitData sym⟩) :=
  Engine.issue_eq_of_exec (exec_dbit_leaf he hn hm) rfl

theorem Engine.issue_dbit_internal {f : Freq} {l r : NodeIdx}
    (hm : nodeAt e.node (bitTarget b e.dcur n) = some (.internal f l r)) :
    e.issue (.dbit b) = some ({ e with dcur := bitTarget b e.dcur n }, ⟨.ok, 0⟩) :=
  Engine.issue_eq_of_exec (exec_dbit_internal he hn hm) rfl

end

/-! ## One bit of the pure function -/

section
variable {nodes : List Node} {root j : NodeIdx} {b : Bool} {bits : BitString} {n : Node}
variable (hn : nodeAt nodes j = some n)
include hn

theorem decodeFrom_cons_leaf {sym : CharCode} {f : Freq} (hm : nodeAt nodes (bitTarget b j n) = some (.leaf sym f)) :
    decodeFrom nodes root j (b :: bits) = sym :: decodeFrom nodes root root bits := by
  cases n with
  | leaf =>
    rw [bitTarget] at hm
    simp [decodeFrom, hm]
  | internal =>
    rw [bitTarget] at hm
    simp [decodeFrom, hn, hm]

theorem decodeFrom_cons_internal {f : Freq} {l r : NodeIdx}
    (hm : nodeAt nodes (bitTarget b j n) = some (.internal f l r)) :
    decodeFrom nodes root j (b :: bits) = decodeFrom nodes root (bitTarget b j n) bits := by
  cases n with
  | leaf => cases hn.symm.trans hm
  | internal =>
    rw [bitTarget] at hm ⊢
    simp [decodeFrom, hn, hm]

end

/-- Every symbol decoded is the symbol of some Leaf of the arena. -/
theorem leaf_mem_of_mem_decodeFrom {nodes : List Node} {root j : NodeIdx} {bits : BitString} {o : CharCode}
    (ho : o ∈ decodeFrom nodes root j bits) : ∃ f, Node.leaf o f ∈ nodes := by
  induction bits generalizing j with
  | nil => cases ho
  | cons b bits ih =>
    unfold decodeFrom at ho
    split at ho
    · cases ho
    · dsimp only at ho
      split at ho
      next sym f hm =>
        rcases List.mem_cons.mp ho with rfl | ho
        · exact ⟨f, nodeAt_mem hm⟩
        · exact ih ho
      · exact ih ho
      · cases ho

/-! ## Moves stay in the tree -/

/-- The root of the arena and every child of its nodes exist, so that no walk from the root leaves the arena. -/
structure Walkable (nodes : List Node) (root : NodeIdx) : Prop where
  root_lt : root.toNat < nodes.length
  child_lt : ∀ x ∈ nodes, ∀ k, x.HasChild k → k < nodes.length

theorem exists_nodeAt_of_lt {nodes : List Node} {j : NodeIdx} (h : j.toNat < nodes.length) :
    ∃ n, nodeAt nodes j = some n :=
  Option.isSome_iff_exists.mp ((nodeAt_isSome_iff nodes j).mpr h)

theorem Walkable.root_exists {nodes : List Node} {root : NodeIdx} (h : Walkable nodes root) :
    ∃ n, nodeAt nodes root = some n :=
  exists_nodeAt_of_lt h.root_lt

/-- The node a bit leads to exists: it is a child of an Internal node, or the Leaf itself. -/
theorem Walkable.bitTarget_exists {nodes : List Node} {root j : NodeIdx} (h : Walkable nodes root) (b : Bool) {n : Node}
    (hn : nodeAt nodes j = some n) : ∃ m, nodeAt nodes (bitTarget b j n) = some m := by
  cases n with
  | leaf sym f => exact ⟨_, hn⟩
  | internal f l r =>
    refine exists_nodeAt_of_lt (h.child_lt _ (nodeAt_mem hn) _ ?_)
    cases b
    · exact .inl rfl
    · exact .inr rfl

theorem walkable_of_buildTree {ft : Vector Count 95} {b : Built} (h : buildTree TieRule.hardware ft = some b) :
    Walkable b.nodes b.root := by
  obtain ⟨last, hroot, hm⟩ := exists_merged_of_buildTree h
  exact ⟨hroot ▸ hm.liveSet.idx_lt (List.mem_singleton_self last), hm.liveSet.child_lt⟩

/-- The leaves are those of the symbols with a count above 0 (41_tree_builder.md R102). -/
theorem mem_leavesOf_iff {ft : Vector Count 95} {x : Node} :
    x ∈ leavesOf ft ↔ ∃ i : SymIdx, ft[i] ≠ 0 ∧ x = .leaf (ordinalOf i) (ft[i].setWidth 39) := by
  simp [leavesOf, leafOf, eq_comm (a := x)]

/-- The Leaves of a tree are leaves of symbols: from index `leafCount` on every node is Internal. -/
theorem exists_ordinalOf_of_leaf_mem {ft : Vector Count 95} {b : Built} (h : buildTree TieRule.hardware ft = some b)
    {sym : CharCode} {f : Freq} (hmem : Node.leaf sym f ∈ b.nodes) : ∃ i, sym = ordinalOf i := by
  obtain ⟨more, hmore⟩ := exists_append_of_buildTree h
  obtain ⟨last, -, hm⟩ := exists_merged_of_buildTree h
  obtain ⟨k, hk⟩ := List.mem_iff_getElem?.mp hmem
  by_cases hL : leafCount ft ≤ k
  · obtain ⟨_, _, _, hk', -⟩ := hm.joins k hL (List.getElem?_eq_some_iff.mp hk).1
    cases hk'.symm.trans hk
  · rw [hmore, List.getElem?_append_left (by rw [leavesOf_length]; omega)] at hk
    obtain ⟨i, -, hi⟩ := mem_leavesOf_iff.mp (List.mem_of_getElem? hk)
    exact ⟨i, (Node.leaf.inj hi).1⟩

/-- In phases TREE and CODED the arena is the tree that BUILD makes of the table (45_invariants.md R160). -/
theorem Engine.exists_buildTree_of_inv {e : Engine} (h : e.Inv) (he : e.phase ≠ .load) :
    ∃ b, buildTree TieRule.hardware e.ft = some b ∧ e.node = b.nodes ∧ e.root = b.root := by
  have hbuilt : e.builtFromTable = true := by
    cases hp : e.phase with
    | load => exact absurd hp he
    | tree => exact ((Engine.inv_tree_iff hp).mp h).1
    | coded => exact ((Engine.inv_coded_iff hp).mp h).1
  obtain ⟨b, hb, hnode, hroot, -⟩ := e.builtFromTable_iff.mp hbuilt
  exact ⟨b, hb, hnode, hroot⟩

/-! ## Decode -/

/-- The loop of Decode, from a cursor at any node of the tree, gives what the pure function gives from there and moves only the
cursor. -/
theorem decodeBits_eq_decodeFrom {e : Engine} (he : e.phase ≠ .load) (hwalk : Walkable e.node e.root) {n : Node}
    (hn : nodeAt e.node e.dcur = some n) (bits : BitString) :
    ∃ k, decodeBits bits e = some ({ e with dcur := k }, decodeFrom e.node e.root e.dcur bits) := by
  induction bits generalizing e n with
  | nil => exact ⟨e.dcur, rfl⟩
  | cons b bits ih =>
    obtain ⟨m, hm⟩ := hwalk.bitTarget_exists b hn
    cases m with
    | leaf sym f =>
      obtain ⟨_, hroot⟩ := hwalk.root_exists
      obtain ⟨k, hk⟩ := ih (e := { e with dcur := e.root }) he hwalk hroot
      exact ⟨k, by simp [decodeBits, Engine.issue_dbit_leaf he hn hm, hk, decodeFrom_cons_leaf hn hm]⟩
    | internal f l r =>
      obtain ⟨k, hk⟩ := ih (e := { e with dcur := bitTarget b e.dcur n }) he hwalk hm
      exact ⟨k, by simp [decodeBits, Engine.issue_dbit_internal he hn hm, hk, decodeFrom_cons_internal hn hm]⟩

/-- Decode, run on an engine with a tree, gives what the pure function gives and leaves the cursor at the root. -/
theorem decodeText_eq_decodeFrom {e : Engine} (he : e.phase ≠ .load) (hwalk : Walkable e.node e.root) (bits : BitString) :
    decodeText bits e = some ({ e with dcur := e.root }, decodeFrom e.node e.root e.root bits) := by
  obtain ⟨_, hroot⟩ := hwalk.root_exists
  obtain ⟨k, hk⟩ := decodeBits_eq_decodeFrom (e := { e with dcur := e.root }) he hwalk hroot bits
  have hlast : Engine.issue .drst { e with dcur := k } = some ({ e with dcur := e.root }, ⟨.ok, 0⟩) := Engine.issue_drst he
  simp [decodeText, Engine.issue_drst he, hk, hlast]

/-- Settles O47: the arena is a tree of BUILD, in which every bit leads to a node, so each DBIT makes one move of the pure function;
what it emits are symbols of leaves, and those are ordinals of the alphabet. -/
theorem decodeRunsAsThePureFunction : Obligations.DecodeRunsAsThePureFunction := by
  intro e bits h he
  obtain ⟨b, hb, hnode, hroot⟩ := Engine.exists_buildTree_of_inv h he
  refine ⟨decodeText_eq_decodeFrom he (hnode ▸ hroot ▸ walkable_of_buildTree hb) bits, fun o ho => ?_⟩
  obtain ⟨f, hf⟩ := leaf_mem_of_mem_decodeFrom ho
  obtain ⟨i, rfl⟩ := exists_ordinalOf_of_leaf_mem hb (hnode ▸ hf)
  rw [ordinalOf_toNat]
  omega

end Sys2Proof.Machine
end

section
/-! PROOFS. Construct (44_control.md R156). After CLR and LoadTable the engine is the reset state with the table of the text. GEN
never stops on a tree of BUILD: its walk goes to existing nodes of smaller and smaller index, so the fuel suffices, and ends at
leaves whose symbols are in the alphabet. So CONSTRUCT ends in phase CODED unless every count is 0. -/

namespace Sys2Proof.Machine

open Sys2Proof.Config (TieRule)

/-! ## GEN never stops on a tree (42_code_table.md R120) -/

@[simp] theorem recordCode_ordinalOf (i : SymIdx) (p : BitString) (ct : Vector (Option BitString) 95) :
    recordCode (ordinalOf i) p ct = .ok (ct.set i (some p)) := by
  simp [recordCode]

section
variable {nodes : List Node} {j l r : NodeIdx} {sym : CharCode} {f : Freq}

theorem walk_of_leaf (hj : nodeAt nodes j = some (.leaf sym f)) (fuel : Nat) (p : BitString)
    (ct : Vector (Option BitString) 95) : walk nodes (fuel + 1) j p ct = recordCode sym p ct := by
  simp [walk, hj]

theorem walk_of_internal (hj : nodeAt nodes j = some (.internal f l r)) {fuel : Nat} {p : BitString}
    {ct ct' : Vector (Option BitString) 95} (hleft : walk nodes fuel l (p ++ [false]) ct = .ok ct') :
    walk nodes (fuel + 1) j p ct = walk nodes fuel r (p ++ [true]) ct' := by
  simp [walk, hj, hleft]

theorem genCodes_of_leaf (hj : nodeAt nodes j = some (.leaf sym f)) :
    genCodes nodes j = recordCode sym [false] noCodes := by
  simp [genCodes, hj]

theorem genCodes_of_internal (hj : nodeAt nodes j = some (.internal f l r)) :
    genCodes nodes j = walk nodes nodes.length j [] noCodes := by
  simp [genCodes, hj]

end

section
variable {L : Nat} {nodes : List Node} {root : NodeIdx} (hnodes : InternalsAfter L nodes) (hwalk : Walkable nodes root)
  (hleaf : ∀ sym f, Node.leaf sym f ∈ nodes → ∃ i, sym = ordinalOf i)
include hnodes hwalk hleaf

/-- A walk from an existing node with fuel above its index succeeds: each step goes to a smaller index. -/
theorem exists_walk_eq_ok {fuel : Nat} {j : NodeIdx} {n : Node} (hj : nodeAt nodes j = some n) (hfuel : j.toNat < fuel)
    (p : BitString) (ct : Vector (Option BitString) 95) : ∃ ct', walk nodes fuel j p ct = .ok ct' := by
  induction fuel generalizing j n p ct with
  | zero => omega
  | succ fuel ih =>
    cases n with
    | leaf sym f =>
      obtain ⟨i, rfl⟩ := hleaf sym f (nodeAt_mem hj)
      exact ⟨_, (walk_of_leaf hj fuel p ct).trans (recordCode_ordinalOf i p ct)⟩
    | internal f l r =>
      obtain ⟨-, hl, hr⟩ := hnodes hj
      obtain ⟨_, hnl⟩ : ∃ m, nodeAt nodes l = some m := hwalk.bitTarget_exists false hj
      obtain ⟨_, hnr⟩ : ∃ m, nodeAt nodes r = some m := hwalk.bitTarget_exists true hj
      obtain ⟨ct₁, hleft⟩ := ih hnl (by omega) (p ++ [false]) ct
      obtain ⟨ct₂, hright⟩ := ih hnr (by omega) (p ++ [true]) ct₁
      exact ⟨ct₂, (walk_of_internal hj hleft).trans hright⟩

theorem exists_genCodes_eq_ok : ∃ ct, genCodes nodes root = .ok ct := by
  obtain ⟨n, hroot⟩ := hwalk.root_exists
  cases n with
  | leaf sym f =>
    obtain ⟨i, rfl⟩ := hleaf sym f (nodeAt_mem hroot)
    exact ⟨_, (genCodes_of_leaf hroot).trans (recordCode_ordinalOf i _ _)⟩
  | internal f l r =>
    rw [genCodes_of_internal hroot]
    exact exists_walk_eq_ok hnodes hwalk hleaf hroot hwalk.root_lt [] noCodes

end

/-- Every tree of BUILD has a code table. -/
theorem exists_genCodes_of_buildTree {ft : Vector Count 95} {b : Built} (h : buildTree TieRule.hardware ft = some b) :
    ∃ ct, genCodes b.nodes b.root = .ok ct :=
  exists_genCodes_eq_ok (internalsAfter_of_buildTree h) (walkable_of_buildTree h) fun _ _ => exists_ordinalOf_of_leaf_mem h

/-! ## CLR, BUILD and GEN as the host sees them -/

theorem Engine.issue_clr (e : Engine) : e.issue .clr = some (.reset, ⟨.ok, 0⟩) :=
  Engine.issue_eq_of_exec (exec_clr_eq _) rfl

/-- BUILD has no tree exactly when every count is 0 (41_tree_builder.md R101). -/
theorem buildTree_eq_none_iff {t : TieRule} {ft : Vector Count 95} : buildTree t ft = none ↔ ∀ i : SymIdx, ft[i] = 0 := by
  have hqueue : buildTree t ft = none ↔ leavesOf ft = [] := by
    rw [← List.length_eq_zero_iff, ← initialQueue_length, List.length_eq_zero_iff]
    unfold buildTree
    split
    next h => simp [h]
    next h => simp [h]
  rw [hqueue, List.eq_nil_iff_forall_not_mem]
  refine ⟨fun h i => by_contra fun hi => h _ (mem_leavesOf_iff.mpr ⟨i, hi, rfl⟩), fun h x hx => ?_⟩
  obtain ⟨i, hi, -⟩ := mem_leavesOf_iff.mp hx
  exact hi (h i)

theorem exec_build_of_none {s : State} (hs : s.eng.phase = .load) (hb : buildTree TieRule.hardware s.eng.ft = none) :
    exec .build s = .next (s.respond .errEmpty 0) := by
  simp [exec, execBuild, hs, hb]

theorem exec_build_of_some {s : State} {b : Built} (hs : s.eng.phase = .load)
    (hb : buildTree TieRule.hardware s.eng.ft = some b) :
    exec .build s = .next ((s.installTree b.nodes (leavesOf s.eng.ft).length b.root).respond .ok 0) := by
  simp [exec, execBuild, hs, hb]

theorem exec_gen_of_genCodes {s : State} {ct : Vector (Option BitString) 95} (hs : s.eng.phase = .tree)
    (hct : genCodes s.eng.node s.eng.root = .ok ct) : exec .gen s = .next ((s.installCodes ct).respond .ok 0) := by
  simp [exec, execGen, hs, hct]

/-! ## CONSTRUCT from phase LOAD (30_encoding.md R78) -/

/-- With every count 0 the one response is ERR_EMPTY, and nothing changes. -/
theorem Expansion.run_build_gen_of_none {e : Engine} (he : e.phase = .load) (hb : buildTree TieRule.hardware e.ft = none) :
    (Expansion.ifOk .build .gen).run e = some (e, [⟨.errEmpty, 0⟩]) :=
  Expansion.run_ifOk_error (Engine.issue_eq_of_exec (exec_build_of_none he hb) rfl) (by decide)

/-- With a tree for the table both commands respond OK, and the engine is in phase CODED at the root. -/
theorem Expansion.run_build_gen_of_some {e : Engine} {b : Built} (he : e.phase = .load)
    (hb : buildTree TieRule.hardware e.ft = some b) :
    ∃ e', (Expansion.ifOk .build .gen).run e = some (e', [⟨.ok, 0⟩, ⟨.ok, 0⟩]) ∧ e'.phase = .coded ∧ e'.Inv ∧
      e'.ft = e.ft ∧ e'.dcur = e'.root := by
  obtain ⟨ct, hct⟩ := exists_genCodes_of_buildTree hb
  obtain ⟨n, hroot⟩ := (walkable_of_buildTree hb).root_exists
  refine ⟨_, Expansion.run_ifOk_ok (Engine.issue_eq_of_exec (exec_build_of_some he hb) rfl) rfl
    (Engine.issue_eq_of_exec (exec_gen_of_genCodes rfl hct) rfl), rfl, ?_, rfl, rfl⟩
  refine (Engine.inv_coded_iff rfl).mpr ⟨?_, ?_, ?_⟩
  · exact (Engine.builtFromTable_iff _).mpr ⟨b, hb, rfl, rfl, rfl, rfl⟩
  · exact (Engine.cursorOk_iff _).mpr ⟨n, hroot, .inl rfl⟩
  · exact (Engine.codesOfTree_iff _).mpr hct

/-! ## Construct -/

/-- Construct refuses a text with a count that does not fit (40_frequency_table.md R97). -/
theorem construct_of_count_too_large {text : List Nat} (e : Engine) {i : SymIdx} (hi : 2 ^ 32 ≤ (freqAnalyze text)[i]) :
    construct text e = .countTooLarge := by
  unfold construct
  rw [Engine.issue_clr, loadTable_eq_none hi]

/-- Otherwise it is CONSTRUCT, run from the reset state with the table of the text. -/
theorem construct_of_fits {text : List Nat} (e : Engine) (hfits : ∀ i : SymIdx, (freqAnalyze text)[i] < 2 ^ 32) :
    construct text e =
      .ofRun ((Expansion.ifOk .build .gen).run { Engine.reset with ft := tableOf (freqAnalyze text) }) := by
  obtain ⟨loads, hloads, hissue⟩ := exists_loadTable_issueAll hfits
  unfold construct
  simp only [Engine.issue_clr, hloads, hissue]

/-- A text without eligible characters has the all-zero table. -/
theorem tableOf_freqAnalyze_eq_reset_ft {text : List Nat} (h : ∀ o, o ∈ text → eligible o = false) :
    tableOf (freqAnalyze text) = Engine.reset.ft := by
  refine Vector.ext fun i hi => ?_
  have hcount : text.count (i + 32) = 0 := List.count_eq_zero.mpr fun hmem => by
    simpa [eligible, Nat.lt_succ_iff.mp hi] using h _ hmem
  have hget : (freqAnalyze text)[i] = 0 := (freqAnalyze_get text ⟨i, hi⟩).trans hcount
  simp [tableOf, hget]

/-- An eligible character of a text whose counts fit has a count above 0 in the engine's table. -/
theorem exists_tableOf_freqAnalyze_ne_zero {text : List Nat} (hfits : ∀ i : SymIdx, (freqAnalyze text)[i] < 2 ^ 32) {o : Nat}
    (hmem : o ∈ text) (ho : eligible o = true) : ∃ i : SymIdx, (tableOf (freqAnalyze text))[i] ≠ 0 := by
  obtain ⟨hlow, hhigh⟩ : 32 ≤ o ∧ o ≤ 126 := by simpa [eligible] using ho
  have hpos : 0 < text.count (o - 32 + 32) := List.count_pos_iff.mpr (by rwa [Nat.sub_add_cancel hlow])
  have hfit := hfits ⟨o - 32, by omega⟩
  refine ⟨⟨o - 32, by omega⟩, fun hzero => ?_⟩
  rw [freqAnalyze_get] at hfit
  rw [tableOf_get, freqAnalyze_get] at hzero
  have hmod := congrArg BitVec.toNat hzero
  rw [BitVec.toNat_ofNat, Nat.mod_eq_of_lt hfit] at hmod
  exact hpos.ne' hmod

/-- Settles O52: a count that does not fit stops the host before the loads; otherwise CONSTRUCT runs from the reset state with the
table of the text, and BUILD finds a tree exactly when some character is eligible. -/
theorem constructMakesACoderOrFails : Obligations.ConstructMakesACoderOrFails := by
  intro text e
  refine ⟨fun ⟨_, hi⟩ => construct_of_count_too_large e hi, fun hfits => ⟨fun hnone => ?_, fun ⟨o, hmem, ho⟩ => ?_⟩⟩
  · have hb : buildTree TieRule.hardware Engine.reset.ft = none := buildTree_eq_none_iff.mpr Engine.reset_ft_get
    have hrun : (Expansion.ifOk .build .gen).run { Engine.reset with ft := Engine.reset.ft } =
        some (.reset, [⟨.errEmpty, 0⟩]) := Expansion.run_build_gen_of_none Engine.reset_phase hb
    rw [construct_of_fits e hfits, tableOf_freqAnalyze_eq_reset_ft hnone, hrun, Constructed.ofRun_errEmpty _ rfl rfl]
  · obtain ⟨i, hi⟩ := exists_tableOf_freqAnalyze_ne_zero hfits hmem ho
    obtain ⟨b, hb⟩ := Option.ne_none_iff_exists'.mp fun hb => hi (buildTree_eq_none_iff.mp hb i)
    obtain ⟨e', hrun, hcoder⟩ :=
      Expansion.run_build_gen_of_some (e := { Engine.reset with ft := tableOf (freqAnalyze text) }) rfl hb
    exact ⟨e', by rw [construct_of_fits e hfits, hrun, Constructed.ofRun_ok e' rfl rfl], hcoder⟩

end Sys2Proof.Machine
end

section
/-! PROOFS. The errors (60_exceptions.md). A legal command does one of three things: the table does not permit it and it answers
ERR_STATE, it is a BUILD without a symbol to build from and answers ERR_EMPTY, or it completes with OK. The last can stop the
model instead, but not from a state with the invariant: every node such a command reads exists there, and GEN's walk ends. -/

namespace Sys2Proof.Machine

open Sys2Proof.Config (TieRule)

/-! ## Legality (R183) -/

/-- The decoder accepts exactly the words that are legal by the field table. -/
theorem legal_ofWord_iff {w : CommandWord} : (Fields.ofWord w).legal = true ↔ ∃ i, decode w = .ok i := by
  simp only [decode, decodeFields_eq_ok_iff]
  exact ⟨Fields.exists_toFields_of_legal, fun ⟨i, hi⟩ => hi ▸ i.toFields_legal⟩

theorem step_legal_word {w : CommandWord} {i : Instr} (h : decode w = .ok i) {s : State} {rest : List HostEvent}
    (hs : s.input = .command w :: rest) : step s = exec i { s with input := rest } := by
  simp [step, hs, (fetch_eq_some_iff w i).mpr h]

/-! ## Permission (R182) -/

theorem exec_of_not_permitted {i : Instr} {s : State} (h : permitted i.op s.eng.phase = false) :
    exec i s = .next (s.respond .errState 0) := by
  cases i with
  | clr | rdf | rds => cases h
  | ldf | build =>
    have hs : s.eng.phase ≠ .load := by simpa [Instr.op, permitted] using h
    simp [exec, execLdf, execBuild, hs]
  | gen =>
    have hs : s.eng.phase ≠ .tree := by simpa [Instr.op, permitted] using h
    simp [exec, execGen, hs]
  | rdc =>
    have hs : s.eng.phase ≠ .coded := by simpa [Instr.op, permitted] using h
    simp [exec, execRdc, hs]
  | rdn | drst | dbit =>
    have hs : s.eng.phase = .load := by simpa [Instr.op, permitted] using h
    simp [exec, execRdn, execDrst, execDbit, hs]

/-! ## A permitted command -/

/-- The outcome `r` of a command in `s` is an OK response and no other change of the port, or else a fault, which no state with
the invariant has. -/
def CompletesOrStops (s : State) (r : Result) : Prop :=
  (∃ (u : State) (data : Data), u.input = s.input ∧ u.responses = s.responses ∧ r = .next (u.respond .ok data)) ∨
    (¬ s.Inv ∧ ∃ f, r = .fault f)

theorem CompletesOrStops.of_respond {s u : State} {data : Data} (hin : u.input = s.input)
    (hresp : u.responses = s.responses) : CompletesOrStops s (.next (u.respond .ok data)) :=
  .inl ⟨u, data, hin, hresp, rfl⟩

/-- Reading a node does not stop where the invariant gives the node. -/
theorem CompletesOrStops.of_withNode {s : State} {j : NodeIdx} {k : Node → Result}
    (hj : s.Inv → ∃ n, nodeAt s.eng.node j = some n)
    (hk : ∀ n, nodeAt s.eng.node j = some n → CompletesOrStops s (k n)) : CompletesOrStops s (withNode j s k) := by
  obtain ⟨n, hn, hw⟩ | ⟨hnone, hw⟩ := withNode_cases j s k
  · exact hw ▸ hk n hn
  · refine .inr ⟨fun hinv => ?_, _, hw⟩
    obtain ⟨n, hn⟩ := hj hinv
    cases hnone.symm.trans hn

/-- Every index below `nnodes` names a node (10_state.md R25). -/
theorem Engine.nnodes_le_of_inv {e : Engine} (h : e.Inv) : e.nnodes.toNat ≤ e.node.length := by
  have of_built (hbuilt : e.builtFromTable = true) : e.nnodes.toNat ≤ e.node.length := by
    obtain ⟨b, -, hnode, -, -, hnn⟩ := e.builtFromTable_iff.mp hbuilt
    rw [hnn, hnode, BitVec.toNat_ofNat]
    exact Nat.mod_le _ _
  cases hp : e.phase with
  | load =>
    obtain ⟨-, hnn, -⟩ := (Engine.inv_load_iff hp).mp h
    simp [hnn]
  | tree => exact of_built ((Engine.inv_tree_iff hp).mp h).1
  | coded => exact of_built ((Engine.inv_coded_iff hp).mp h).1

/-- With a tree the cursor names a node (43_decoder.md R141). -/
theorem Engine.exists_nodeAt_dcur_of_inv {e : Engine} (h : e.Inv) (he : e.phase ≠ .load) :
    ∃ n, nodeAt e.node e.dcur = some n := by
  have hcursor : e.cursorOk = true := by
    cases hp : e.phase with
    | load => exact absurd hp he
    | tree => exact ((Engine.inv_tree_iff hp).mp h).2.1
    | coded => exact ((Engine.inv_coded_iff hp).mp h).2.1
  obtain ⟨n, hn, -⟩ := e.cursorOk_iff.mp hcursor
  exact ⟨n, hn⟩

theorem Engine.walkable_of_inv {e : Engine} (h : e.Inv) (he : e.phase ≠ .load) : Walkable e.node e.root := by
  obtain ⟨b, hb, hnode, hroot⟩ := Engine.exists_buildTree_of_inv h he
  exact hnode ▸ hroot ▸ walkable_of_buildTree hb

theorem exec_ldf_completesOrStops {s : State} (hs : s.eng.phase = .load) (c : CharCode) (count : Count) :
    CompletesOrStops s (exec (.ldf c count) s) := by
  cases hc : symIndex c with
  | some i => exact exec_ldf_of_symIndex hs hc count ▸ .of_respond rfl rfl
  | none =>
    have hexec : exec (.ldf c count) s = .next (s.respond .ok 0) := by simp [exec, execLdf, hs, hc]
    exact hexec ▸ .of_respond rfl rfl

theorem exec_gen_completesOrStops {s : State} (hs : s.eng.phase = .tree) : CompletesOrStops s (exec .gen s) := by
  cases hct : genCodes s.eng.node s.eng.root with
  | ok ct => exact exec_gen_of_genCodes hs hct ▸ .of_respond rfl rfl
  | error f =>
    refine .inr ⟨fun hinv => ?_, f, by simp [exec, execGen, hs, hct]⟩
    obtain ⟨b, hb, hnode, hroot⟩ := Engine.exists_buildTree_of_inv hinv (by simp [hs])
    obtain ⟨ct, hct'⟩ := exists_genCodes_of_buildTree hb
    rw [hnode, hroot, hct'] at hct
    cases hct

theorem exec_rdn_completesOrStops {s : State} (hs : s.eng.phase ≠ .load) (j : NodeIdx) :
    CompletesOrStops s (exec (.rdn j) s) := by
  simp only [exec, execRdn, if_neg hs, complete_eq]
  split
  next => exact .of_respond rfl rfl
  next hj =>
    refine .of_withNode (fun hinv => ?_) fun n _ => .of_respond rfl rfl
    have hnn := Engine.nnodes_le_of_inv hinv
    exact exists_nodeAt_of_lt (by omega)

theorem exec_dbit_completesOrStops {s : State} (hs : s.eng.phase ≠ .load) (b : Bool) :
    CompletesOrStops s (exec (.dbit b) s) := by
  rw [exec, execDbit, if_neg hs]
  refine .of_withNode (fun hinv => Engine.exists_nodeAt_dcur_of_inv hinv hs) fun n hn => ?_
  refine .of_withNode (fun hinv => (Engine.walkable_of_inv hinv hs).bitTarget_exists b hn) fun m _ => ?_
  cases m with
  | leaf => exact .of_respond rfl rfl
  | internal => exact .of_respond rfl rfl

/-- A permitted command completes, unless it is a BUILD with every count 0. -/
theorem exec_completesOrStops {i : Instr} {s : State} (h : permitted i.op s.eng.phase = true)
    (hne : ¬ (i = .build ∧ ∀ k : SymIdx, s.eng.ft[k] = 0)) : CompletesOrStops s (exec i s) := by
  cases i with
  | clr => exact exec_clr_eq s ▸ .of_respond rfl rfl
  | ldf c count => exact exec_ldf_completesOrStops (by simpa [Instr.op, permitted] using h) c count
  | rdf c => exact .of_respond rfl rfl
  | build =>
    have hs : s.eng.phase = .load := by simpa [Instr.op, permitted] using h
    obtain ⟨b, hb⟩ := Option.ne_none_iff_exists'.mp fun hb => hne ⟨rfl, buildTree_eq_none_iff.mp hb⟩
    exact exec_build_of_some hs hb ▸ .of_respond rfl rfl
  | gen => exact exec_gen_completesOrStops (by simpa [Instr.op, permitted] using h)
  | rdn j => exact exec_rdn_completesOrStops (by simpa [Instr.op, permitted] using h) j
  | rdc c => exact exec_rdc_coded (by simpa [Instr.op, permitted] using h) c ▸ .of_respond rfl rfl
  | rds => exact .of_respond rfl rfl
  | drst => exact exec_drst_eq (by simpa [Instr.op, permitted] using h) ▸ .of_respond rfl rfl
  | dbit b => exact exec_dbit_completesOrStops (by simpa [Instr.op, permitted] using h) b

/-! ## Everything a legal command can do (R185) -/

/-- The three ways of a legal command, which exclude one another. -/
theorem exec_cases (i : Instr) (s : State) :
    (permitted i.op s.eng.phase = false ∧ exec i s = .next (s.respond .errState 0)) ∨
    (i = .build ∧ s.eng.phase = .load ∧ (∀ k : SymIdx, s.eng.ft[k] = 0) ∧ exec i s = .next (s.respond .errEmpty 0)) ∨
    (permitted i.op s.eng.phase = true ∧ ¬ (i = .build ∧ ∀ k : SymIdx, s.eng.ft[k] = 0) ∧
      CompletesOrStops s (exec i s)) := by
  cases h : permitted i.op s.eng.phase with
  | false => exact .inl ⟨rfl, exec_of_not_permitted h⟩
  | true =>
    by_cases hne : i = .build ∧ ∀ k : SymIdx, s.eng.ft[k] = 0
    · obtain ⟨rfl, hzero⟩ := hne
      have hs : s.eng.phase = .load := by simpa [Instr.op, permitted] using h
      exact .inr (.inl ⟨rfl, hs, hzero, exec_build_of_none hs (buildTree_eq_none_iff.mpr hzero)⟩)
    · exact .inr (.inr ⟨rfl, hne, exec_completesOrStops h hne⟩)

/-- The response of a command that answers. -/
theorem exec_response_cases {i : Instr} {s t : State} {r : Response} (h : exec i s = .next t)
    (hr : t.responses = s.responses ++ [r]) :
    (permitted i.op s.eng.phase = false ∧ t = s.respond .errState 0 ∧ r = ⟨.errState, 0⟩) ∨
    (i = .build ∧ s.eng.phase = .load ∧ (∀ k : SymIdx, s.eng.ft[k] = 0) ∧ t = s.respond .errEmpty 0 ∧
      r = ⟨.errEmpty, 0⟩) ∨
    (permitted i.op s.eng.phase = true ∧ r.status = .ok) := by
  obtain ⟨hp, hexec⟩ | ⟨hi, hs, hzero, hexec⟩ | ⟨hp, -, ⟨u, data, -, hresp, hexec⟩ | ⟨-, f, hexec⟩⟩ := exec_cases i s <;>
    cases h.symm.trans hexec
  · exact .inl ⟨hp, rfl, by simpa using hr.symm⟩
  · exact .inr (.inl ⟨hi, hs, hzero, rfl, by simpa using hr.symm⟩)
  · obtain rfl : ⟨.ok, data⟩ = r := by simpa [hresp] using hr
    exact .inr (.inr ⟨hp, rfl⟩)

theorem op_eq_build_iff {i : Instr} : i.op = .build ↔ i = .build := by cases i <;> simp [Instr.op]

theorem allZero_iff {ft : Vector Count 95} : allZero ft = true ↔ ∀ k : SymIdx, ft[k] = 0 := by simp [allZero]

/-- In a state with the invariant a legal command answers with the status that the order of the tests gives it. -/
theorem exists_exec_eq_of_inv {w : CommandWord} {i : Instr} (hw : decode w = .ok i) {s : State} (hinv : s.Inv) :
    ∃ (t : State) (data : Data), exec i s = .next t ∧ t.input = s.input ∧
      t.responses = s.responses ++ [⟨expectedStatus w s.eng, data⟩] ∧ (expectedStatus w s.eng ≠ .ok → data = 0) := by
  obtain ⟨hp, hexec⟩ | ⟨rfl, hs, hzero, hexec⟩ | ⟨hp, hne, ⟨u, data, hin, hresp, hexec⟩ | ⟨hbad, -⟩⟩ := exec_cases i s
  · exact ⟨_, 0, hexec, rfl, by simp [expectedStatus, hw, hp], fun _ => rfl⟩
  · have hstatus : expectedStatus w s.eng = .errEmpty := by
      simp [expectedStatus, hw, permitted, Instr.op, hs, allZero_iff.mpr hzero]
    exact ⟨_, 0, hexec, rfl, by simp [hstatus], fun _ => rfl⟩
  · have hop : ¬ (i.op = .build ∧ allZero s.eng.ft = true) := by rwa [op_eq_build_iff, allZero_iff]
    have hstatus : expectedStatus w s.eng = .ok := by simp only [expectedStatus, hw, if_pos hp, if_neg hop]
    exact ⟨_, data, hexec, hin, by simp [hstatus, hresp], fun h => absurd hstatus h⟩
  · exact absurd hinv hbad

/-! ## The obligations -/

/-- Settles O16: an illegal word answers ERR_ILLEGAL, and a legal command goes one of three ways, none of them a stop. -/
theorem statusOfEveryCommandWord : Obligations.StatusOfEveryCommandWord := by
  intro s w rest hinv hs
  cases hw : decode w with
  | error e =>
    have hstatus : expectedStatus w s.eng = .errIllegal := by simp [expectedStatus, hw]
    exact ⟨_, 0, step_illegal_word hw hs, rfl, by simp [hstatus], fun _ => rfl⟩
  | ok i =>
    rw [step_legal_word hw hs]
    exact exists_exec_eq_of_inv hw (s := { s with input := rest }) hinv

/-- Settles O17: only a command that is not permitted answers ERR_STATE, and one with the invariant never stops. -/
theorem permissionTable : Obligations.PermissionTable := by
  intro i s
  refine ⟨exec_of_not_permitted, fun hp t r hexec hr => ?_, fun _ hinv => ?_⟩
  · obtain ⟨hnp, -⟩ | ⟨hi, -, -, -, rfl⟩ | ⟨-, hok⟩ := exec_response_cases hexec hr
    · cases hp.symm.trans hnp
    · exact .inr ⟨hi, rfl⟩
    · exact .inl hok
  · obtain ⟨t, data, hexec, -, hresp, -⟩ := exists_exec_eq_of_inv (decode_eq_ok_iff.mpr rfl) hinv
    exact ⟨t, _, hexec, hresp⟩

/-- Settles O18: the decoder rejects exactly the illegal words, and no legal command answers ERR_ILLEGAL. -/
theorem errIllegalExactlyForIllegalWords : Obligations.ErrIllegalExactlyForIllegalWords := by
  intro s w rest hs
  refine ⟨fun hlegal => ?_, fun hlegal t r hstep hr => ?_⟩
  · cases hw : decode w with
    | error e => exact step_illegal_word hw hs
    | ok i => cases hlegal.symm.trans (legal_ofWord_iff.mpr ⟨i, hw⟩)
  · obtain ⟨i, hw⟩ := legal_ofWord_iff.mp hlegal
    rw [step_legal_word hw hs] at hstep
    obtain ⟨-, -, rfl⟩ | ⟨-, -, -, -, rfl⟩ | ⟨-, hok⟩ := exec_response_cases hstep hr
    · decide
    · decide
    · simp [hok]

/-- Settles O19: each of the three errors is a response with data 0 to the state as it was. -/
theorem errorsChangeNothing : Obligations.ErrorsChangeNothing := by
  intro s t w rest r hs hstep hr herr
  cases hw : decode w with
  | error e =>
    cases hstep.symm.trans (step_illegal_word hw hs)
    obtain rfl : ⟨.errIllegal, 0⟩ = r := by simpa using hr
    exact ⟨rfl, rfl⟩
  | ok i =>
    rw [step_legal_word hw hs] at hstep
    obtain ⟨-, rfl, rfl⟩ | ⟨-, -, -, rfl, rfl⟩ | ⟨-, hok⟩ := exec_response_cases hstep hr
    · exact ⟨rfl, rfl⟩
    · exact ⟨rfl, rfl⟩
    · exact absurd hok herr

/-- Settles O20: of the three ways of a command only that of a BUILD with every count 0 answers ERR_EMPTY. -/
theorem errEmptyExactlyWhenEveryCountIsZero : Obligations.ErrEmptyExactlyWhenEveryCountIsZero := by
  intro i s
  have hbuild (hi : i = .build) (hs : s.eng.phase = .load) (hzero : ∀ k : SymIdx, s.eng.ft[k] = 0) :
      exec i s = .next (s.respond .errEmpty 0) :=
    hi ▸ exec_build_of_none hs (buildTree_eq_none_iff.mpr hzero)
  refine ⟨⟨fun ⟨t, data, hexec, hr⟩ => ?_, fun ⟨hi, hs, hzero⟩ => ⟨_, 0, hbuild hi hs hzero, rfl⟩⟩, hbuild⟩
  obtain ⟨-, -, hbad⟩ | ⟨hi, hs, hzero, -⟩ | ⟨-, hbad⟩ := exec_response_cases hexec hr
  · cases hbad
  · exact ⟨hi, hs, hzero⟩
  · cases hbad

end Sys2Proof.Machine
end

section
/-! PROOFS. Encoding (30_encoding.md R71 to R77): encoder and decoder are inverse to one another, the decoder accepts exactly the
legal fields, and two rows of the opcode map that spell one word are the row of the one command it decodes to. -/

namespace Sys2Proof

/-- Settles O1: the decoder inverts the encoder, and the fields of a command pass the checks of its row of the field table. -/
theorem decodeEncodeAgree : Obligations.DecodeEncodeAgree := fun i =>
  ⟨decode_eq_ok_iff.mpr rfl, by rw [encode, Fields.ofWord_toWord, Instr.toFields_legal]⟩

/-- Settles O3: the legal fields are the fields of the instructions, and those are what the decoder accepts. -/
theorem decodedExactlyWhenFieldsAreLegal : Obligations.DecodedExactlyWhenFieldsAreLegal := fun _ =>
  Machine.legal_ofWord_iff.symm

/-! ## The opcode map (R74) -/

/-- A value is unassigned exactly when it is 0 or above the last opcode, 0x0A. -/
theorem Op.ofCode?_eq_none_iff : ∀ c : BitVec 8, Op.ofCode? c = none ↔ c.toNat = 0 ∨ 11 ≤ c.toNat := by decide

theorem Op.row_pattern (o : Op) : o.row.pattern = o.code ++ 0#56 := by cases o <;> decide

theorem mem_opcodeTable_iff {r : OpcodeRow} : r ∈ opcodeTable ↔ r = r.op.row := by
  rw [opcodeTable_eq_map_row, List.mem_map]
  constructor
  · rintro ⟨o, -, rfl⟩
    rfl
  · exact fun h => ⟨r.op, by cases r.op <;> decide, h.symm⟩

/-- Two rows that spell one word are the row of the one command that the word decodes to. -/
theorem Op.eq_of_row_spells {o o' : Op} {w : CommandWord} (h : o.row.spells w = true) (h' : o'.row.spells w = true) :
    o = o' := by
  obtain ⟨i, hi, rfl⟩ := Op.row_spells_iff.mp h
  obtain ⟨i', hi', rfl⟩ := Op.row_spells_iff.mp h'
  cases hi.symm.trans hi'
  rfl

/-- Settles O4: every row of the map is the row made from the field table for its command, and a word that two rows spell decodes
to both their commands. -/
theorem opcodeRowsArePairwiseDisjoint : Obligations.OpcodeRowsArePairwiseDisjoint := by
  refine ⟨by decide, by decide, fun r hr => ?_, Op.ofCode?_eq_none_iff, fun w r r' hr hr' hs hs' => ?_⟩
  · rw [mem_opcodeTable_iff.mp hr]
    exact Op.row_pattern _
  · rw [mem_opcodeTable_iff] at hr hr'
    rw [hr] at hs
    rw [hr'] at hs'
    rw [hr, hr', Op.eq_of_row_spells hs hs']

/-! ## Sample words and lines (R77) -/

/-- Settles O5: each word is decoded. -/
theorem sampleWordsDecode : Obligations.SampleWordsDecode := by
  unfold Obligations.SampleWordsDecode
  decide

/-- Settles O6: each line is assembled. -/
theorem workedLinesAssemble : Obligations.WorkedLinesAssemble := by
  unfold Obligations.WorkedLinesAssemble
  decide

end Sys2Proof
end

section
/-! PROOFS. One step of the machine (00_scope.md R11): a legal word is executed, a reset ends in the reset state, and without an
event nothing changes. -/

namespace Sys2Proof.Machine

/-- Settles O7: a legal word is fetched as the command it decodes to. -/
theorem stepRunsTheDecodedCommand : Obligations.StepRunsTheDecodedCommand := fun _ _ _ _ hs hw => step_legal_word hw hs

theorem step_reset {s : State} {rest : List HostEvent} (hs : s.input = .reset :: rest) :
    step s = .next { State.reset with input := rest } := by
  simp [step, hs, takeReset]

theorem step_idle {s : State} (hs : s.input = []) : step s = .next s := by simp [step, hs]

/-- Settles O8: the two steps that run no command. -/
theorem resetAndIdleSteps : Obligations.ResetAndIdleSteps := ⟨fun _ _ => step_reset, fun _ => step_idle⟩

/-- Settles O10: CLR clears the engine and answers, a reset starts from the reset state. -/
theorem clrReachesTheResetState : Obligations.ClrReachesTheResetState := fun s =>
  ⟨exec_clr_eq s, fun _ => ⟨_, step_reset rfl, rfl, rfl⟩⟩

end Sys2Proof.Machine
end

section
/-! PROOFS. What a command that answers does to the engine, said once for all ten commands; the frames (20_memory.md R56, R60, the
`Writes` clauses), the phase machine (44_control.md R155) and the invariant (45_invariants.md R160) follow from it. -/

namespace Sys2Proof.Machine

open Sys2Proof.Config (TieRule)

/-- What a command that answers can do to the engine `e`: nothing, where the phase machine keeps the phase too, or what its own
`Writes` clause says. -/
inductive Effect (e : Engine) : Instr → Engine → Prop
  | keeps {i : Instr} (hphase : nextPhase i.op e = e.phase) : Effect e i e
  | clears : Effect e .clr .reset
  | loads {c : CharCode} {k : SymIdx} (count : Count) (hphase : e.phase = .load) (hc : symIndex c = some k) :
      Effect e (.ldf c count) { e with ft := e.ft.set k count }
  | builds {b : Built} (hphase : e.phase = .load) (hb : buildTree TieRule.hardware e.ft = some b) :
      Effect e .build
        { e with
          node := b.nodes
          nleaves := BitVec.ofNat 8 (leavesOf e.ft).length
          nnodes := BitVec.ofNat 8 b.nodes.length
          root := b.root
          dcur := b.root
          phase := .tree }
  | generates {ct : Vector (Option BitString) 95} (hphase : e.phase = .tree) (hct : genCodes e.node e.root = .ok ct) :
      Effect e .gen { e with ct := ct, phase := .coded }
  | rewinds (hphase : e.phase ≠ .load) : Effect e .drst { e with dcur := e.root }
  | moves {b : Bool} {k : NodeIdx} (hphase : e.phase ≠ .load)
      (hk : k = e.root ∨ ∃ f l r, nodeAt e.node k = some (.internal f l r)) :
      Effect e (.dbit b) { e with dcur := k }

/-! ## The commands -/

theorem nextPhase_of_not_permitted {o : Op} {e : Engine} (h : permitted o e.phase = false) : nextPhase o e = e.phase := by
  cases o with
  | clr | rdf | rds => cases h
  | ldf | rdn | rdc | drst | dbit => rfl
  | build =>
    cases hp : e.phase with
    | load => simp [permitted, hp] at h
    | tree | coded => simp [nextPhase, hp]
  | gen =>
    cases hp : e.phase with
    | tree => simp [permitted, hp] at h
    | load | coded => simp [nextPhase, hp]

/-- In phase LOAD an LDF with an ordinal outside the alphabet answers OK and writes nothing (R90). -/
theorem exec_ldf_of_outside {s : State} {c : CharCode} (hs : s.eng.phase = .load) (hc : symIndex c = none) (count : Count) :
    exec (.ldf c count) s = .next (s.respond .ok 0) := by
  simp [exec, execLdf, hs, hc]

theorem exec_ldf_effect {s t : State} {c : CharCode} {count : Count} (hs : s.eng.phase = .load)
    (h : exec (.ldf c count) s = .next t) : Effect s.eng (.ldf c count) t.eng := by
  cases hc : symIndex c with
  | some k =>
    cases h.symm.trans (exec_ldf_of_symIndex hs hc count)
    exact .loads count hs hc
  | none =>
    cases h.symm.trans (exec_ldf_of_outside hs hc count)
    exact .keeps rfl

theorem exec_build_effect {s t : State} (hs : s.eng.phase = .load) (h : exec .build s = .next t) :
    Effect s.eng .build t.eng := by
  cases hb : buildTree TieRule.hardware s.eng.ft with
  | none =>
    cases h.symm.trans (exec_build_of_none hs hb)
    exact .keeps (by simp [Instr.op, nextPhase, hs, allZero_iff.mpr (buildTree_eq_none_iff.mp hb)])
  | some b =>
    cases h.symm.trans (exec_build_of_some hs hb)
    exact .builds hs hb

theorem exec_gen_effect {s t : State} (hs : s.eng.phase = .tree) (h : exec .gen s = .next t) : Effect s.eng .gen t.eng := by
  cases hct : genCodes s.eng.node s.eng.root with
  | ok ct =>
    cases h.symm.trans (exec_gen_of_genCodes hs hct)
    exact .generates hs hct
  | error f =>
    rw [show exec .gen s = .fault f by simp [exec, execGen, hs, hct]] at h
    cases h

theorem exec_rdn_effect {s t : State} {j : NodeIdx} (hs : s.eng.phase ≠ .load) (h : exec (.rdn j) s = .next t) :
    Effect s.eng (.rdn j) t.eng := by
  have hkeeps : t.eng = s.eng := by
    simp only [exec, execRdn, if_neg hs, complete_eq] at h
    split at h
    · cases h
      rfl
    · obtain ⟨n, -, hw⟩ | ⟨-, hw⟩ := withNode_cases j s fun n => .next (s.respond .ok (nodeData n))
      · cases h.symm.trans hw
        rfl
      · cases h.symm.trans hw
  exact hkeeps ▸ .keeps rfl

theorem exec_dbit_effect {s t : State} {b : Bool} (hs : s.eng.phase ≠ .load) (h : exec (.dbit b) s = .next t) :
    Effect s.eng (.dbit b) t.eng := by
  rw [exec, execDbit, if_neg hs] at h
  obtain ⟨n, -, hw⟩ | ⟨-, hw⟩ := withNode_cases s.eng.dcur s fun n =>
    withNode (bitTarget b s.eng.dcur n) s (arrive (bitTarget b s.eng.dcur n) s)
  · rw [hw] at h
    obtain ⟨m, hm, hw'⟩ | ⟨-, hw'⟩ := withNode_cases (bitTarget b s.eng.dcur n) s (arrive (bitTarget b s.eng.dcur n) s)
    · cases m with
      | leaf =>
        cases h.symm.trans hw'
        exact .moves hs (.inl rfl)
      | internal =>
        cases h.symm.trans hw'
        exact .moves hs (.inr ⟨_, _, _, hm⟩)
    · cases h.symm.trans hw'
  · cases h.symm.trans hw

/-- Every command that answers has one of the effects. -/
theorem exec_effect {i : Instr} {s t : State} (h : exec i s = .next t) : Effect s.eng i t.eng := by
  cases hp : permitted i.op s.eng.phase with
  | false =>
    cases h.symm.trans (exec_of_not_permitted hp)
    exact .keeps (nextPhase_of_not_permitted hp)
  | true =>
    cases i with
    | clr =>
      cases h
      exact .clears
    | ldf => exact exec_ldf_effect (by simpa [Instr.op, permitted] using hp) h
    | build => exact exec_build_effect (by simpa [Instr.op, permitted] using hp) h
    | gen => exact exec_gen_effect (by simpa [Instr.op, permitted] using hp) h
    | rdn => exact exec_rdn_effect (by simpa [Instr.op, permitted] using hp) h
    | rdc c =>
      cases h.symm.trans (exec_rdc_coded (by simpa [Instr.op, permitted] using hp) c)
      exact .keeps rfl
    | rdf | rds =>
      cases h
      exact .keeps rfl
    | drst =>
      have hs : s.eng.phase ≠ .load := by simpa [Instr.op, permitted] using hp
      cases h.symm.trans (exec_drst_eq hs)
      exact .rewinds hs
    | dbit => exact exec_dbit_effect (by simpa [Instr.op, permitted] using hp) h

/-! ## The phase machine (R155) and the frames -/

theorem Effect.phase {e e' : Engine} {i : Instr} (h : Effect e i e') : e'.phase = nextPhase i.op e := by
  cases h with
  | keeps hphase => exact hphase.symm
  | clears | rewinds | moves => rfl
  | loads _ hphase _ => simp [Instr.op, nextPhase]
  | generates hphase _ => simp [Instr.op, nextPhase, hphase]
  | builds hphase hb =>
    have hne : allZero e.ft = false := by
      rw [Bool.eq_false_iff, ne_eq, allZero_iff, ← buildTree_eq_none_iff (t := TieRule.hardware), hb]
      simp
    simp [Instr.op, nextPhase, hphase, hne]

/-- Settles O23: the phase of each effect is the one of the phase machine. -/
theorem phaseMachine : Obligations.PhaseMachine := fun _ _ _ h => (exec_effect h).phase

/-- An answer joins the responses, and the port is otherwise as it was. -/
theorem exec_port_frame {i : Instr} {s t : State} (h : exec i s = .next t) :
    t.input = s.input ∧ ∃ r, t.responses = s.responses ++ [r] := by
  obtain ⟨-, hexec⟩ | ⟨-, -, -, hexec⟩ | ⟨-, -, ⟨u, data, hin, hresp, hexec⟩ | ⟨-, f, hexec⟩⟩ := exec_cases i s <;>
    cases h.symm.trans hexec
  · exact ⟨rfl, _, rfl⟩
  · exact ⟨rfl, _, rfl⟩
  · exact ⟨hin, _, by rw [State.respond_responses, hresp]⟩

theorem Effect.ldf_frame {e e' : Engine} {c : CharCode} {count : Count} (h : Effect e (.ldf c count) e') :
    e' = { e with ft := e'.ft } ∧ ∀ k : SymIdx, c.toNat ≠ k.val + 32 → e'.ft[k] = e.ft[k] := by
  cases h with
  | keeps => exact ⟨rfl, fun _ _ => rfl⟩
  | loads _ _ hc =>
    rw [symIndex_eq_some_iff] at hc
    refine ⟨rfl, fun k hk => (setFt_get _ k count ⟨e, [], []⟩).trans (if_neg ?_)⟩
    rintro rfl
    exact hk hc

theorem Effect.build_frame {e e' : Engine} (h : Effect e .build e') : e'.ft = e.ft ∧ e'.ct = e.ct := by
  cases h with
  | keeps | builds => exact ⟨rfl, rfl⟩

theorem Effect.gen_frame {e e' : Engine} (h : Effect e .gen e') : e' = { e with ct := e'.ct, phase := e'.phase } := by
  cases h with
  | keeps | generates => rfl

theorem Effect.drst_frame {e e' : Engine} (h : Effect e .drst e') : e' = { e with dcur := e'.dcur } := by
  cases h with
  | keeps | rewinds => rfl

theorem Effect.dbit_frame {e e' : Engine} {b : Bool} (h : Effect e (.dbit b) e') : e' = { e with dcur := e'.dcur } := by
  cases h with
  | keeps | moves => rfl

/-- Settles O22: each writing command's effect, and the one response. -/
theorem writingCommandsChangeOnlyWhatTheyWrite : Obligations.WritingCommandsChangeOnlyWhatTheyWrite := fun _ _ =>
  ⟨fun _ _ h => (exec_effect h).ldf_frame, fun h => (exec_effect h).build_frame, fun h => (exec_effect h).gen_frame,
    fun h => (exec_effect h).drst_frame, fun _ h => (exec_effect h).dbit_frame, fun _ => exec_port_frame⟩

/-- With a tree, LDF and BUILD are without effect, and so is GEN once a code table exists. -/
theorem Effect.tree_frame {e e' : Engine} {i : Instr} (heff : Effect e i e') (he : e.phase ≠ .load) (hclr : i ≠ .clr) :
    e'.ft = e.ft ∧ e'.node = e.node ∧ e'.nleaves = e.nleaves ∧ e'.nnodes = e.nnodes ∧ e'.root = e.root ∧
      (e.phase = .coded → e'.ct = e.ct ∧ e'.phase = .coded) := by
  cases heff with
  | keeps => exact ⟨rfl, rfl, rfl, rfl, rfl, fun hp => ⟨rfl, hp⟩⟩
  | clears => exact absurd rfl hclr
  | loads _ hphase _ => exact absurd hphase he
  | builds hphase _ => exact absurd hphase he
  | generates hphase _ => exact ⟨rfl, rfl, rfl, rfl, rfl, fun hp => by cases hphase.symm.trans hp⟩
  | rewinds | moves => exact ⟨rfl, rfl, rfl, rfl, rfl, fun hp => ⟨rfl, hp⟩⟩

/-- Settles O24: with a tree no effect but that of CLR writes the table or the tree. -/
theorem treeAndTableAreImmutable : Obligations.TreeAndTableAreImmutable := fun _ _ _ hs hclr h =>
  (exec_effect h).tree_frame hs hclr

/-! ## The invariant (R160) -/

theorem Engine.inv_reset : Engine.reset.Inv :=
  (Engine.inv_load_iff rfl).mpr ⟨rfl, rfl, rfl, rfl, rfl, rfl⟩

/-- Settles O12: in phase LOAD every component but FT is empty. -/
theorem invariantHoldsAtReset : Obligations.InvariantHoldsAtReset := Engine.inv_reset

/-- BUILD ends with the cursor at the root of the table's tree, and no code. -/
theorem Engine.inv_of_build {e : Engine} {b : Built} (hb : buildTree TieRule.hardware e.ft = some b) (hct : e.ct = noCodes) :
    Engine.Inv
      { e with
        node := b.nodes
        nleaves := BitVec.ofNat 8 (leavesOf e.ft).length
        nnodes := BitVec.ofNat 8 b.nodes.length
        root := b.root
        dcur := b.root
        phase := .tree } := by
  obtain ⟨n, hroot⟩ := (walkable_of_buildTree hb).root_exists
  exact (Engine.inv_tree_iff rfl).mpr ⟨(Engine.builtFromTable_iff _).mpr ⟨b, hb, rfl, rfl, rfl, rfl⟩,
    (Engine.cursorOk_iff _).mpr ⟨n, hroot, .inl rfl⟩, hct⟩

/-- The cursor may go to the root and to any Internal node. -/
theorem Engine.inv_of_move {e : Engine} (h : e.Inv) (he : e.phase ≠ .load) {k : NodeIdx}
    (hk : k = e.root ∨ ∃ f l r, nodeAt e.node k = some (.internal f l r)) : Engine.Inv { e with dcur := k } := by
  have hcursor : Engine.cursorOk { e with dcur := k } = true := by
    refine (Engine.cursorOk_iff _).mpr ?_
    obtain rfl | ⟨f, l, r, hn⟩ := hk
    · obtain ⟨n, hroot⟩ := (Engine.walkable_of_inv h he).root_exists
      exact ⟨n, hroot, .inl rfl⟩
    · exact ⟨_, hn, .inr rfl⟩
  have hphase : e.phase = .tree ∨ e.phase = .coded := by
    cases hp : e.phase with
    | load => exact absurd hp he
    | tree => exact .inl rfl
    | coded => exact .inr rfl
  obtain hp | hp := hphase
  · obtain ⟨hbuilt, -, hct⟩ := (Engine.inv_tree_iff hp).mp h
    exact (Engine.inv_tree_iff (e := { e with dcur := k }) hp).mpr ⟨hbuilt, hcursor, hct⟩
  · obtain ⟨hbuilt, -, hcodes⟩ := (Engine.inv_coded_iff hp).mp h
    exact (Engine.inv_coded_iff (e := { e with dcur := k }) hp).mpr ⟨hbuilt, hcursor, hcodes⟩

theorem Effect.inv {e e' : Engine} {i : Instr} (h : e.Inv) (heff : Effect e i e') : e'.Inv := by
  cases heff with
  | keeps => exact h
  | clears => exact Engine.inv_reset
  | @loads _ k count hphase _ =>
    exact (Engine.inv_load_iff (e := { e with ft := e.ft.set k count }) hphase).mpr ((Engine.inv_load_iff hphase).mp h)
  | builds hphase hb =>
    obtain ⟨-, -, -, -, -, hct⟩ := (Engine.inv_load_iff hphase).mp h
    exact Engine.inv_of_build hb hct
  | generates hphase hct =>
    obtain ⟨hbuilt, hcursor, -⟩ := (Engine.inv_tree_iff hphase).mp h
    exact (Engine.inv_coded_iff rfl).mpr ⟨hbuilt, hcursor, (Engine.codesOfTree_iff _).mpr hct⟩
  | rewinds hphase => exact Engine.inv_of_move h hphase (.inl rfl)
  | moves hphase hk => exact Engine.inv_of_move h hphase hk

theorem step_inv {s t : State} (h : s.Inv) (hstep : step s = .next t) : t.Inv := by
  obtain ⟨-, hs⟩ | ⟨rest, -, hs⟩ | ⟨w, i, rest, -, -, hs⟩ | ⟨w, rest, -, -, hs⟩ := step_cases s <;>
    have hstep := hs.symm.trans hstep
  · cases hstep
    exact h
  · cases hstep
    exact Engine.inv_reset
  · exact (exec_effect hstep).inv h
  · cases hstep
    exact h

/-- Settles O13: the effect of every command keeps the invariant, and the other steps keep the engine or reset it. -/
theorem everyStepKeepsTheInvariant : Obligations.EveryStepKeepsTheInvariant := fun _ _ => step_inv

end Sys2Proof.Machine
end

section
/-! PROOFS. Runs (00_scope.md R11, R15, R16). A command's answer depends on the engine alone, not on the port, so a step with a word
presented is the engine's own step; with the invariant it never stops. -/

namespace Sys2Proof.Machine

/-! ## The port does not matter -/

/-- The outcome of a command with another port: `input` still to come, and `seen` answered before. -/
def atPort (input : List HostEvent) (seen : List Response) : Result → Result
  | .next s => .next { s with input := input, responses := seen ++ s.responses }
  | .fault f => .fault f
  | .refused r => .refused r

theorem withNode_atPort {input : List HostEvent} {seen : List Response} {e : Engine} {j : NodeIdx} {k k' : Node → Result}
    (hk : ∀ n, k n = atPort input seen (k' n)) :
    withNode j ⟨e, input, seen⟩ k = atPort input seen (withNode j ⟨e, [], []⟩ k') := by
  unfold withNode
  cases nodeAt e.node j with
  | some n => exact hk n
  | none => rfl

theorem exec_atPort (i : Instr) (e : Engine) (input : List HostEvent) (seen : List Response) :
    exec i ⟨e, input, seen⟩ = atPort input seen (exec i ⟨e, [], []⟩) := by
  cases i with
  | clr | rdf | rds => rfl
  | ldf =>
    simp only [exec, execLdf]
    split
    · rfl
    · split <;> rfl
  | build =>
    simp only [exec, execBuild]
    split
    · rfl
    · split <;> rfl
  | gen =>
    simp only [exec, execGen]
    split
    · rfl
    · split <;> rfl
  | rdn =>
    simp only [exec, execRdn]
    split
    · rfl
    · split
      · rfl
      · exact withNode_atPort fun _ => rfl
  | rdc =>
    simp only [exec, execRdc]
    split
    · rfl
    · split <;> rfl
  | drst =>
    simp only [exec, execDrst]
    split <;> rfl
  | dbit =>
    simp only [exec, execDbit]
    split
    · rfl
    · exact withNode_atPort fun _ => withNode_atPort fun m => by cases m <;> rfl

/-- What a command does in a state is what the host gets that issues it on the engine. -/
theorem exec_eq_next_iff {i : Instr} {s t : State} :
    exec i s = .next t ↔ ∃ e r, s.eng.issue i = some (e, r) ∧ t = ⟨e, s.input, s.responses ++ [r]⟩ := by
  obtain ⟨e, input, seen⟩ := s
  rw [exec_atPort]
  cases h : exec i ⟨e, [], []⟩ with
  | next u =>
    obtain ⟨-, r, hr⟩ := exec_port_frame h
    rw [List.nil_append] at hr
    simp [Engine.issue_eq_of_exec h hr, atPort, hr, eq_comm]
  | fault f => simp [atPort, Engine.issue, Engine.answer, step, h]
  | refused f => simp [atPort, Engine.issue, Engine.answer, step, h]

/-- Settles O21: a read keeps the engine, and so the second one has the answer of the first. -/
theorem readsChangeNothingAndRepeat : Obligations.ReadsChangeNothingAndRepeat := by
  intro i s t u hi hst htu
  have hread {e e' : Engine} (h : Effect e i e') : e' = e := by
    cases h with
    | keeps => rfl
    | clears | loads | builds | generates | rewinds | moves => simp [Instr.op] at hi
  have ht : t.eng = s.eng := hread (exec_effect hst)
  obtain ⟨e, r, hissue, rfl⟩ := exec_eq_next_iff.mp hst
  obtain ⟨e', r', hissue', rfl⟩ := exec_eq_next_iff.mp htu
  cases ht
  cases hissue.symm.trans hissue'
  exact ⟨rfl, rfl, rfl, r, rfl, rfl⟩

theorem Engine.answer_of_decode_ok {w : CommandWord} {i : Instr} (h : decode w = .ok i) (e : Engine) :
    e.answer w = e.issue i := by
  rw [Engine.issue, decode_eq_ok_iff.mp h]

theorem Engine.answer_of_decode_error {w : CommandWord} {f : Illegal} (h : decode w = .error f) (e : Engine) :
    e.answer w = some (e, ⟨.errIllegal, 0⟩) := by
  simp [Engine.answer, step, fetch, h]

/-- A step with a word presented is the engine's step on that word. -/
theorem step_command_eq_next_iff {w : CommandWord} {s t : State} {rest : List HostEvent} (hs : s.input = .command w :: rest) :
    step s = .next t ↔ ∃ e r, s.eng.answer w = some (e, r) ∧ t = ⟨e, rest, s.responses ++ [r]⟩ := by
  cases hw : decode w with
  | ok i => rw [step_legal_word hw hs, exec_eq_next_iff, Engine.answer_of_decode_ok hw]
  | error f =>
    rw [step_illegal_word hw hs, Engine.answer_of_decode_error hw]
    simp [State.respond, eq_comm]

/-- In a state with the invariant the engine answers every word and keeps the invariant. -/
theorem Engine.exists_answer_of_inv {e : Engine} (h : e.Inv) (w : CommandWord) :
    ∃ e' r, e.answer w = some (e', r) ∧ e'.Inv := by
  obtain ⟨t, -, hstep, -⟩ := statusOfEveryCommandWord ⟨e, [.command w], []⟩ w [] h rfl
  obtain ⟨e', r, hans, rfl⟩ := (step_command_eq_next_iff rfl).mp hstep
  exact ⟨e', r, hans, step_inv (s := ⟨e, [.command w], []⟩) h hstep⟩

/-! ## Runs -/

theorem Engine.answers_cons {w : CommandWord} {ws : List CommandWord} {e e' e'' : Engine} {r : Response} {rs : List Response}
    (hw : e.answer w = some (e', r)) (hws : e'.answers ws = some (e'', rs)) :
    e.answers (w :: ws) = some (e'', r :: rs) := by
  simp [Engine.answers, hw, hws]

theorem run_succ {n : Nat} {s t : State} (h : step s = .next t) :
    Host.Core.run Sys2Proof.core (n + 1) s = Host.Core.run Sys2Proof.core n t := by
  have hcore : core.step s = .next t := h
  simp only [Host.Core.run, hcore]

/-- Settles O11: each word is one step, and the step is the engine's own, by induction on the words. -/
theorem runIsTheFoldOfTheEngineStep : Obligations.RunIsTheFoldOfTheEngineStep := by
  intro e ws
  induction ws generalizing e with
  | nil => exact fun _ => ⟨e, [], rfl, rfl, fun rest seen => by simp [Host.Core.run]⟩
  | cons w ws ih =>
    intro h
    obtain ⟨e', r, hans, h'⟩ := Engine.exists_answer_of_inv h w
    obtain ⟨e'', rs, hrun, hlen, hfold⟩ := ih e' h'
    refine ⟨e'', r :: rs, Engine.answers_cons hans hrun, by simp [hlen], fun rest seen => ?_⟩
    have hstep : step ⟨e, (w :: ws).map .command ++ rest, seen⟩ = .next ⟨e', ws.map .command ++ rest, seen ++ [r]⟩ :=
      (step_command_eq_next_iff rfl).mpr ⟨e', r, hans, rfl⟩
    rw [List.length_cons, run_succ hstep, hfold, List.append_assoc]
    rfl

/-- A step from a state with the invariant goes on. -/
theorem exists_step_of_inv {s : State} (h : s.Inv) : ∃ t, step s = .next t := by
  cases hs : s.input with
  | nil => exact ⟨_, step_idle hs⟩
  | cons ev rest =>
    cases ev with
    | reset => exact ⟨_, step_reset hs⟩
    | command w =>
      obtain ⟨e', r, hans, -⟩ := Engine.exists_answer_of_inv h w
      exact ⟨_, (step_command_eq_next_iff hs).mpr ⟨e', r, hans, rfl⟩⟩

/-- Settles O14: every step goes on and keeps the invariant, by induction on the number of steps. -/
theorem reachableStatesNeverStop : Obligations.ReachableStatesNeverStop := by
  intro n
  induction n with
  | zero => exact fun s h => ⟨s, rfl, h⟩
  | succ n ih =>
    intro s h
    obtain ⟨t, hstep⟩ := exists_step_of_inv h
    rw [run_succ hstep]
    exact ih t (step_inv h hstep)

/-- What a run from reset reaches has the invariant. -/
theorem inv_of_run_reset {n : Nat} {events : List HostEvent} {t : State}
    (h : Host.Core.run Sys2Proof.core n ({ State.reset with input := events } : State) = .next t) : t.Inv := by
  obtain ⟨u, hu, hinv⟩ := reachableStatesNeverStop n { State.reset with input := events } Engine.inv_reset
  cases hu.symm.trans h
  exact hinv

end Sys2Proof.Machine
end

section
/-! PROOFS. The shape and the frequencies of a tree under any tie-break (41_tree_builder.md R107, R108; 45_invariants.md R161 to
R164). One invariant of the rounds of BUILD gives all of them: the children in the arena and the live nodes are together each
node once, every Internal node has the sum of two earlier nodes, and no two live nodes have a lesser sum than a node made so far. -/

namespace Sys2Proof.Machine

open Sys2Proof.Config (TieRule)

/-! ## Children -/

/-- The indices of the children of a node. -/
def Node.children : Node → List Nat
  | .leaf _ _ => []
  | .internal _ l r => [l.toNat, r.toNat]

theorem Node.mem_children_iff {x : Node} {k : Nat} : k ∈ x.children ↔ x.HasChild k := by
  cases x with
  | leaf => simp [children, HasChild]
  | internal => simp [children, HasChild, eq_comm]

theorem mergeNode_children_perm (t : TieRule) (n : NodeIdx) (a b : QEntry) :
    (mergeNode t n a b).children.Perm [a.idx.toNat, b.idx.toNat] := by
  unfold mergeNode
  split
  · exact .refl _
  · exact .swap _ _ _

/-- Node `k` is Internal, its children come before it, and its frequency is the sum of theirs. -/
def SumsChildren (nodes : List Node) (k : Nat) : Prop :=
  ∃ f l r, nodes[k]? = some (.internal f l r) ∧ l.toNat < k ∧ r.toNat < k ∧
    f.toNat = freqAt nodes l.toNat + freqAt nodes r.toNat

theorem SumsChildren.append {nodes : List Node} {k : Nat} (h : SumsChildren nodes k) (more : List Node) :
    SumsChildren (nodes ++ more) k := by
  obtain ⟨f, l, r, hget, hl, hr, hsum⟩ := h
  have hk : k < nodes.length := (List.getElem?_eq_some_iff.mp hget).1
  exact ⟨f, l, r, by rw [List.getElem?_append_left hk, hget], hl, hr, by
    rw [freqAt_append more (hl.trans hk), freqAt_append more (hr.trans hk), hsum]⟩

/-! ## The invariant of the rounds -/

/-- Only frequencies are compared, and any tie-break agrees with them. -/
theorem orderedBy_freq (t : TieRule) : OrderedBy t (fun x => x.freq.toNat) := fun a b => by
  split
  next h =>
    simp only [keyLess, Bool.or_eq_true, decide_eq_true_eq, Bool.and_eq_true, beq_iff_eq] at h
    obtain hlt | ⟨heq, -⟩ := h
    · exact hlt.le
    · exact (congrArg BitVec.toNat heq).le
  next h =>
    simp only [keyLess, Bool.or_eq_true, decide_eq_true_eq, not_or, not_lt] at h
    exact h.1

/-- What holds in every round of BUILD, whatever the tie-break. -/
structure Grown (ft : Vector Count 95) (nodes : List Node) (q : List QEntry) : Prop where
  liveSet : LiveSet ft nodes q
  children_perm : (nodes.flatMap Node.children ++ q.map (fun x => x.idx.toNat)).Perm (List.range nodes.length)
  sums : ∀ k, leafCount ft ≤ k → k < nodes.length → SumsChildren nodes k
  freq_bounds : ∀ x ∈ nodes, 0 < x.freq.toNat ∧ x.freq.toNat ≤ totalCount ft
  sorted : ∀ j k, leafCount ft ≤ j → j < k → k < nodes.length → freqAt nodes j ≤ freqAt nodes k
  pairs : ∀ j, leafCount ft ≤ j → j < nodes.length →
    q.Pairwise (fun x y => freqAt nodes j ≤ x.freq.toNat + y.freq.toNat)

theorem Grown.perm {ft : Vector Count 95} {nodes : List Node} {q q' : List QEntry} (hqq : q.Perm q') (h : Grown ft nodes q) :
    Grown ft nodes q' where
  liveSet := h.liveSet.perm hqq
  children_perm := ((hqq.symm.map _).append_left _).trans h.children_perm
  sums := h.sums
  freq_bounds := h.freq_bounds
  sorted := h.sorted
  pairs j hL hj := (hqq.pairwise_iff fun hxy => by rwa [Nat.add_comm]).mp (h.pairs j hL hj)

/-! ### At the start -/

theorem flatMap_children_leavesOf (ft : Vector Count 95) : (leavesOf ft).flatMap Node.children = [] :=
  List.flatMap_eq_nil_iff.mpr fun _ hx => List.eq_nil_iff_forall_not_mem.mpr fun k hk =>
    not_hasChild_of_mem_leavesOf hx k (Node.mem_children_iff.mp hk)

theorem count_toNat_setWidth (c : Count) : (c.setWidth 39).toNat = c.toNat := by
  have := c.isLt
  rw [BitVec.toNat_setWidth, Nat.mod_eq_of_lt (by omega)]

theorem count_le_totalCount (ft : Vector Count 95) (i : SymIdx) : ft[i].toNat ≤ totalCount ft :=
  List.le_sum_of_mem (List.mem_map.mpr ⟨i, List.mem_finRange i, rfl⟩)

theorem Grown.initial (ft : Vector Count 95) : Grown ft (leavesOf ft) (initialQueue (leavesOf ft)) where
  liveSet := .initial ft
  children_perm := by
    have hlen := leavesOf_length_le ft
    have hidx : (initialQueue (leavesOf ft)).map (fun x => x.idx.toNat) = List.range (leavesOf ft).length :=
      calc (initialQueue (leavesOf ft)).map (fun x => x.idx.toNat)
          = ((initialQueue (leavesOf ft)).map QEntry.idx).map BitVec.toNat := by rw [List.map_map]; rfl
        _ = (List.range (leavesOf ft).length).map id := by
          rw [initialQueue_map_idx, List.map_map]
          refine List.map_congr_left fun i hi => ?_
          rw [List.mem_range] at hi
          simp only [Function.comp_apply, BitVec.toNat_ofNat, id_eq]
          omega
        _ = List.range (leavesOf ft).length := List.map_id _
    rw [flatMap_children_leavesOf, List.nil_append, hidx]
  sums k hL hk := absurd hk (by rw [leavesOf_length]; omega)
  freq_bounds x hx := by
    obtain ⟨i, hi, rfl⟩ := mem_leavesOf_iff.mp hx
    rw [Node.freq, count_toNat_setWidth]
    exact ⟨Nat.pos_of_ne_zero fun h => hi (BitVec.eq_of_toNat_eq h), count_le_totalCount ft i⟩
  sorted j k hL hjk hk := absurd hk (by rw [leavesOf_length]; omega)
  pairs j hL hj := absurd hj (by rw [leavesOf_length]; omega)

/-! ### In a round -/

section
variable {ft : Vector Count 95} {nodes : List Node} {rest : List QEntry} {a b : QEntry} (h : Grown ft nodes (a :: b :: rest))
include h

theorem Grown.children_perm_merge (t : TieRule) (n : NodeIdx) :
    ((nodes ++ [mergeNode t n a b]).flatMap Node.children ++ nodes.length :: rest.map (fun x => x.idx.toNat)).Perm
      (List.range (nodes ++ [mergeNode t n a b]).length) := by
  have hold := List.perm_iff_count.mp h.children_perm
  have hnew := List.perm_iff_count.mp (mergeNode_children_perm t n a b)
  refine List.perm_iff_count.mpr fun k => ?_
  have hold := hold k
  have hnew := hnew k
  simp only [List.flatMap_append, List.flatMap_cons, List.flatMap_nil, List.append_nil, List.count_append, List.map_cons,
    List.count_cons, List.count_nil, List.length_append, List.length_singleton, List.range_succ] at hold hnew ⊢
  omega

/-- The new node is Internal, above its children, and has their sum. -/
theorem Grown.sumsChildren_merge (t : TieRule) (n : NodeIdx) :
    SumsChildren (nodes ++ [mergeNode t n a b]) nodes.length := by
  have hlive := h.liveSet
  have hma : a ∈ a :: b :: rest := by simp
  have hmb : b ∈ a :: b :: rest := by simp
  have hfa : freqAt (nodes ++ [mergeNode t n a b]) a.idx.toNat = a.freq.toNat := by
    rw [freqAt_append _ (hlive.idx_lt hma), hlive.freqAt hma]
  have hfb : freqAt (nodes ++ [mergeNode t n a b]) b.idx.toNat = b.freq.toNat := by
    rw [freqAt_append _ (hlive.idx_lt hmb), hlive.freqAt hmb]
  by_cases ht : t.firstLeft n = true
  · refine ⟨a.freq + b.freq, a.idx, b.idx, ?_, hlive.idx_lt hma, hlive.idx_lt hmb, by rw [hfa, hfb, hlive.toNat_add]⟩
    rw [List.getElem?_concat_length, mergeNode, if_pos ht]
  · refine ⟨a.freq + b.freq, b.idx, a.idx, ?_, hlive.idx_lt hmb, hlive.idx_lt hma, by
      rw [hfa, hfb, hlive.toNat_add, Nat.add_comm]⟩
    rw [List.getElem?_concat_length, mergeNode, if_neg ht]

/-- The new node's frequency is positive and not above the total, which is the sum of all live frequencies. -/
theorem Grown.freq_bounds_merge : 0 < (a.freq + b.freq).toNat ∧ (a.freq + b.freq).toNat ≤ totalCount ft := by
  have hlive := h.liveSet
  have hma : a ∈ a :: b :: rest := by simp
  have hget := List.getElem?_eq_getElem (hlive.idx_lt hma)
  have hpos := (h.freq_bounds _ (List.mem_of_getElem? hget)).1
  rw [← freqAt_of_getElem? hget, hlive.freqAt hma] at hpos
  have htotal := hlive.total
  simp only [List.map_cons, List.sum_cons] at htotal
  rw [hlive.toNat_add]
  omega

/-- No node made so far has a greater frequency than the two least live nodes together. -/
theorem Grown.freqAt_le_merge {j : Nat} (hL : leafCount ft ≤ j) (hj : j < nodes.length) :
    freqAt nodes j ≤ (a.freq + b.freq).toNat := by
  rw [h.liveSet.toNat_add]
  exact (List.pairwise_cons.mp (h.pairs j hL hj)).1 b (by simp)

/-- After a merge every two live nodes have at least the sum of the new node: it is the least of all pairs before. -/
theorem Grown.pairs_merge (ha : ∀ x ∈ b :: rest, a.freq.toNat ≤ x.freq.toNat) (hb : ∀ x ∈ rest, b.freq.toNat ≤ x.freq.toNat)
    (n : NodeIdx) :
    ((⟨a.freq + b.freq, n⟩ : QEntry) :: rest).Pairwise
      (fun x y => (a.freq + b.freq).toNat ≤ x.freq.toNat + y.freq.toNat) := by
  refine List.pairwise_cons.mpr ⟨fun y _ => Nat.le_add_right _ _, ?_⟩
  rw [h.liveSet.toNat_add]
  exact List.pairwise_of_forall_mem_list fun x hx y hy => Nat.add_le_add (ha x (by simp [hx])) (hb y hy)

theorem Grown.merge (ha : ∀ x ∈ b :: rest, a.freq.toNat ≤ x.freq.toNat) (hb : ∀ x ∈ rest, b.freq.toNat ≤ x.freq.toNat)
    (t : TieRule) :
    Grown ft (nodes ++ [mergeNode t (BitVec.ofNat 8 nodes.length) a b])
      (⟨a.freq + b.freq, BitVec.ofNat 8 nodes.length⟩ :: rest) where
  liveSet := h.liveSet.merge t
  children_perm := by
    rw [List.map_cons, h.liveSet.toNat_new]
    exact h.children_perm_merge t _
  sums k hL hk := by
    rw [List.length_append, List.length_singleton] at hk
    obtain hlt | rfl := Nat.lt_succ_iff_lt_or_eq.mp hk
    · exact (h.sums k hL hlt).append _
    · exact h.sumsChildren_merge t _
  freq_bounds x hx := by
    obtain hx | hx := List.mem_append.mp hx
    · exact h.freq_bounds x hx
    · rw [List.mem_singleton.mp hx, mergeNode_freq]
      exact h.freq_bounds_merge
  sorted j k hL hjk hk := by
    rw [List.length_append, List.length_singleton] at hk
    rw [freqAt_append _ (by omega : j < nodes.length)]
    obtain hlt | rfl := Nat.lt_succ_iff_lt_or_eq.mp hk
    · rw [freqAt_append _ hlt]
      exact h.sorted j k hL hjk hlt
    · rw [freqAt_merge]
      exact h.freqAt_le_merge hL hjk
  pairs j hL hj := by
    rw [List.length_append, List.length_singleton] at hj
    have hpairs := h.pairs_merge ha hb (BitVec.ofNat 8 nodes.length)
    obtain hlt | rfl := Nat.lt_succ_iff_lt_or_eq.mp hj
    · rw [freqAt_append _ hlt]
      exact hpairs.imp (h.freqAt_le_merge hL hlt).trans
    · rwa [freqAt_merge]

end

theorem exists_grown_of_buildTree {t : TieRule} {ft : Vector Count 95} {b : Built} (h : buildTree t ft = some b) :
    ∃ last, last.idx = b.root ∧ Grown ft b.nodes [last] :=
  buildTree_induction (orderedBy_freq t) (P := Grown ft) ⟨Grown.perm, fun ha hb hg => hg.merge ha hb t⟩ h (.initial ft)

/-! ## The finished tree -/

theorem leavesOf_symbols_increase (ft : Vector Count 95) :
    (leavesOf ft).Pairwise fun x y => ∀ s f s' f', x = .leaf s f → y = .leaf s' f' → s.toNat < s'.toNat := by
  refine (List.pairwise_lt_finRange 95).filterMap (leafOf ft) fun i j hij x hx y hy s f s' f' hs hs' => ?_
  unfold leafOf at hx hy
  split at hx
  · cases hx
  · split at hy
    · cases hy
    · cases hx
      cases hy
      cases hs
      cases hs'
      simpa using hij

section
variable {t : TieRule} {ft : Vector Count 95} {b : Built} (h : buildTree t ft = some b)
include h

/-- The first nodes of the arena are the leaves. -/
theorem getElem?_of_lt_leafCount {k : Nat} (hk : k < leafCount ft) : b.nodes[k]? = (leavesOf ft)[k]? := by
  obtain ⟨more, hmore⟩ := exists_append_of_buildTree h
  rw [hmore, List.getElem?_append_left (by rwa [leavesOf_length])]

theorem lt_leafCount_of_leaf {k : Nat} {s : CharCode} {f : Freq} (hk : b.nodes[k]? = some (.leaf s f)) :
    k < leafCount ft := by
  obtain ⟨last, -, hg⟩ := exists_grown_of_buildTree h
  by_contra hL
  obtain ⟨_, _, _, hk', -⟩ := hg.sums k (not_lt.mp hL) (List.getElem?_eq_some_iff.mp hk).1
  cases hk'.symm.trans hk

/-- A node with a child is one of those made by merges. -/
theorem leafCount_le_of_hasChild {j k : Nat} {x : Node} (hj : b.nodes[j]? = some x) (hk : x.HasChild k) :
    leafCount ft ≤ j := by
  by_contra hlt
  rw [getElem?_of_lt_leafCount h (not_le.mp hlt)] at hj
  exact not_hasChild_of_mem_leavesOf (List.mem_of_getElem? hj) k hk

theorem sumsChildren_of_hasChild {j k : Nat} {x : Node} (hj : b.nodes[j]? = some x) (hk : x.HasChild k) :
    SumsChildren b.nodes j := by
  obtain ⟨last, -, hg⟩ := exists_grown_of_buildTree h
  exact hg.sums j (leafCount_le_of_hasChild h hj hk) (List.getElem?_eq_some_iff.mp hj).1

/-- Children come before their parent. -/
theorem child_lt_of_hasChild {j k : Nat} {x : Node} (hj : b.nodes[j]? = some x) (hk : x.HasChild k) : k < j := by
  obtain ⟨_, _, _, hj', hl, hr, -⟩ := sumsChildren_of_hasChild h hj hk
  cases hj'.symm.trans hj
  obtain rfl | rfl := hk
  · exact hl
  · exact hr

/-- Every node but the root is a child exactly once, and the root is none. -/
theorem children_perm_of_buildTree :
    (b.nodes.flatMap Node.children ++ [b.root.toNat]).Perm (List.range b.nodes.length) := by
  obtain ⟨last, hroot, hg⟩ := exists_grown_of_buildTree h
  simpa [hroot] using hg.children_perm

theorem children_nodup_of_buildTree : (b.nodes.flatMap Node.children).Nodup :=
  (List.nodup_append.mp ((children_perm_of_buildTree h).nodup_iff.mpr List.nodup_range)).1

theorem not_hasChild_root {x : Node} (hx : x ∈ b.nodes) : ¬ x.HasChild b.root.toNat := fun hk => by
  have hnodup := (children_perm_of_buildTree h).nodup_iff.mpr List.nodup_range
  exact (List.nodup_append.mp hnodup).2.2 _ (List.mem_flatMap.mpr ⟨x, hx, Node.mem_children_iff.mpr hk⟩) _
    (List.mem_singleton_self _) rfl

theorem exists_parent {k : Nat} (hk : k < b.nodes.length) (hroot : k ≠ b.root.toNat) :
    ∃ x ∈ b.nodes, x.HasChild k := by
  have hmem := (children_perm_of_buildTree h).mem_iff.mpr (List.mem_range.mpr hk)
  obtain hmem | hmem := List.mem_append.mp hmem
  · obtain ⟨x, hx, hkx⟩ := List.mem_flatMap.mp hmem
    exact ⟨x, hx, Node.mem_children_iff.mp hkx⟩
  · exact absurd (List.mem_singleton.mp hmem) hroot

theorem parent_unique {i j k : Nat} {x y : Node} (hi : b.nodes[i]? = some x) (hx : x.HasChild k)
    (hj : b.nodes[j]? = some y) (hy : y.HasChild k) : i = j := by
  have hdisj := (List.nodup_flatMap.mp (children_nodup_of_buildTree h)).2
  have hlt {i j : Nat} {x y : Node} (hi : b.nodes[i]? = some x) (hx : x.HasChild k) (hj : b.nodes[j]? = some y)
      (hy : y.HasChild k) : ¬ i < j := fun hij => by
    obtain ⟨hi', rfl⟩ := List.getElem?_eq_some_iff.mp hi
    obtain ⟨hj', rfl⟩ := List.getElem?_eq_some_iff.mp hj
    exact List.pairwise_iff_getElem.mp hdisj i j hi' hj' hij (Node.mem_children_iff.mpr hx) (Node.mem_children_iff.mpr hy)
  exact Nat.le_antisymm (not_lt.mp (hlt hj hy hi hx)) (not_lt.mp (hlt hi hx hj hy))

theorem left_ne_right {j : Nat} {f : Freq} {l r : NodeIdx} (hj : b.nodes[j]? = some (.internal f l r)) : l ≠ r := by
  have hnodup := (List.nodup_flatMap.mp (children_nodup_of_buildTree h)).1 _ (List.mem_of_getElem? hj)
  rintro rfl
  simp [Node.children] at hnodup

theorem length_of_buildTree : b.nodes.length + 1 = 2 * leafCount ft := by
  obtain ⟨last, -, hg⟩ := exists_grown_of_buildTree h
  simpa using hg.liveSet.size

/-- The last node has no later node to be a child of, so it is the root. -/
theorem root_is_last_of_buildTree : b.root.toNat = b.nodes.length - 1 := by
  have hlen := length_of_buildTree h
  by_contra hne
  obtain ⟨x, hx, hk⟩ := exists_parent h (k := b.nodes.length - 1) (by omega) (Ne.symm hne)
  obtain ⟨j, hj⟩ := List.mem_iff_getElem?.mp hx
  have hlt := child_lt_of_hasChild h hj hk
  have hlt' := (List.getElem?_eq_some_iff.mp hj).1
  omega

theorem treeShape_of_buildTree : TreeShape ft b.nodes b.root where
  leaves_exist := by
    have hlen := length_of_buildTree h
    exact ⟨by omega, leafCount_le ft⟩
  node_count := by
    have hlen := length_of_buildTree h
    omega
  root_is_last := root_is_last_of_buildTree h
  leaves_first k hk := by
    have hget := List.getElem?_eq_getElem (l := leavesOf ft) (i := k) (by rwa [leavesOf_length])
    obtain ⟨i, hi, hleaf⟩ := mem_leavesOf_iff.mp (List.mem_of_getElem? hget)
    exact ⟨i, by rw [getElem?_of_lt_leafCount h hk, hget, hleaf], hi⟩
  symbols_increase j k s f s' f' hjk hj hk := by
    rw [getElem?_of_lt_leafCount h (lt_leafCount_of_leaf h hj)] at hj
    rw [getElem?_of_lt_leafCount h (lt_leafCount_of_leaf h hk)] at hk
    obtain ⟨hj', hj⟩ := List.getElem?_eq_some_iff.mp hj
    obtain ⟨hk', hk⟩ := List.getElem?_eq_some_iff.mp hk
    exact List.pairwise_iff_getElem.mp (leavesOf_symbols_increase ft) j k hj' hk' hjk s f s' f' hj hk
  every_symbol i hi := by
    obtain ⟨more, hmore⟩ := exists_append_of_buildTree h
    exact hmore ▸ List.mem_append_left more (mem_leavesOf_iff.mpr ⟨i, hi, rfl⟩)
  internals_after k hL hk := by
    obtain ⟨last, -, hg⟩ := exists_grown_of_buildTree h
    obtain ⟨f, l, r, hget, hl, hr, -⟩ := hg.sums k hL hk
    exact ⟨f, l, r, hget, hl, hr, left_ne_right h hget⟩
  one_parent k hk hroot := by
    obtain ⟨x, hx, hkx⟩ := exists_parent h hk hroot
    obtain ⟨j, hj⟩ := List.mem_iff_getElem?.mp hx
    cases x with
    | leaf => cases hkx
    | internal f l r => exact ⟨j, ⟨f, l, r, hj, hkx⟩, fun i ⟨_, _, _, hi, hki⟩ => parent_unique h hi hki hj hkx⟩
  root_no_child j f l r hj :=
    ⟨fun hl => not_hasChild_root h (List.mem_of_getElem? hj) (.inl (congrArg _ hl)),
      fun hr => not_hasChild_root h (List.mem_of_getElem? hj) (.inr (congrArg _ hr))⟩

theorem frequencyLaws_of_buildTree : FrequencyLaws ft b.nodes b.root := by
  obtain ⟨last, hroot, hg⟩ := exists_grown_of_buildTree h
  refine ⟨fun j f l r hj => ?_, ?_, hg.sorted⟩
  · obtain ⟨_, _, _, hj', -, -, hsum⟩ := sumsChildren_of_hasChild h hj (.inl rfl)
    cases hj'.symm.trans hj
    exact hsum
  · rw [← hroot, hg.liveSet.freqAt (List.mem_singleton_self last), ← hg.liveSet.total]
    simp

end

/-- Settles O31: the invariant of the rounds, read at the end, when the root alone is live. -/
theorem treeLawsHoldForEveryTieBreak : Obligations.TreeLawsHoldForEveryTieBreak := fun _ _ _ h =>
  ⟨treeShape_of_buildTree h, frequencyLaws_of_buildTree h⟩

/-- Settles O34: a node's frequency is at most the sum of all live ones at the time it is made, and that is the total. -/
theorem nodeFrequenciesNeverOverflow : Obligations.NodeFrequenciesNeverOverflow := by
  intro t ft b h
  obtain ⟨last, -, hg⟩ := exists_grown_of_buildTree h
  have htotal := totalCount_le ft
  refine ⟨fun j f l r hj => ?_, hg.freq_bounds, htotal, by decide⟩
  have hsum := (frequencyLaws_of_buildTree h).sum_of_children j f l r hj
  exact ⟨hsum, hsum ▸ f.isLt⟩

end Sys2Proof.Machine
end

section
/-! PROOFS. The tree of a reachable state (45_invariants.md R160 to R164): it is the tree that BUILD makes of the current table, so the
laws of trees are laws of the state. -/

namespace Sys2Proof.Machine

open Sys2Proof.Config (TieRule)

/-! ## What the invariant says once a tree exists -/

section
variable {e : Engine} (h : e.Inv) (he : e.phase ≠ .load)
include h he

theorem Engine.builtFromTable_of_inv : e.builtFromTable = true := by
  cases hp : e.phase with
  | load => exact absurd hp he
  | tree => exact ((Engine.inv_tree_iff hp).mp h).1
  | coded => exact ((Engine.inv_coded_iff hp).mp h).1

theorem Engine.cursorOk_of_inv : e.cursorOk = true := by
  cases hp : e.phase with
  | load => exact absurd hp he
  | tree => exact ((Engine.inv_tree_iff hp).mp h).2.1
  | coded => exact ((Engine.inv_coded_iff hp).mp h).2.1

theorem Engine.buildTree_of_inv : buildTree TieRule.hardware e.ft = some ⟨e.node, e.root⟩ := by
  obtain ⟨b, hb, hnode, hroot⟩ := Engine.exists_buildTree_of_inv h he
  rw [hb, hnode, hroot]

theorem Engine.treeShape_of_inv : TreeShape e.ft e.node e.root := treeShape_of_buildTree (Engine.buildTree_of_inv h he)

theorem Engine.frequencyLaws_of_inv : FrequencyLaws e.ft e.node e.root :=
  frequencyLaws_of_buildTree (Engine.buildTree_of_inv h he)

theorem Engine.nleaves_of_inv : e.nleaves.toNat = leafCount e.ft := by
  obtain ⟨b, -, -, -, hnl, -⟩ := e.builtFromTable_iff.mp (Engine.builtFromTable_of_inv h he)
  have hle := leafCount_le e.ft
  rw [hnl, leavesOf_length, BitVec.toNat_ofNat]
  omega

theorem Engine.nnodes_of_inv : e.nnodes.toNat = e.node.length := by
  obtain ⟨b, -, hnode, -, -, hnn⟩ := e.builtFromTable_iff.mp (Engine.builtFromTable_of_inv h he)
  have hlen := (Engine.treeShape_of_inv h he).node_count
  have hle := leafCount_le e.ft
  rw [hnn, ← hnode, BitVec.toNat_ofNat]
  omega

end

/-- Settles O32: the laws of the tree of the current table. -/
theorem treesOfReachableStates : Obligations.TreesOfReachableStates := fun _ h he =>
  ⟨Engine.treeShape_of_inv h he, Engine.frequencyLaws_of_inv h he⟩

/-! ## The total (R163) -/

theorem map_finRange_get {α : Type} (T : Vector α 95) : (List.finRange 95).map (fun i : SymIdx => T[i]) = T.toList :=
  List.ext_getElem (by simp) fun i _ _ => by simp

/-- The engine's total of a table of the host is the sum of the host's counts. -/
theorem totalCount_tableOf {T : Vector Nat 95} (hfits : ∀ i : SymIdx, T[i] < 2 ^ 32) :
    totalCount (tableOf T) = T.toList.sum := by
  rw [totalCount, ← map_finRange_get T]
  refine congrArg List.sum (List.map_congr_left fun i _ => ?_)
  rw [tableOf_get, BitVec.toNat_ofNat, Nat.mod_eq_of_lt (hfits i)]

/-- Settles O33: the root's law, and the counts of a text add up to its eligible characters. -/
theorem rootHoldsTheTotalCount : Obligations.RootHoldsTheTotalCount :=
  ⟨fun _ h he => (Engine.frequencyLaws_of_inv h he).root_total,
    fun text hfits => (totalCount_tableOf hfits).trans (freqAnalyze_sum text)⟩

/-! ## BUILD (41_tree_builder.md R107) -/

theorem exists_buildTree_of_ne_zero (t : TieRule) {ft : Vector Count 95} {k : SymIdx} (hk : ft[k] ≠ 0) :
    ∃ b, buildTree t ft = some b :=
  Option.ne_none_iff_exists'.mp fun hb => hk (buildTree_eq_none_iff.mp hb k)

/-- Settles O29: BUILD finds a tree and installs it; the counts fit their registers, there being at most 95 leaves. -/
theorem buildMakesATreeOfTheTable : Obligations.BuildMakesATreeOfTheTable := by
  intro s k hs hk
  obtain ⟨b, hb⟩ := exists_buildTree_of_ne_zero TieRule.hardware hk
  have shape := treeShape_of_buildTree hb
  have hlen := shape.node_count
  have hroot := shape.root_is_last
  have hle := leafCount_le s.eng.ft
  refine ⟨_, exec_build_of_some hs hb, rfl, rfl, rfl, rfl, rfl, rfl, ?_, ?_, ?_, ?_, ?_, shape⟩ <;>
    simp only [State.respond_nleaves, State.respond_nnodes, State.respond_root, State.respond_node,
      State.installTree_nleaves, State.installTree_nnodes, State.installTree_root, State.installTree_node,
      BitVec.toNat_ofNat, leavesOf_length] <;>
    omega

end Sys2Proof.Machine
end

section
/-! PROOFS. Paths in a tree (42_code_table.md R125): a bit-string leads from a node to at most one node, from the root there is
exactly one way to every node, and so GEN's walk records for every symbol the path to its leaf. -/

namespace Sys2Proof.Machine

/-! ## Going down -/

/-- The child of an Internal node on a bit: 0 left, 1 right. -/
def childOn (nodes : List Node) (j : NodeIdx) (b : Bool) : Option NodeIdx :=
  match nodeAt nodes j with
  | some (.internal _ l r) => some (if b then r else l)
  | some (.leaf _ _) => none
  | none => none

/-- The node that a bit-string leads to. -/
def descend (nodes : List Node) (j : NodeIdx) (p : BitString) : Option NodeIdx := p.foldlM (childOn nodes) j

theorem childOn_of_internal {nodes : List Node} {j l r : NodeIdx} {f : Freq} (hj : nodeAt nodes j = some (.internal f l r))
    (b : Bool) : childOn nodes j b = some (if b then r else l) := by
  simp [childOn, hj]

theorem childOn_eq_some_iff {nodes : List Node} {j k : NodeIdx} {b : Bool} :
    childOn nodes j b = some k ↔ ∃ f l r, nodeAt nodes j = some (.internal f l r) ∧ (if b then r else l) = k := by
  unfold childOn
  split
  next f l r hj => simp [hj]
  next hj => simp [hj]
  next hj => simp [hj]

@[simp] theorem descend_nil (nodes : List Node) (j : NodeIdx) : descend nodes j [] = some j := rfl

@[simp] theorem descend_cons (nodes : List Node) (j : NodeIdx) (b : Bool) (p : BitString) :
    descend nodes j (b :: p) = (childOn nodes j b).bind (fun k => descend nodes k p) := by
  rw [descend, List.foldlM_cons]
  rfl

@[simp] theorem descend_append (nodes : List Node) (j : NodeIdx) (p q : BitString) :
    descend nodes j (p ++ q) = (descend nodes j p).bind (fun k => descend nodes k q) := by
  rw [descend, List.foldlM_append]
  rfl

/-- The function of the statements is the node at the end of the way down. -/
theorem follow_eq (nodes : List Node) (j : NodeIdx) (p : BitString) :
    follow nodes j p = (descend nodes j p).bind (nodeAt nodes) := by
  induction p generalizing j with
  | nil => rfl
  | cons b p ih =>
    unfold follow
    rw [descend_cons]
    unfold childOn
    cases hj : nodeAt nodes j with
    | none => rfl
    | some n =>
      cases n with
      | leaf => rfl
      | internal f l r => exact ih _

theorem follow_eq_some_iff {nodes : List Node} {j : NodeIdx} {p : BitString} {n : Node} :
    follow nodes j p = some n ↔ ∃ k, descend nodes j p = some k ∧ nodeAt nodes k = some n := by
  rw [follow_eq, Option.bind_eq_some_iff]

/-- There is no way on from a Leaf. -/
theorem descend_of_leaf {nodes : List Node} {j k : NodeIdx} {p : BitString} {sym : CharCode} {f : Freq}
    (hj : nodeAt nodes j = some (.leaf sym f)) (h : descend nodes j p = some k) : p = [] := by
  cases p with
  | nil => rfl
  | cons b p => simp [childOn, hj] at h

/-! ## The nodes of a tree -/

section
variable {ft : Vector Count 95} {nodes : List Node} {root : NodeIdx} (shape : TreeShape ft nodes root)
include shape

theorem TreeShape.length_le : nodes.length ≤ 189 := by
  have := shape.node_count
  have := shape.leaves_exist
  omega

theorem TreeShape.nodeAt_ofNat {k : Nat} (hk : k < nodes.length) : nodeAt nodes (BitVec.ofNat 8 k) = nodes[k]? := by
  have := shape.length_le
  rw [nodeAt, BitVec.toNat_ofNat, Nat.mod_eq_of_lt (by omega)]

theorem TreeShape.symbol_of_lt {k : NodeIdx} (hk : k.toNat < leafCount ft) :
    ∃ i : SymIdx, nodeAt nodes k = some (.leaf (ordinalOf i) (ft[i].setWidth 39)) ∧ ft[i] ≠ 0 :=
  shape.leaves_first k.toNat hk

/-- A Leaf is that of a symbol with a count. -/
theorem TreeShape.of_leaf {k : NodeIdx} {sym : CharCode} {f : Freq} (hk : nodeAt nodes k = some (.leaf sym f)) :
    k.toNat < leafCount ft ∧ ∃ i : SymIdx, sym = ordinalOf i ∧ f = ft[i].setWidth 39 ∧ ft[i] ≠ 0 := by
  have hlt : k.toNat < leafCount ft := by
    by_contra hL
    obtain ⟨_, _, _, hk', -⟩ := shape.internals_after k.toNat (not_lt.mp hL) (List.getElem?_eq_some_iff.mp hk).1
    cases hk'.symm.trans hk
  obtain ⟨i, hi, hne⟩ := shape.symbol_of_lt hlt
  cases hi.symm.trans hk
  exact ⟨hlt, i, rfl, rfl, hne⟩

/-- An Internal node comes after the leaves and after its two children. -/
theorem TreeShape.of_internal {k l r : NodeIdx} {f : Freq} (hk : nodeAt nodes k = some (.internal f l r)) :
    leafCount ft ≤ k.toNat ∧ l.toNat < k.toNat ∧ r.toNat < k.toNat ∧ l ≠ r := by
  have hL : leafCount ft ≤ k.toNat := by
    by_contra hlt
    obtain ⟨i, hi, -⟩ := shape.symbol_of_lt (not_le.mp hlt)
    cases hi.symm.trans hk
  obtain ⟨_, _, _, hk', hl, hr, hne⟩ := shape.internals_after k.toNat hL (List.getElem?_eq_some_iff.mp hk).1
  cases hk'.symm.trans hk
  exact ⟨hL, hl, hr, hne⟩

theorem TreeShape.internalsAfter : InternalsAfter (leafCount ft) nodes := fun _ _ _ _ hj => by
  obtain ⟨hL, hl, hr, -⟩ := shape.of_internal hj
  exact ⟨hL, hl, hr⟩

theorem TreeShape.root_lt : root.toNat < nodes.length := by
  have := shape.root_is_last
  have := shape.node_count
  have := shape.leaves_exist
  omega

theorem TreeShape.walkable : Walkable nodes root where
  root_lt := shape.root_lt
  child_lt x hx k hk := by
    obtain ⟨j, hj, rfl⟩ := List.mem_iff_getElem.mp hx
    have hget := (shape.nodeAt_ofNat hj).trans (List.getElem?_eq_getElem hj)
    have hlen := shape.length_le
    cases hn : nodes[j] with
    | leaf => rw [hn] at hk; cases hk
    | internal f l r =>
      rw [hn] at hget hk
      obtain ⟨-, hl, hr, -⟩ := shape.of_internal hget
      rw [BitVec.toNat_ofNat, Nat.mod_eq_of_lt (by omega)] at hl hr
      obtain rfl | rfl := hk
      · exact hl.trans hj
      · exact hr.trans hj

/-- The root is a Leaf exactly with one symbol. -/
theorem TreeShape.root_leaf_iff : (∃ sym f, nodeAt nodes root = some (.leaf sym f)) ↔ leafCount ft = 1 := by
  have hroot := shape.root_is_last
  have hcount := shape.node_count
  have hpos := shape.leaves_exist
  constructor
  · rintro ⟨sym, f, hleaf⟩
    have hlt := (shape.of_leaf hleaf).1
    omega
  · intro hone
    obtain ⟨i, hi, -⟩ := shape.symbol_of_lt (k := root) (by omega)
    exact ⟨_, _, hi⟩

/-- The Leaves of different nodes have different symbols. -/
theorem TreeShape.leaf_unique {j k : NodeIdx} {sym : CharCode} {f g : Freq} (hj : nodeAt nodes j = some (.leaf sym f))
    (hk : nodeAt nodes k = some (.leaf sym g)) : j = k := by
  refine BitVec.eq_of_toNat_eq (Nat.le_antisymm (not_lt.mp fun hlt => ?_) (not_lt.mp fun hlt => ?_))
  · exact Nat.lt_irrefl _ (shape.symbols_increase _ _ _ _ _ _ hlt hk hj)
  · exact Nat.lt_irrefl _ (shape.symbols_increase _ _ _ _ _ _ hlt hj hk)

theorem TreeShape.exists_leaf {i : SymIdx} (hi : ft[i] ≠ 0) :
    ∃ k, nodeAt nodes k = some (.leaf (ordinalOf i) (ft[i].setWidth 39)) := by
  obtain ⟨k, hk⟩ := List.mem_iff_getElem?.mp (shape.every_symbol i hi)
  exact ⟨BitVec.ofNat 8 k, by rw [shape.nodeAt_ofNat (List.getElem?_eq_some_iff.mp hk).1, hk]⟩

/-! ## The ways down a tree -/

theorem TreeShape.childOn_lt {j k : NodeIdx} {b : Bool} (h : childOn nodes j b = some k) : k.toNat < j.toNat := by
  obtain ⟨f, l, r, hj, rfl⟩ := childOn_eq_some_iff.mp h
  obtain ⟨-, hl, hr, -⟩ := shape.of_internal hj
  cases b
  · exact hl
  · exact hr

/-- A node is the child of one node, on one bit. -/
theorem TreeShape.childOn_injective {j j' k : NodeIdx} {b b' : Bool} (h : childOn nodes j b = some k)
    (h' : childOn nodes j' b' = some k) : j = j' ∧ b = b' := by
  have hlt := shape.childOn_lt h
  obtain ⟨f, l, r, hj, hk⟩ := childOn_eq_some_iff.mp h
  obtain ⟨f', l', r', hj', hk'⟩ := childOn_eq_some_iff.mp h'
  have hlen := (List.getElem?_eq_some_iff.mp hj).1
  have hlast := shape.root_is_last
  obtain ⟨i, -, hi⟩ := shape.one_parent k.toNat (by omega) (by omega)
  have hchild {l r : NodeIdx} {b : Bool} (hk : (if b then r else l) = k) : l.toNat = k.toNat ∨ r.toNat = k.toNat := by
    cases b
    · exact .inl (congrArg _ hk)
    · exact .inr (congrArg _ hk)
  obtain rfl : j = j' := BitVec.eq_of_toNat_eq
    ((hi j.toNat ⟨f, l, r, hj, hchild hk⟩).trans (hi j'.toNat ⟨f', l', r', hj', hchild hk'⟩).symm)
  obtain ⟨rfl, rfl, rfl⟩ := Node.internal.inj (Option.some.inj (hj.symm.trans hj'))
  obtain ⟨-, -, -, hne⟩ := shape.of_internal hj
  refine ⟨rfl, ?_⟩
  match b, b', hk, hk' with
  | false, false, _, _ => rfl
  | true, true, _, _ => rfl
  | false, true, hk, hk' => exact absurd (hk.trans hk'.symm) hne
  | true, false, hk, hk' => exact absurd (hk'.trans hk.symm) hne

theorem TreeShape.descend_le {j k : NodeIdx} {p : BitString} (h : descend nodes j p = some k) :
    k.toNat + p.length ≤ j.toNat := by
  induction p generalizing j with
  | nil =>
    cases h
    exact le_rfl
  | cons b p ih =>
    rw [descend_cons, Option.bind_eq_some_iff] at h
    obtain ⟨m, hm, hk⟩ := h
    have := shape.childOn_lt hm
    have := ih hk
    rw [List.length_cons]
    omega

/-- There is at most one way from a node to another. -/
theorem TreeShape.descend_unique {j k : NodeIdx} {p q : BitString} (hp : descend nodes j p = some k)
    (hq : descend nodes j q = some k) : p = q := by
  have of_length {p : BitString} (hj : descend nodes j p = some j) : p = [] := by
    have := shape.descend_le hj
    exact List.eq_nil_of_length_eq_zero (by omega)
  induction p using List.reverseRecOn generalizing k q with
  | nil =>
    cases hp
    exact (of_length hq).symm
  | append_singleton p b ih =>
    obtain rfl | ⟨q, b', rfl⟩ := List.eq_nil_or_concat q
    · cases hq
      exact of_length hp
    · simp only [List.concat_eq_append, descend_append, descend_cons, descend_nil,
        Option.bind_eq_some_iff, Option.some.injEq] at hp hq
      obtain ⟨m, hm, k, hc, rfl⟩ := hp
      obtain ⟨m', hm', k', hc', rfl⟩ := hq
      obtain ⟨rfl, rfl⟩ := shape.childOn_injective hc hc'
      rw [ih hm hm', List.concat_eq_append]

/-- There is a way from the root to every node: down to its parent, which has a greater index, and one step more. -/
theorem TreeShape.exists_descend {k : NodeIdx} (hk : k.toNat < nodes.length) : ∃ p, descend nodes root p = some k := by
  by_cases hroot : k.toNat = root.toNat
  · exact ⟨[], by rw [descend_nil, BitVec.eq_of_toNat_eq hroot]⟩
  · obtain ⟨j, ⟨f, l, r, hj, hchild⟩, -⟩ := shape.one_parent k.toNat hk hroot
    have hjlen := (List.getElem?_eq_some_iff.mp hj).1
    have hjidx : (BitVec.ofNat 8 j).toNat = j := by
      have := shape.length_le
      rw [BitVec.toNat_ofNat, Nat.mod_eq_of_lt (by omega)]
    have hj' := (shape.nodeAt_ofNat hjlen).trans hj
    obtain ⟨b, hb⟩ : ∃ b : Bool, (if b then r else l) = k := by
      obtain hl | hr := hchild
      · exact ⟨false, BitVec.eq_of_toNat_eq hl⟩
      · exact ⟨true, BitVec.eq_of_toNat_eq hr⟩
    have hstep := (childOn_of_internal hj' b).trans (congrArg some hb)
    have hlt := shape.childOn_lt hstep
    obtain ⟨p, hp⟩ := TreeShape.exists_descend (k := BitVec.ofNat 8 j) (by rwa [hjidx])
    exact ⟨p ++ [b], by simp [hp, hstep]⟩
termination_by nodes.length - k.toNat
decreasing_by omega

end

end Sys2Proof.Machine
end

section
/-! PROOFS. The code table of a tree (42_code_table.md R122 to R126; 45_invariants.md R165, R166). GEN's walk records only paths to
leaves, and one for every leaf it reaches; as there is only one way to a leaf, the code of a symbol is that way. -/

namespace Sys2Proof.Machine

/-! ## What a walk records (R120) -/

theorem recordCode_eq_ok {sym : CharCode} {p : BitString} {ct ct' : Vector (Option BitString) 95}
    (h : recordCode sym p ct = .ok ct') :
    ∃ i, sym = ordinalOf i ∧ ∀ k : SymIdx, ct'[k] = if i = k then some p else ct[k] := by
  obtain ⟨i, hi, hset⟩ | ⟨-, herr⟩ := recordCode_cases sym p ct
  · obtain rfl : ct.set i (some p) = ct' := Except.ok.inj (hset.symm.trans h)
    refine ⟨i, BitVec.eq_of_toNat_eq ?_, fun k => by simp [Vector.getElem_set, Fin.ext_iff]⟩
    rw [ordinalOf_toNat, (symIndex_eq_some_iff sym i).mp hi]
  · cases herr.symm.trans h

/-- A walk that succeeds has recorded a Leaf, or walked left and then right from an Internal node. -/
theorem walk_eq_ok_cases {nodes : List Node} {fuel : Nat} {j : NodeIdx} {p : BitString} {ct ct' : Vector (Option BitString) 95}
    (h : walk nodes (fuel + 1) j p ct = .ok ct') :
    (∃ sym f, nodeAt nodes j = some (.leaf sym f) ∧ recordCode sym p ct = .ok ct') ∨
      ∃ f l r ct₁, nodeAt nodes j = some (.internal f l r) ∧ walk nodes fuel l (p ++ [false]) ct = .ok ct₁ ∧
        walk nodes fuel r (p ++ [true]) ct₁ = .ok ct' := by
  unfold walk at h
  split at h
  · cases h
  next sym f hj => exact .inl ⟨sym, f, hj, h⟩
  next f l r hj =>
    split at h
    next ct₁ hleft => exact .inr ⟨f, l, r, ct₁, hj, hleft, h⟩
    · cases h

theorem follow_cons_of_internal {nodes : List Node} {j l r : NodeIdx} {f : Freq}
    (hj : nodeAt nodes j = some (.internal f l r)) (b : Bool) (p : BitString) :
    follow nodes j (b :: p) = follow nodes (if b then r else l) p := by
  simp [follow, hj]

theorem follow_of_leaf {nodes : List Node} {j : NodeIdx} {sym : CharCode} {f : Freq} {p : BitString} {n : Node}
    (hj : nodeAt nodes j = some (.leaf sym f)) (h : follow nodes j p = some n) : p = [] ∧ n = .leaf sym f := by
  obtain ⟨k, hk, hn⟩ := follow_eq_some_iff.mp h
  obtain rfl := descend_of_leaf hj hk
  cases hk
  cases hn.symm.trans hj
  exact ⟨rfl, rfl⟩

/-- Every code is one that was there before, or the path so far and on to the Leaf of its symbol. -/
theorem walk_sound {nodes : List Node} {fuel : Nat} {j : NodeIdx} {p q : BitString} {ct ct' : Vector (Option BitString) 95}
    (h : walk nodes fuel j p ct = .ok ct') {i : SymIdx} (hq : ct'[i] = some q) :
    ct[i] = some q ∨ ∃ s g, q = p ++ s ∧ follow nodes j s = some (.leaf (ordinalOf i) g) := by
  induction fuel generalizing j p ct ct' with
  | zero => cases h
  | succ fuel ih =>
    obtain ⟨sym, f, hj, hrec⟩ | ⟨f, l, r, ct₁, hj, hleft, hright⟩ := walk_eq_ok_cases h
    · obtain ⟨k, rfl, hget⟩ := recordCode_eq_ok hrec
      rw [hget i] at hq
      split at hq
      next hk =>
        cases hq
        exact .inr ⟨[], f, (List.append_nil _).symm, by rw [← hk]; exact hj⟩
      · exact .inl hq
    · obtain hold | ⟨s, g, rfl, hs⟩ := ih hright hq
      · obtain hold | ⟨s, g, rfl, hs⟩ := ih hleft hold
        · exact .inl hold
        · exact .inr ⟨false :: s, g, by simp, (follow_cons_of_internal hj false s).trans hs⟩
      · exact .inr ⟨true :: s, g, by simp, (follow_cons_of_internal hj true s).trans hs⟩

theorem walk_keeps {nodes : List Node} {fuel : Nat} {j : NodeIdx} {p : BitString} {ct ct' : Vector (Option BitString) 95}
    (h : walk nodes fuel j p ct = .ok ct') {i : SymIdx} (hi : ct[i] ≠ none) : ct'[i] ≠ none := by
  induction fuel generalizing j p ct ct' with
  | zero => cases h
  | succ fuel ih =>
    obtain ⟨sym, f, -, hrec⟩ | ⟨f, l, r, ct₁, -, hleft, hright⟩ := walk_eq_ok_cases h
    · obtain ⟨k, -, hget⟩ := recordCode_eq_ok hrec
      rw [hget i]
      split
      · exact nofun
      · exact hi
    · exact ih hright (ih hleft hi)

/-- Every Leaf below the start of a walk has its symbol's code recorded. -/
theorem walk_complete {nodes : List Node} {fuel : Nat} {j : NodeIdx} {p s : BitString}
    {ct ct' : Vector (Option BitString) 95} (h : walk nodes fuel j p ct = .ok ct') {i : SymIdx} {g : Freq}
    (hs : follow nodes j s = some (.leaf (ordinalOf i) g)) : ct'[i] ≠ none := by
  induction fuel generalizing j p s ct ct' with
  | zero => cases h
  | succ fuel ih =>
    obtain ⟨sym, f, hj, hrec⟩ | ⟨f, l, r, ct₁, hj, hleft, hright⟩ := walk_eq_ok_cases h
    · obtain ⟨k, rfl, hget⟩ := recordCode_eq_ok hrec
      obtain ⟨-, hn⟩ := follow_of_leaf hj hs
      rw [hget i, if_pos (ordinalOf_injective (Node.leaf.inj hn).1.symm)]
      exact nofun
    · cases s with
      | nil => cases hj.symm.trans hs
      | cons b s =>
        rw [follow_cons_of_internal hj] at hs
        cases b with
        | false => exact walk_keeps hright (ih hleft hs)
        | true => exact ih hright hs

/-! ## The table of a tree (R125) -/

/-- The code table `ct` is that of the tree: the paths from an Internal root to the leaves, and "0" for the symbol of a Leaf that is
the root. -/
def RecordsPaths (nodes : List Node) (root : NodeIdx) (ct : Vector (Option BitString) 95) : Prop :=
  (∀ sym f, nodeAt nodes root = some (.leaf sym f) →
    ∀ (i : SymIdx) (p : BitString), ct[i] = some p ↔ ordinalOf i = sym ∧ p = [false]) ∧
  ∀ f l r, nodeAt nodes root = some (.internal f l r) →
    ∀ (i : SymIdx) (p : BitString), ct[i] = some p ↔ ∃ g, follow nodes root p = some (.leaf (ordinalOf i) g)

theorem noCodes_get (i : SymIdx) : noCodes[i] = none := by simp [noCodes]

section
variable {ft : Vector Count 95} {nodes : List Node} {root : NodeIdx} {ct : Vector (Option BitString) 95}
variable (shape : TreeShape ft nodes root)
include shape

/-- The paths from the root to the leaf of one symbol are equal. -/
theorem TreeShape.follow_unique {sym : CharCode} {f g : Freq} {p q : BitString}
    (hp : follow nodes root p = some (.leaf sym f)) (hq : follow nodes root q = some (.leaf sym g)) : p = q := by
  obtain ⟨j, hj, hjn⟩ := follow_eq_some_iff.mp hp
  obtain ⟨k, hk, hkn⟩ := follow_eq_some_iff.mp hq
  obtain rfl := shape.leaf_unique hjn hkn
  exact shape.descend_unique hj hk

theorem TreeShape.exists_genCodes : ∃ ct, genCodes nodes root = .ok ct :=
  exists_genCodes_eq_ok shape.internalsAfter shape.walkable fun sym f hmem => by
    obtain ⟨k, hk⟩ := List.mem_iff_getElem?.mp hmem
    obtain ⟨-, i, hi, -⟩ := shape.of_leaf ((shape.nodeAt_ofNat (List.getElem?_eq_some_iff.mp hk).1).trans hk)
    exact ⟨i, hi⟩

theorem TreeShape.recordsPaths (h : genCodes nodes root = .ok ct) : RecordsPaths nodes root ct := by
  refine ⟨fun sym f hroot i p => ?_, fun f l r hroot i p => ?_⟩
  · rw [genCodes_of_leaf hroot] at h
    obtain ⟨k, rfl, hget⟩ := recordCode_eq_ok h
    rw [hget i, noCodes_get]
    by_cases hk : k = i
    · simp [hk, eq_comm]
    · simp [hk, mt ordinalOf_injective (Ne.symm hk)]
  · rw [genCodes_of_internal hroot] at h
    have sound {q : BitString} (hq : ct[i] = some q) : ∃ g, follow nodes root q = some (.leaf (ordinalOf i) g) := by
      obtain hold | ⟨s, g, rfl, hs⟩ := walk_sound h hq
      · rw [noCodes_get] at hold
        cases hold
      · exact ⟨g, hs⟩
    refine ⟨sound, fun ⟨g, hp⟩ => ?_⟩
    obtain ⟨q, hq⟩ := Option.ne_none_iff_exists'.mp (walk_complete h hp)
    obtain ⟨g', hq'⟩ := sound hq
    rw [hq, shape.follow_unique hq' hp]

/-- A symbol has a code exactly if it has a count (R123, R165): its leaf is the root, or has a way to it. -/
theorem TreeShape.code_ne_none_iff (hct : RecordsPaths nodes root ct) (i : SymIdx) : ct[i] ≠ none ↔ ft[i] ≠ 0 := by
  obtain ⟨n, hroot⟩ := shape.walkable.root_exists
  have of_node {k : NodeIdx} {g : Freq} (hk : nodeAt nodes k = some (.leaf (ordinalOf i) g)) : ft[i] ≠ 0 := by
    obtain ⟨-, i', hi', -, hne⟩ := shape.of_leaf hk
    rwa [ordinalOf_injective hi']
  rw [Option.ne_none_iff_exists']
  cases n with
  | leaf sym f =>
    refine ⟨fun ⟨p, hp⟩ => ?_, fun hi => ?_⟩
    · obtain ⟨rfl, -⟩ := (hct.1 sym f hroot i p).mp hp
      exact of_node hroot
    · have hone := shape.root_leaf_iff.mp ⟨sym, f, hroot⟩
      have hlen := shape.node_count
      obtain ⟨k, hk⟩ := shape.exists_leaf hi
      have hlt := (List.getElem?_eq_some_iff.mp hk).1
      have hlt' := shape.root_lt
      obtain rfl : k = root := BitVec.eq_of_toNat_eq (by omega)
      cases hk.symm.trans hroot
      exact ⟨_, (hct.1 _ _ hroot i [false]).mpr ⟨rfl, rfl⟩⟩
  | internal f l r =>
    simp only [hct.2 f l r hroot i]
    refine ⟨fun ⟨p, g, hp⟩ => ?_, fun hi => ?_⟩
    · obtain ⟨k, -, hk⟩ := follow_eq_some_iff.mp hp
      exact of_node hk
    · obtain ⟨k, hk⟩ := shape.exists_leaf hi
      obtain ⟨p, hp⟩ := shape.exists_descend (List.getElem?_eq_some_iff.mp hk).1
      exact ⟨p, _, follow_eq_some_iff.mpr ⟨k, hp, hk⟩⟩

/-- A code has at least one bit and at most one for each Internal node (R126). -/
theorem TreeShape.codesWithin (h : genCodes nodes root = .ok ct) : CodesWithin (max 1 (leafCount ft - 1)) ct := by
  have hroot := shape.root_is_last
  have hcount := shape.node_count
  have hpos := shape.leaves_exist
  have hlen : root.toNat + 1 - leafCount ft ≤ leafCount ft - 1 := by omega
  exact codesWithin_genCodes shape.internalsAfter (le_max_left _ _) (hlen.trans (le_max_right _ _)) h

end

/-- A code that begins another is the same symbol's: there is no way on from a Leaf (R166). -/
theorem RecordsPaths.eq_of_isPrefix {nodes : List Node} {root : NodeIdx} {ct : Vector (Option BitString) 95}
    (hct : RecordsPaths nodes root ct) {n : Node} (hroot : nodeAt nodes root = some n) {i j : SymIdx} {p q : BitString}
    (hp : ct[i] = some p) (hq : ct[j] = some q) (h : p <+: q) : i = j := by
  cases n with
  | leaf sym f =>
    obtain ⟨hi, -⟩ := (hct.1 sym f hroot i p).mp hp
    obtain ⟨hj, -⟩ := (hct.1 sym f hroot j q).mp hq
    exact ordinalOf_injective (hi.trans hj.symm)
  | internal f l r =>
    obtain ⟨g, hp⟩ := (hct.2 f l r hroot i p).mp hp
    obtain ⟨g', hq⟩ := (hct.2 f l r hroot j q).mp hq
    obtain ⟨s, rfl⟩ := h
    obtain ⟨k, hk, hkn⟩ := follow_eq_some_iff.mp hp
    obtain ⟨k', hk', hkn'⟩ := follow_eq_some_iff.mp hq
    rw [descend_append, hk, Option.bind_some] at hk'
    obtain rfl := descend_of_leaf hkn hk'
    cases hk'
    exact ordinalOf_injective (Node.leaf.inj (Option.some.inj (hkn.symm.trans hkn'))).1

/-! ## The obligations -/

section
variable {e : Engine} (h : e.Inv) (he : e.phase = .coded)
include h he

theorem Engine.genCodes_of_inv : genCodes e.node e.root = .ok e.ct :=
  e.codesOfTree_iff.mp ((Engine.inv_coded_iff he).mp h).2.2

theorem Engine.coded_shape_of_inv : TreeShape e.ft e.node e.root := Engine.treeShape_of_inv h (by simp [he])

theorem Engine.recordsPaths_of_inv : RecordsPaths e.node e.root e.ct :=
  (Engine.coded_shape_of_inv h he).recordsPaths (Engine.genCodes_of_inv h he)

end

/-- Settles O36: GEN finds the table of the tree, which records the paths. -/
theorem genRecordsEveryLeafPath : Obligations.GenRecordsEveryLeafPath := by
  intro s h hs
  have shape := Engine.treeShape_of_inv h (by simp [hs])
  obtain ⟨ct, hct⟩ := shape.exists_genCodes
  exact ⟨ct, exec_gen_of_genCodes hs hct, shape.recordsPaths hct⟩

/-- Settles O37: a leaf for each count above 0, a path to each leaf, and the bounds of the walk. -/
theorem codesExistExactlyForCountedSymbols : Obligations.CodesExistExactlyForCountedSymbols := by
  intro e h he
  refine ⟨(Engine.coded_shape_of_inv h he).code_ne_none_iff (Engine.recordsPaths_of_inv h he), fun i p hp => ?_⟩
  obtain ⟨hpos, hle⟩ := Engine.codesWithin_of_inv h he i p hp
  exact ⟨List.ne_nil_of_length_pos hpos, hle⟩

/-- Settles O38: as many codes as counts above 0, and a walk passes each Internal node at most once. -/
theorem codeLengthsAreBounded : Obligations.CodeLengthsAreBounded := by
  intro e h he
  have shape := Engine.coded_shape_of_inv h he
  have hiff := shape.code_ne_none_iff (Engine.recordsPaths_of_inv h he)
  rw [Engine.nleaves_of_inv h (by simp [he])]
  refine ⟨?_, fun i p hp => ?_⟩
  · refine congrArg List.length (List.filter_congr fun i _ => ?_)
    rw [Bool.eq_iff_iff, Option.isSome_iff_ne_none, hiff i, bne_iff_ne]
  · obtain ⟨hpos, hle⟩ := shape.codesWithin (Engine.genCodes_of_inv h he) i p hp
    omega

/-- Settles O39: the codes are paths to different leaves. -/
theorem codesArePrefixFree : Obligations.CodesArePrefixFree := by
  intro e i j p q h he hij hp hq
  have hct := Engine.recordsPaths_of_inv h he
  obtain ⟨n, hroot⟩ := (Engine.coded_shape_of_inv h he).walkable.root_exists
  exact ⟨fun hpq => hij (hct.eq_of_isPrefix hroot hp hq hpq), fun hqp => hij (hct.eq_of_isPrefix hroot hq hp hqp).symm⟩

/-- Settles O15: a run from reset keeps the invariant, and its clauses are the shape of the tree and the paths of the code table. -/
theorem whatHoldsInEveryReachableState : Obligations.WhatHoldsInEveryReachableState := by
  refine ⟨fun n events t => inv_of_run_reset, fun e h => ⟨?_, fun he => ?_, fun he => ?_, fun he i => ?_, fun he => ?_⟩⟩
  · cases e.phase with
    | load => exact .inl rfl
    | tree => exact .inr (.inl rfl)
    | coded => exact .inr (.inr rfl)
  · obtain ⟨hnl, hnn, hroot, hdcur, hnode, hct⟩ := (Engine.inv_load_iff he).mp h
    exact ⟨hnl, hnn, hroot, hdcur, hnode, fun i => hct ▸ noCodes_get i⟩
  · have shape := Engine.treeShape_of_inv h he
    have hnl := Engine.nleaves_of_inv h he
    have hnn := Engine.nnodes_of_inv h he
    obtain ⟨n, hn⟩ := Engine.exists_nodeAt_dcur_of_inv h he
    have hdcur := (List.getElem?_eq_some_iff.mp hn).1
    have hpos := shape.leaves_exist
    have hcount := shape.node_count
    have hroot := shape.root_is_last
    exact ⟨by omega, by omega, by omega, hnn, by omega, by omega, hnl, Engine.buildTree_of_inv h he⟩
  · obtain ⟨-, -, hct⟩ := (Engine.inv_tree_iff he).mp h
    exact hct ▸ noCodes_get i
  · exact Engine.recordsPaths_of_inv h he

end Sys2Proof.Machine
end

section
/-! PROOFS. The total encoded length (45_invariants.md R169). In one tree it is the sum of the Internal frequencies: sum up frequency
times depth over all nodes in two ways, as nodes and as children. And two runs of BUILD with different tie-breaks always have
the same live frequencies, so they make Internal nodes of the same frequencies. -/

namespace Sys2Proof.Machine

open Sys2Proof.Config (TieRule)

/-! ## Two tie-breaks merge the same frequencies -/

/-- The frequencies of a live set. -/
def freqs (q : List QEntry) : List Freq := q.map QEntry.freq

theorem takeMin_freq_le (t : TieRule) (e : QEntry) (es : List QEntry) {f : Freq} (hf : f ∈ freqs (e :: es)) :
    (takeMin t e es).1.freq ≤ f := by
  obtain ⟨x, hx, rfl⟩ := List.mem_map.mp hf
  exact takeMin_key_le (orderedBy_freq t) e es x hx

/-- Two tie-breaks remove the same frequency from live sets with the same frequencies, and leave the same ones. -/
theorem takeMin_freqs_perm {t t' : TieRule} {e e' : QEntry} {es es' : List QEntry}
    (h : (freqs (e :: es)).Perm (freqs (e' :: es'))) :
    (takeMin t e es).1.freq = (takeMin t' e' es').1.freq ∧ (freqs (takeMin t e es).2).Perm (freqs (takeMin t' e' es').2) := by
  have hperm : (freqs ((takeMin t e es).1 :: (takeMin t e es).2)).Perm (freqs (e :: es)) := (takeMin_perm t e es).map _
  have hperm' : (freqs ((takeMin t' e' es').1 :: (takeMin t' e' es').2)).Perm (freqs (e' :: es')) :=
    (takeMin_perm t' e' es').map _
  have heq : (takeMin t e es).1.freq = (takeMin t' e' es').1.freq := BitVec.le_antisymm
    (takeMin_freq_le t e es (h.mem_iff.mpr (hperm'.subset List.mem_cons_self)))
    (takeMin_freq_le t' e' es' (h.mem_iff.mp (hperm.subset List.mem_cons_self)))
  refine ⟨heq, List.Perm.cons_inv (a := (takeMin t e es).1.freq) ?_⟩
  conv_rhs => rw [heq]
  exact hperm.trans (h.trans hperm'.symm)

theorem internalSum_append (nodes more : List Node) : internalSum (nodes ++ more) = internalSum nodes + internalSum more := by
  simp [internalSum]

theorem internalSum_mergeNode (t : TieRule) (n : NodeIdx) (a b : QEntry) :
    internalSum [mergeNode t n a b] = (a.freq + b.freq).toNat := by
  have hinternal : (mergeNode t n a b).isLeaf = false := by
    unfold mergeNode
    split <;> rfl
  simp [internalSum, hinternal, mergeNode_freq]

theorem mergeLoop_internalSum_eq (t t' : TieRule) (fuel : Nat) {nodes nodes' : List Node} {e e' : QEntry} {es es' : List QEntry}
    (hq : (freqs (e :: es)).Perm (freqs (e' :: es'))) (hsum : internalSum nodes = internalSum nodes') :
    internalSum (mergeLoop t fuel nodes e es).nodes = internalSum (mergeLoop t' fuel nodes' e' es').nodes := by
  induction fuel generalizing nodes nodes' e e' es es' with
  | zero => exact hsum
  | succ fuel ih =>
    obtain ⟨hfreq, hrest⟩ := takeMin_freqs_perm (t := t) (t' := t') hq
    have hlen := hrest.length_eq
    simp only [freqs, List.length_map] at hlen
    cases hl : (takeMin t e es).2 with
    | nil =>
      have hl' : (takeMin t' e' es').2 = [] := List.eq_nil_of_length_eq_zero (by rw [← hlen, hl]; rfl)
      rw [mergeLoop_last t fuel nodes hl, mergeLoop_last t' fuel nodes' hl']
      exact hsum
    | cons q qs =>
      obtain ⟨q', qs', hl'⟩ := List.exists_cons_of_length_pos (l := (takeMin t' e' es').2) (by rw [← hlen, hl]; simp)
      rw [hl, hl'] at hrest
      obtain ⟨hfreq', hrest'⟩ := takeMin_freqs_perm (t := t) (t' := t') hrest
      rw [mergeLoop_round t fuel nodes hl, mergeLoop_round t' fuel nodes' hl']
      refine ih ?_ ?_
      · simp only [freqs, List.map_cons, hfreq, hfreq'] at hrest' ⊢
        exact hrest'.cons _
      · rw [internalSum_append, internalSum_append, internalSum_mergeNode, internalSum_mergeNode, hsum, hfreq, hfreq']

/-- The sum of the Internal frequencies is the same for every tie-break and left/right choice. -/
theorem internalSum_tie_independent {t t' : TieRule} {ft : Vector Count 95} {b b' : Built} (h : buildTree t ft = some b)
    (h' : buildTree t' ft = some b') : internalSum b.nodes = internalSum b'.nodes := by
  unfold buildTree at h h'
  split at h
  · cases h
  next e es hq =>
    rw [hq] at h'
    cases h
    cases h'
    exact mergeLoop_internalSum_eq t t' _ (.refl _) rfl

/-! ## The depth of a node -/

/-- Every node has a depth: the root 0, children one more than their parent, and the length of every way from the root. -/
theorem TreeShape.exists_depth {ft : Vector Count 95} {nodes : List Node} {root : NodeIdx} (shape : TreeShape ft nodes root) :
    ∃ depth : Nat → Nat, depth root.toNat = 0 ∧
      (∀ (j : NodeIdx) f l r, nodeAt nodes j = some (.internal f l r) →
        depth l.toNat = depth j.toNat + 1 ∧ depth r.toNat = depth j.toNat + 1) ∧
      ∀ (k : NodeIdx) p, descend nodes root p = some k → depth k.toNat = p.length := by
  have hlength (k : Nat) : ∃ d, ∀ (k' : NodeIdx) p, k'.toNat = k → descend nodes root p = some k' → d = p.length := by
    by_cases hk : ∃ (k' : NodeIdx) (p : BitString), k'.toNat = k ∧ descend nodes root p = some k'
    · obtain ⟨k', p, rfl, hp⟩ := hk
      refine ⟨p.length, fun k'' q hk hq => ?_⟩
      obtain rfl := BitVec.eq_of_toNat_eq hk
      rw [shape.descend_unique hp hq]
    · exact ⟨0, fun k' p hk' hp => absurd ⟨k', p, hk', hp⟩ hk⟩
  choose depth hdepth using hlength
  refine ⟨depth, hdepth _ root [] rfl rfl, fun j f l r hj => ?_, fun k p => hdepth _ k p rfl⟩
  obtain ⟨p, hp⟩ := shape.exists_descend (List.getElem?_eq_some_iff.mp hj).1
  have hchild (b : Bool) : depth (if b then r else l).toNat = depth j.toNat + 1 := by
    rw [hdepth _ _ (p ++ [b]) rfl (by simp [hp, childOn_of_internal hj b]), hdepth _ _ p rfl hp, List.length_append,
      List.length_singleton]
  exact ⟨hchild false, hchild true⟩

/-! ## The encoded length of one tree -/

/-- What a leaf adds to the encoded length: its frequency times the length of its symbol's code. -/
def Node.encodedCost (ct : Vector (Option BitString) 95) : Node → Nat
  | .leaf sym f => f.toNat * ((codeOf ct sym).getD []).length
  | .internal _ _ _ => 0

/-- The frequency of an Internal node, 0 for a Leaf. -/
def Node.internalFreq : Node → Nat
  | .leaf _ _ => 0
  | .internal f _ _ => f.toNat

theorem internalSum_eq_sum_internalFreq (nodes : List Node) : internalSum nodes = (nodes.map Node.internalFreq).sum := by
  induction nodes with
  | nil => rfl
  | cons x nodes ih =>
    rw [List.map_cons, List.sum_cons, ← ih]
    cases x with
    | leaf => simp [internalSum, Node.isLeaf, Node.internalFreq]
    | internal => simp [internalSum, Node.isLeaf, Node.internalFreq, Node.freq]

theorem sum_map_leavesOf (F : Node → Nat) (ft : Vector Count 95) :
    ((leavesOf ft).map F).sum =
      ((List.finRange 95).map (fun i : SymIdx => if ft[i] = 0 then 0 else F (.leaf (ordinalOf i) (ft[i].setWidth 39)))).sum := by
  rw [leavesOf]
  induction List.finRange 95 with
  | nil => rfl
  | cons i is ih =>
    by_cases hi : ft[i] = 0
    · rw [List.filterMap_cons_none (by simp [leafOf, hi]), ih, List.map_cons, List.sum_cons, if_pos hi, Nat.zero_add]
    · rw [List.filterMap_cons_some (by simp only [leafOf, if_neg hi]; rfl), List.map_cons, List.sum_cons, ih, List.map_cons,
        List.sum_cons, if_neg hi]

/-- The leaves of a tree carry the encoded length. -/
theorem sum_encodedCost {t : TieRule} {ft : Vector Count 95} {b : Built} (h : buildTree t ft = some b)
    (ct : Vector (Option BitString) 95) : (b.nodes.map (Node.encodedCost ct)).sum = encodedLength ft ct := by
  obtain ⟨more, hmore⟩ := exists_append_of_buildTree h
  have hzero : (more.map (Node.encodedCost ct)).sum = 0 := by
    refine List.sum_eq_zero fun c hc => ?_
    obtain ⟨x, hx, rfl⟩ := List.mem_map.mp hc
    cases x with
    | internal => rfl
    | leaf sym f =>
      obtain ⟨k, hk⟩ := List.mem_iff_getElem?.mp hx
      have hget : b.nodes[(leavesOf ft).length + k]? = some (.leaf sym f) := by
        rw [hmore, List.getElem?_append_right (Nat.le_add_right _ _), Nat.add_sub_cancel_left, hk]
      have hlt := lt_leafCount_of_leaf h hget
      rw [leavesOf_length] at hlt
      omega
  rw [hmore, List.map_append, List.sum_append, hzero, Nat.add_zero, sum_map_leavesOf, encodedLength]
  refine congrArg List.sum (List.map_congr_left fun i _ => ?_)
  split
  next hi => simp [hi]
  next => rw [Node.encodedCost, count_toNat_setWidth, codeOf_of_symIndex (symIndex_ordinalOf i)]

/-- Summing over the nodes what holds of each between its children and itself. -/
theorem sum_children_add {nodes : List Node} {F G : Node → Nat} {g : Nat → Nat}
    (h : ∀ k x, nodes[k]? = some x → (x.children.map g).sum + F x = g k + G x) :
    ((nodes.flatMap Node.children).map g).sum + (nodes.map F).sum =
      ((List.range nodes.length).map g).sum + (nodes.map G).sum := by
  induction nodes using List.reverseRecOn with
  | nil => rfl
  | append_singleton nodes x ih =>
    have hold := ih fun k y hk => h k y (by rw [List.getElem?_append_left (List.getElem?_eq_some_iff.mp hk).1, hk])
    have hnew := h nodes.length x List.getElem?_concat_length
    simp only [List.flatMap_append, List.flatMap_singleton, List.map_append, List.sum_append, List.map_singleton,
      List.sum_singleton, List.length_append, List.length_singleton, List.range_succ]
    omega

/-- With an Internal root the encoded length is the sum of the Internal frequencies: frequency times depth, summed over the nodes
and over the children, differs by what one level more adds at each Internal node. -/
theorem encodedLength_eq_internalSum {t : TieRule} {ft : Vector Count 95} {b : Built} (h : buildTree t ft = some b)
    {ct : Vector (Option BitString) 95} (hct : RecordsPaths b.nodes b.root ct) (hL : 2 ≤ leafCount ft) :
    encodedLength ft ct = internalSum b.nodes := by
  have shape := treeShape_of_buildTree h
  obtain ⟨depth, hroot, hchildren, hpath⟩ := shape.exists_depth
  obtain ⟨f₀, l₀, r₀, hr, -⟩ := shape.internals_after b.root.toNat (by
    have := shape.root_is_last
    have := shape.node_count
    omega) shape.root_lt
  have hnode (k : Nat) (x : Node) (hk : b.nodes[k]? = some x) :
      (x.children.map (fun k => freqAt b.nodes k * depth k)).sum + x.encodedCost ct =
        freqAt b.nodes k * depth k + x.internalFreq := by
    have hlt := (List.getElem?_eq_some_iff.mp hk).1
    have hidx : (BitVec.ofNat 8 k).toNat = k := by
      have := shape.length_le
      rw [BitVec.toNat_ofNat, Nat.mod_eq_of_lt (by omega)]
    have hk' := (shape.nodeAt_ofNat hlt).trans hk
    cases x with
    | leaf sym f =>
      obtain ⟨-, i, rfl, -, -⟩ := shape.of_leaf hk'
      obtain ⟨p, hp⟩ := shape.exists_descend (k := BitVec.ofNat 8 k) (by rwa [hidx])
      have hcode : ct[i] = some p :=
        (hct.2 f₀ l₀ r₀ hr i p).mpr ⟨f, follow_eq_some_iff.mpr ⟨_, hp, hk'⟩⟩
      have hdepth := hpath _ p hp
      rw [hidx] at hdepth
      simp [Node.children, Node.encodedCost, Node.internalFreq, freqAt_of_getElem? hk, Node.freq,
        codeOf_of_symIndex (symIndex_ordinalOf i), hcode, hdepth]
    | internal f l r =>
      obtain ⟨hl, hr⟩ := hchildren _ f l r hk'
      have hsum := (frequencyLaws_of_buildTree h).sum_of_children k f l r hk
      rw [hidx] at hl hr
      simp only [Node.children, Node.encodedCost, Node.internalFreq, freqAt_of_getElem? hk, Node.freq, hl, hr,
        List.map_cons, List.map_nil, List.sum_cons, List.sum_nil, hsum]
      ring
  have hperm := ((children_perm_of_buildTree h).map (fun k => freqAt b.nodes k * depth k)).sum_nat
  have htotal := sum_children_add hnode
  rw [sum_encodedCost h, ← internalSum_eq_sum_internalFreq] at htotal
  simp only [List.map_append, List.sum_append, List.map_singleton, List.sum_singleton, hroot, Nat.mul_zero] at hperm
  omega

/-- With one symbol each of its occurrences costs one bit. -/
theorem encodedLength_eq_totalCount {ft : Vector Count 95} {nodes : List Node} {root : NodeIdx}
    (shape : TreeShape ft nodes root) {ct : Vector (Option BitString) 95} (hct : RecordsPaths nodes root ct)
    (hL : leafCount ft = 1) : encodedLength ft ct = totalCount ft := by
  obtain ⟨sym, f, hroot⟩ := shape.root_leaf_iff.mpr hL
  refine congrArg List.sum (List.map_congr_left fun i _ => ?_)
  by_cases hi : ft[i] = 0
  · simp [hi]
  · obtain ⟨p, hp⟩ := Option.ne_none_iff_exists'.mp ((shape.code_ne_none_iff hct i).mpr hi)
    obtain ⟨-, rfl⟩ := (hct.1 sym f hroot i p).mp hp
    simp [hp]

/-! ## The encoded length of a text -/

/-- A character adds the length of its code to the sum over the symbols. -/
theorem sum_codes_of_char (ct : Vector (Option BitString) 95) (o : Nat) :
    ((List.finRange 95).map (fun i : SymIdx => (if o = i.val + 32 then 1 else 0) * (ct[i].getD []).length)).sum =
      (codeOfChar ct o).length := by
  rw [← Fin.sum_univ_def]
  unfold codeOfChar
  split
  next ho =>
    rw [Finset.sum_eq_single ⟨o - 32, by omega⟩ (fun i _ hi => ?_) (fun h => absurd (Finset.mem_univ _) h)]
    · rw [if_pos (by simp only; omega), Nat.one_mul]
      rfl
    · have hne : o ≠ i.val + 32 := fun heq => hi (Fin.ext (by simp [heq]))
      simp [hne]
  next ho =>
    refine Finset.sum_eq_zero fun i _ => ?_
    have hne : o ≠ i.val + 32 := by omega
    simp [hne]

/-- The encoding of a text is as long as the counts of its symbols times the lengths of their codes. -/
theorem encodePure_length (ct : Vector (Option BitString) 95) (text : List Nat) :
    (encodePure ct text).length =
      ((List.finRange 95).map (fun i : SymIdx => text.count (i.val + 32) * (ct[i].getD []).length)).sum := by
  induction text with
  | nil => simp [encodePure]
  | cons o text ih =>
    rw [encodePure, List.flatMap_cons, List.length_append, ← encodePure, ih, ← sum_codes_of_char, ← List.sum_map_add]
    refine congrArg List.sum (List.map_congr_left fun i _ => ?_)
    rw [List.count_cons, ← Nat.add_mul, Nat.add_comm]
    simp only [beq_iff_eq]

theorem encodePure_length_eq_encodedLength {text : List Nat} (hfits : ∀ i : SymIdx, (freqAnalyze text)[i] < 2 ^ 32)
    (ct : Vector (Option BitString) 95) :
    (encodePure ct text).length = encodedLength (tableOf (freqAnalyze text)) ct := by
  rw [encodePure_length, encodedLength]
  refine congrArg List.sum (List.map_congr_left fun i _ => ?_)
  rw [tableOf_get, BitVec.toNat_ofNat, Nat.mod_eq_of_lt (hfits i), freqAnalyze_get]

/-- Settles O40: with two or more symbols both lengths are the sum of the Internal frequencies, which no tie-break changes; with
one symbol both are its count. -/
theorem encodedLengthIsTieIndependent : Obligations.EncodedLengthIsTieIndependent := by
  intro t t' ft b b' h h'
  have shape := treeShape_of_buildTree h
  have shape' := treeShape_of_buildTree h'
  obtain ⟨ct, hgen⟩ := shape.exists_genCodes
  obtain ⟨ct', hgen'⟩ := shape'.exists_genCodes
  have hct := shape.recordsPaths hgen
  have hct' := shape'.recordsPaths hgen'
  refine ⟨ct, ct', hgen, hgen', ?_, fun text hfits hft => hft ▸ encodePure_length_eq_encodedLength hfits ct,
    encodedLength_eq_internalSum h hct, encodedLength_eq_totalCount shape hct⟩
  obtain hone | htwo := shape.leaves_exist.1.eq_or_lt
  · rw [encodedLength_eq_totalCount shape hct hone.symm, encodedLength_eq_totalCount shape' hct' hone.symm]
  · rw [encodedLength_eq_internalSum h hct htwo, encodedLength_eq_internalSum h' hct' htwo, internalSum_tie_independent h h']

end Sys2Proof.Machine
end

section
/-! PROOFS. The frequency-table commands and the read-backs (40_frequency_table.md R90, R91; 41_tree_builder.md R110; 42_code_table.md
R127; 10_state.md R32): each completes, and the data word is read field by field. -/

namespace Sys2Proof.Machine

theorem symIndex_eq_none_of_outside {c : CharCode} (hc : c.toNat < 32 ∨ 126 < c.toNat) : symIndex c = none :=
  (symIndex_eq_none_iff c).mpr hc

theorem symIndex_eq_some_of_toNat {c : CharCode} {k : SymIdx} (hc : c.toNat = k.val + 32) : symIndex c = some k :=
  (symIndex_eq_some_iff c k).mpr hc

/-! ## LDF, RDF, RDC -/

/-- Settles O25: the entry of a symbol index is overwritten, and outside the alphabet there is none. -/
theorem ldfOverwritesOneCount : Obligations.LdfOverwritesOneCount := by
  intro s c count hs
  cases hc : symIndex c with
  | some i =>
    refine ⟨_, exec_ldf_of_symIndex hs hc count, rfl, rfl, rfl, fun k => ?_⟩
    rw [State.respond_ft, setFt_get]
    refine if_congr ?_ rfl rfl
    rw [← symIndex_eq_some_iff, hc, Option.some.injEq]
  | none =>
    refine ⟨_, exec_ldf_of_outside hs hc count, rfl, rfl, rfl, fun k => (if_neg fun hk => ?_).symm⟩
    cases hc.symm.trans (symIndex_eq_some_of_toNat hk)

theorem exec_rdf_eq (c : CharCode) (s : State) :
    exec (.rdf c) s = .next (s.respond .ok ((countOf s.eng.ft c).setWidth 128)) := rfl

/-- Settles O26: the count of the symbol index, zero-extended, or 0. -/
theorem rdfAnswersTheCount : Obligations.RdfAnswersTheCount := by
  intro s c
  refine ⟨_, exec_rdf_eq c s, fun k hk => ?_, fun hc => ?_⟩
  · have hlt := s.eng.ft[k].isLt
    rw [countOf_of_symIndex (symIndex_eq_some_of_toNat hk), BitVec.toNat_setWidth, Nat.mod_eq_of_lt (by omega)]
  · simp [countOf, symIndex_eq_none_of_outside hc]

/-- Settles O42: RDC looks up the symbol index, and packs the code it finds. -/
theorem rdcAnswersThePackedCode : Obligations.RdcAnswersThePackedCode := by
  intro s c hs
  refine ⟨_, exec_rdc_coded hs c, fun hc => ?_, fun k hk => ?_⟩
  · simp [codeOf, symIndex_eq_none_of_outside hc]
  · rw [codeOf_of_symIndex (symIndex_eq_some_of_toNat hk)]
    exact ⟨fun hnone => by rw [hnone]; rfl, fun p hp => by rw [hp]; rfl⟩

/-! ## RDN (R110) -/

/-- A reserved field of a word is given by its bits. -/
theorem extractLsb'_eq_zero_of_getLsbD {n w : Nat} {x : BitVec n} (start : Nat)
    (h : ∀ i, i < w → x.getLsbD (start + i) = false) : x.extractLsb' start w = 0 :=
  extractLsb'_eq_of_getLsbD start fun i hi => (h i hi).trans BitVec.getLsbD_zero.symm

theorem nodeData_valid (n : Node) : (nodeData n).getLsbD 0 = true := by
  cases n with
  | leaf => simp [nodeData_leaf_getLsbD]
  | internal => simp [nodeData_internal_getLsbD]

theorem nodeData_kind (n : Node) : (nodeData n).getLsbD 1 = !n.isLeaf := by
  cases n with
  | leaf =>
    rw [nodeData_leaf_getLsbD, if_neg (by omega), if_pos (by omega)]
    rfl
  | internal => simp [nodeData_internal_getLsbD, Node.isLeaf]

theorem nodeData_reserved (n : Node) : (nodeData n).extractLsb' 2 6 = 0 :=
  extractLsb'_eq_zero_of_getLsbD 2 fun i hi => by
    cases n with
    | leaf =>
      rw [nodeData_leaf_getLsbD, if_neg (by omega), if_pos (by omega)]
    | internal =>
      rw [nodeData_internal_getLsbD, if_neg (by omega), if_pos (by omega)]

theorem nodeData_freq_bits (n : Node) (i : Nat) : (nodeData n).getLsbD (32 + i) = n.freq.getLsbD i := by
  cases n with
  | leaf =>
    rw [nodeData_leaf_getLsbD, if_neg (by omega), if_neg (by omega), if_neg (by omega), if_neg (by omega),
      Nat.add_sub_cancel_left, Node.freq]
  | internal =>
    rw [nodeData_internal_getLsbD, if_neg (by omega), if_neg (by omega), if_neg (by omega), if_neg (by omega),
      Nat.add_sub_cancel_left, Node.freq]

theorem nodeData_freq (n : Node) : (nodeData n).extractLsb' 32 39 = n.freq :=
  extractLsb'_eq_of_getLsbD 32 fun i _ => nodeData_freq_bits n i

theorem nodeData_high (n : Node) : (nodeData n).extractLsb' 71 57 = 0 :=
  extractLsb'_eq_zero_of_getLsbD 71 fun i _ => by
    rw [show 71 + i = 32 + (39 + i) by omega, nodeData_freq_bits, BitVec.getLsbD_of_ge _ _ (by omega)]

theorem nodeData_leaf_fields (sym : CharCode) (f : Freq) :
    (nodeData (.leaf sym f)).extractLsb' 8 8 = sym ∧ (nodeData (.leaf sym f)).extractLsb' 16 8 = 0 ∧
      (nodeData (.leaf sym f)).extractLsb' 24 8 = 0 := by
  refine ⟨extractLsb'_eq_of_getLsbD 8 fun i hi => ?_, extractLsb'_eq_zero_of_getLsbD 16 fun i hi => ?_,
    extractLsb'_eq_zero_of_getLsbD 24 fun i hi => ?_⟩
  · rw [nodeData_leaf_getLsbD, if_neg (by omega), if_neg (by omega), if_pos (by omega), Nat.add_sub_cancel_left]
  · rw [nodeData_leaf_getLsbD, if_neg (by omega), if_neg (by omega), if_neg (by omega), if_pos (by omega)]
  · rw [nodeData_leaf_getLsbD, if_neg (by omega), if_neg (by omega), if_neg (by omega), if_pos (by omega)]

theorem nodeData_internal_fields (f : Freq) (l r : NodeIdx) :
    (nodeData (.internal f l r)).extractLsb' 8 8 = 0 ∧ (nodeData (.internal f l r)).extractLsb' 16 8 = l ∧
      (nodeData (.internal f l r)).extractLsb' 24 8 = r := by
  refine ⟨extractLsb'_eq_zero_of_getLsbD 8 fun i hi => ?_, extractLsb'_eq_of_getLsbD 16 fun i hi => ?_,
    extractLsb'_eq_of_getLsbD 24 fun i hi => ?_⟩
  · rw [nodeData_internal_getLsbD, if_neg (by omega), if_pos (by omega)]
  · rw [nodeData_internal_getLsbD, if_neg (by omega), if_neg (by omega), if_pos (by omega), Nat.add_sub_cancel_left]
  · rw [nodeData_internal_getLsbD, if_neg (by omega), if_neg (by omega), if_neg (by omega), if_pos (by omega),
      Nat.add_sub_cancel_left]

theorem exec_rdn_of_nnodes_le {s : State} {j : NodeIdx} (hs : s.eng.phase ≠ .load) (hj : s.eng.nnodes.toNat ≤ j.toNat) :
    exec (.rdn j) s = .next (s.respond .ok 0) := by
  simp [exec, execRdn, hs, hj]

theorem exec_rdn_of_nodeAt {s : State} {j : NodeIdx} {n : Node} (hs : s.eng.phase ≠ .load)
    (hj : ¬ s.eng.nnodes.toNat ≤ j.toNat) (hn : nodeAt s.eng.node j = some n) :
    exec (.rdn j) s = .next (s.respond .ok (nodeData n)) := by
  rw [exec, execRdn, if_neg hs, if_neg hj, withNode_of_some hn, complete_eq]

/-- Settles O35: beyond `nnodes` RDN answers 0, and below it there is a node, whose record has these fields. -/
theorem rdnAnswersTheNodeRecord : Obligations.RdnAnswersTheNodeRecord := by
  intro s j h hs
  by_cases hj : s.eng.nnodes.toNat ≤ j.toNat
  · exact ⟨0, exec_rdn_of_nnodes_le hs hj, fun _ => rfl, fun hlt => absurd hj (not_le.mpr hlt)⟩
  · have hnn := Engine.nnodes_of_inv h hs
    obtain ⟨n, hn⟩ := exists_nodeAt_of_lt (nodes := s.eng.node) (j := j) (by omega)
    refine ⟨_, exec_rdn_of_nodeAt hs hj hn, fun hle => absurd hle hj, fun _ => ⟨n, hn, nodeData_valid n, nodeData_kind n,
      nodeData_reserved n, nodeData_freq n, nodeData_high n, ?_, ?_⟩⟩
    · rintro sym f rfl
      exact nodeData_leaf_fields sym f
    · rintro f l r rfl
      exact nodeData_internal_fields f l r

/-! ## RDS (R32) -/

theorem Engine.rootIsLeaf_iff (e : Engine) : e.rootIsLeaf = true ↔ e.phase ≠ .load ∧ e.nleaves = 1 := by
  simp [Engine.rootIsLeaf]

theorem Engine.atRoot_iff (e : Engine) : e.atRoot = true ↔ e.dcur = e.root := by simp [Engine.atRoot]

theorem exec_rds_eq (s : State) : exec .rds s = .next (s.respond .ok s.eng.statusWord) := rfl

theorem statusWord_phase (e : Engine) : e.statusWord.extractLsb' 0 2 = e.phase.code :=
  extractLsb'_eq_of_getLsbD 0 fun i hi => by rw [statusWord_getLsbD, if_pos (by omega), Nat.zero_add]

/-- Settles O48: the fields of STATUS one by one. -/
theorem rdsAnswersTheStatusWord : Obligations.RdsAnswersTheStatusWord := by
  intro s
  refine ⟨_, exec_rds_eq s, ?_, ?_, ?_, ?_, ?_, ?_, ?_, ?_, ?_⟩
  · rw [statusWord_phase]
    cases s.eng.phase <;> rfl
  · rw [statusWord_getLsbD, if_neg (by omega), if_pos (by omega), Engine.rootIsLeaf_iff]
  · rw [statusWord_getLsbD, if_neg (by omega), if_neg (by omega), if_pos (by omega), Engine.atRoot_iff]
  · refine extractLsb'_eq_zero_of_getLsbD 4 fun i hi => ?_
    rw [statusWord_getLsbD, if_neg (by omega), if_neg (by omega), if_neg (by omega), if_pos (by omega)]
  · refine extractLsb'_eq_of_getLsbD 8 fun i hi => ?_
    rw [statusWord_getLsbD, if_neg (by omega), if_neg (by omega), if_neg (by omega), if_neg (by omega), if_pos (by omega),
      Nat.add_sub_cancel_left]
  · refine extractLsb'_eq_of_getLsbD 16 fun i hi => ?_
    rw [statusWord_getLsbD, if_neg (by omega), if_neg (by omega), if_neg (by omega), if_neg (by omega), if_neg (by omega),
      if_pos (by omega), Nat.add_sub_cancel_left]
  · refine extractLsb'_eq_of_getLsbD 24 fun i hi => ?_
    rw [statusWord_getLsbD, if_neg (by omega), if_neg (by omega), if_neg (by omega), if_neg (by omega), if_neg (by omega),
      if_neg (by omega), if_pos (by omega), Nat.add_sub_cancel_left]
  · refine extractLsb'_eq_of_getLsbD 32 fun i hi => ?_
    rw [statusWord_getLsbD, if_neg (by omega), if_neg (by omega), if_neg (by omega), if_neg (by omega), if_neg (by omega),
      if_neg (by omega), if_neg (by omega), Nat.add_sub_cancel_left]
  · refine extractLsb'_eq_zero_of_getLsbD 40 fun i hi => ?_
    rw [statusWord_getLsbD, if_neg (by omega), if_neg (by omega), if_neg (by omega), if_neg (by omega), if_neg (by omega),
      if_neg (by omega), if_neg (by omega), BitVec.getLsbD_of_ge _ _ (by omega)]

end Sys2Proof.Machine
end

section
/-! PROOFS. The decoder (43_decoder.md; 45_invariants.md R167, R168). The cursor rests at the root or at an Internal node; the bits of a
way to a leaf emit the leaf's symbol and lead back to the root, so the bits of an encoding emit the text. -/

namespace Sys2Proof.Machine

/-- Settles O43: DRST writes the cursor. -/
theorem drstPutsTheCursorAtTheRoot : Obligations.DrstPutsTheCursorAtTheRoot := fun _ hs => exec_drst_eq hs

/-! ## DBIT (R136 to R139) -/

theorem emitData_fields (sym : CharCode) :
    (emitData sym).getLsbD 0 = true ∧ (emitData sym).extractLsb' 1 7 = 0 ∧ (emitData sym).extractLsb' 8 8 = sym ∧
      (emitData sym).extractLsb' 16 112 = 0 := by
  refine ⟨emitData_emit sym, extractLsb'_eq_zero_of_getLsbD 1 fun i hi => ?_, emitData_sym sym,
    extractLsb'_eq_zero_of_getLsbD 16 fun i hi => ?_⟩
  · rw [emitData_getLsbD, if_neg (by omega), if_pos (by omega)]
  · rw [emitData_getLsbD, if_neg (by omega), if_neg (by omega), BitVec.getLsbD_of_ge _ _ (by omega)]

/-- Settles O44: the cursor's node and the node the bit leads to exist, and the latter decides how the command ends. -/
theorem dbitWalksOneBit : Obligations.DbitWalksOneBit := by
  intro s b h hs
  obtain ⟨n, hn⟩ := Engine.exists_nodeAt_dcur_of_inv h hs
  obtain ⟨m, hm⟩ := (Engine.walkable_of_inv h hs).bitTarget_exists b hn
  cases m with
  | leaf sym g =>
    obtain ⟨hemit, hlow, hsym, hhigh⟩ := emitData_fields sym
    refine ⟨_, _, exec_dbit_leaf hs hn hm, rfl, rfl, rfl, fun f l r hi => ?_, fun sym' g' hl => ?_⟩
    · obtain rfl := Option.some.inj (hn.symm.trans hi)
      refine ⟨⟨_, hm⟩, fun sym' g' hm' => ?_, fun g' l' r' hm' => ?_⟩
      · cases hm.symm.trans hm'
        exact ⟨rfl, hemit, hlow, hsym, hhigh⟩
      · cases hm.symm.trans hm'
    · obtain rfl := Option.some.inj (hn.symm.trans hl)
      cases hm.symm.trans hl
      exact ⟨rfl, hemit, hlow, hsym, hhigh⟩
  | internal g l r =>
    refine ⟨_, _, exec_dbit_internal hs hn hm, rfl, rfl, rfl, fun f l' r' hi => ?_, fun sym' g' hl => ?_⟩
    · obtain rfl := Option.some.inj (hn.symm.trans hi)
      refine ⟨⟨_, hm⟩, fun sym' g' hm' => ?_, fun _ _ _ _ => ⟨rfl, rfl⟩⟩
      cases hm.symm.trans hm'
    · obtain rfl := Option.some.inj (hn.symm.trans hl)
      cases hm.symm.trans hl

/-! ## Where the cursor rests (R141) -/

/-- A register of 8 bits is 1 exactly if its number is. -/
theorem eq_one_iff_toNat_eq {x : BitVec 8} : x = 1 ↔ x.toNat = 1 := BitVec.toNat_inj.symm

section
variable {e : Engine} (h : e.Inv) (he : e.phase ≠ .load)
include h he

theorem Engine.root_leaf_iff_of_inv : (∃ sym f, nodeAt e.node e.root = some (.leaf sym f)) ↔ e.nleaves = 1 := by
  rw [(Engine.treeShape_of_inv h he).root_leaf_iff, eq_one_iff_toNat_eq, Engine.nleaves_of_inv h he]

/-- A cursor at a Leaf is at the root. -/
theorem Engine.dcur_eq_root_of_leaf {sym : CharCode} {f : Freq} (hleaf : nodeAt e.node e.dcur = some (.leaf sym f)) :
    e.dcur = e.root := by
  obtain ⟨n, hn, hroot | hinternal⟩ := e.cursorOk_iff.mp (Engine.cursorOk_of_inv h he)
  · exact hroot
  · cases hn.symm.trans hleaf
    cases hinternal

/-- With a single leaf the cursor, which is at no Internal node, is at the root. -/
theorem Engine.dcur_eq_root_of_single (hone : e.nleaves = 1) : e.dcur = e.root := by
  have shape := Engine.treeShape_of_inv h he
  have hL := Engine.nleaves_of_inv h he
  rw [eq_one_iff_toNat_eq.mp hone] at hL
  obtain ⟨n, hn⟩ := Engine.exists_nodeAt_dcur_of_inv h he
  cases n with
  | leaf sym f => exact Engine.dcur_eq_root_of_leaf h he hn
  | internal f l r =>
    have hlow := (shape.of_internal hn).1
    have hhigh := (List.getElem?_eq_some_iff.mp hn).1
    have hcount := shape.node_count
    omega

end

/-- Settles O46: the cursor's clause of the invariant, and the root is a Leaf exactly with one symbol. -/
theorem cursorRestsAtRootOrInternal : Obligations.CursorRestsAtRootOrInternal := by
  intro e h
  refine ⟨fun he => ?_, fun he => ?_⟩
  · obtain ⟨-, -, -, hdcur, -⟩ := (Engine.inv_load_iff he).mp h
    exact hdcur
  · obtain ⟨n, hn, hrest⟩ := e.cursorOk_iff.mp (Engine.cursorOk_of_inv h he)
    have hlt := (List.getElem?_eq_some_iff.mp hn).1
    have hroot := Engine.root_leaf_iff_of_inv h he
    refine ⟨Engine.nnodes_of_inv h he ▸ hlt, hrest.imp_right fun hinternal => ?_, ⟨fun ⟨sym, f, hleaf⟩ => ?_, fun hone => ?_⟩,
      hroot⟩
    · cases n with
      | leaf => cases hinternal
      | internal f l r => exact ⟨f, l, r, hn⟩
    · exact hroot.mp ⟨sym, f, Engine.dcur_eq_root_of_leaf h he hleaf ▸ hleaf⟩
    · rw [Engine.dcur_eq_root_of_single h he hone]
      exact hroot.mpr hone

/-! ## Bits that lead to a leaf -/

/-- With the cursor at the root, moving it there changes nothing. -/
theorem Engine.rewound_eq {e : Engine} (hdcur : e.dcur = e.root) : { e with dcur := e.root } = e :=
  congrArg (fun k => { e with dcur := k }) hdcur.symm

/-- The bits of a way from the cursor to a Leaf emit its symbol and end with the cursor at the root. -/
theorem decodeBits_append_of_descend {e : Engine} (he : e.phase ≠ .load) {p : BitString} (hp : p ≠ []) {k : NodeIdx}
    (hk : descend e.node e.dcur p = some k) {sym : CharCode} {f : Freq} (hleaf : nodeAt e.node k = some (.leaf sym f))
    (bits : BitString) :
    decodeBits (p ++ bits) e = (decodeBits bits { e with dcur := e.root }).map (fun q => (q.1, sym :: q.2)) := by
  induction p generalizing e with
  | nil => exact absurd rfl hp
  | cons b p ih =>
    rw [descend_cons, Option.bind_eq_some_iff] at hk
    obtain ⟨j, hj, hk⟩ := hk
    obtain ⟨g, l, r, hn, rfl⟩ := childOn_eq_some_iff.mp hj
    cases p with
    | nil =>
      cases hk
      simp [decodeBits, Engine.issue_dbit_leaf he hn (b := b) hleaf]
    | cons b' p =>
      obtain ⟨m, hm, -⟩ := Option.bind_eq_some_iff.mp (descend_cons _ _ b' p ▸ hk)
      obtain ⟨g', l', r', hj', -⟩ := childOn_eq_some_iff.mp hm
      have hrest := ih (e := { e with dcur := bitTarget b e.dcur (.internal g l r) }) he (by simp) hk hleaf
      rw [List.cons_append, decodeBits, Engine.issue_dbit_internal he hn (b := b) hj', Option.bind_some, hrest]
      cases decodeBits bits { e with dcur := e.root } <;> simp

/-- At a Leaf every bit emits its symbol (R139). -/
theorem decodeBits_cons_of_leaf {e : Engine} (he : e.phase ≠ .load) {sym : CharCode} {f : Freq}
    (hleaf : nodeAt e.node e.dcur = some (.leaf sym f)) (b : Bool) (bits : BitString) :
    decodeBits (b :: bits) e = (decodeBits bits { e with dcur := e.root }).map (fun q => (q.1, sym :: q.2)) := by
  simp [decodeBits, Engine.issue_dbit_leaf he hleaf (b := b) hleaf]

/-! ## Codes and texts (R167, R168) -/

section
variable {e : Engine} (h : e.Inv) (he : e.phase = .coded)
include h he

/-- From the root the bits of a code emit its symbol and end at the root. -/
theorem decodeBits_code_append (hdcur : e.dcur = e.root) {i : SymIdx} {p : BitString} (hp : e.ct[i] = some p)
    (bits : BitString) :
    decodeBits (p ++ bits) e = (decodeBits bits e).map (fun q => (q.1, ordinalOf i :: q.2)) := by
  have he' : e.phase ≠ .load := by simp [he]
  have hct := Engine.recordsPaths_of_inv h he
  obtain ⟨n, hroot⟩ := (Engine.coded_shape_of_inv h he).walkable.root_exists
  have hpos := (Engine.codesWithin_of_inv h he i p hp).1
  cases n with
  | leaf sym f =>
    obtain ⟨rfl, rfl⟩ := (hct.1 sym f hroot i p).mp hp
    rw [List.singleton_append, decodeBits_cons_of_leaf he' (hdcur ▸ hroot), Engine.rewound_eq hdcur]
  | internal f l r =>
    obtain ⟨g, hg⟩ := (hct.2 f l r hroot i p).mp hp
    obtain ⟨k, hk, hleaf⟩ := follow_eq_some_iff.mp hg
    rw [decodeBits_append_of_descend he' (List.ne_nil_of_length_pos hpos) (hdcur ▸ hk) hleaf, Engine.rewound_eq hdcur]

/-- From the root the bits of an encoding emit the characters that have a code and end at the root. -/
theorem decodeBits_encodePure (hdcur : e.dcur = e.root) (text : List Nat) :
    decodeBits (encodePure e.ct text) e = some (e, (text.filter (hasCode e.ct)).map (BitVec.ofNat 8)) := by
  induction text with
  | nil => rfl
  | cons o text ih =>
    rw [encodePure, List.flatMap_cons, ← encodePure]
    by_cases ho : 32 ≤ o ∧ o ≤ 126
    · have hcodeOf : codeOfChar e.ct o = (e.ct[o - 32]).getD [] := dif_pos ho
      have hhas : hasCode e.ct o = (e.ct[o - 32]).isSome := dif_pos ho
      cases hp : e.ct[o - 32] with
      | none =>
        rw [hp] at hcodeOf hhas
        rw [hcodeOf, List.filter_cons_of_neg (by simp [hhas])]
        exact ih
      | some p =>
        rw [hp] at hcodeOf hhas
        have hord : ordinalOf ⟨o - 32, by omega⟩ = BitVec.ofNat 8 o := by
          rw [ordinalOf, Nat.sub_add_cancel ho.1]
        rw [hcodeOf, List.filter_cons_of_pos (by simp [hhas]), Option.getD_some,
          decodeBits_code_append h he hdcur (i := ⟨o - 32, by omega⟩) hp, ih, hord]
        rfl
    · have hcodeOf : codeOfChar e.ct o = [] := dif_neg ho
      have hhas : hasCode e.ct o = false := dif_neg ho
      rw [hcodeOf, List.filter_cons_of_neg (by simp [hhas])]
      exact ih

/-- Decode of an encoding, run on the engine. -/
theorem decodeText_encodePure (text : List Nat) :
    decodeText (encodePure e.ct text) e =
      some ({ e with dcur := e.root }, (text.filter (hasCode e.ct)).map (BitVec.ofNat 8)) := by
  have he' : e.phase ≠ .load := by simp [he]
  have h' : Engine.Inv { e with dcur := e.root } := Engine.inv_of_move h he' (.inl rfl)
  have hbits := decodeBits_encodePure h' he rfl text
  have hlast : Engine.issue .drst { e with dcur := e.root } = some ({ e with dcur := e.root }, ⟨.ok, 0⟩) := Engine.issue_drst he'
  simp only at hbits
  simp [decodeText, Engine.issue_drst he', hbits, hlast]

end

theorem hasCode_le {ct : Vector (Option BitString) 95} {o : Nat} (h : hasCode ct o = true) : o ≤ 126 := by
  unfold hasCode at h
  split at h
  next ho => exact ho.2
  next => cases h

theorem map_toNat_map_ofNat {os : List Nat} (h : ∀ o ∈ os, o ≤ 126) : (os.map (BitVec.ofNat 8)).map BitVec.toNat = os := by
  rw [List.map_map]
  conv_rhs => rw [← List.map_id os]
  refine List.map_congr_left fun o ho => ?_
  have := h o ho
  rw [Function.comp_apply, BitVec.toNat_ofNat, id_eq]
  omega

/-- Settles O50: Encode gives the codes, and their bits emit the symbols they belong to. -/
theorem decodeUndoesEncode : Obligations.DecodeUndoesEncode := by
  intro e text h he
  have hout : ((text.filter (hasCode e.ct)).map (BitVec.ofNat 8)).map BitVec.toNat = text.filter (hasCode e.ct) :=
    map_toNat_map_ofNat fun o ho => hasCode_le (List.mem_filter.mp ho).2
  exact ⟨_, _, _, encodeRunsAsThePureFunction e text h he, decodeText_encodePure h he text, hout, fun hall =>
    hout.trans (List.filter_eq_self.mpr hall)⟩

/-- Settles O51: each code leads from the root to a leaf, and so back to the root. -/
theorem encodingsEndAtTheRoot : Obligations.EncodingsEndAtTheRoot := fun _ text h he hdcur =>
  ⟨_, decodeBits_encodePure h he hdcur text⟩

/-! ## A single leaf (R139) -/

/-- A Leaf at the root emits its symbol once for every bit. -/
theorem decodeBits_of_root_leaf {e : Engine} (he : e.phase ≠ .load) (hdcur : e.dcur = e.root) {sym : CharCode} {f : Freq}
    (hleaf : nodeAt e.node e.root = some (.leaf sym f)) (bits : BitString) :
    decodeBits bits e = some (e, List.replicate bits.length sym) := by
  induction bits with
  | nil => rfl
  | cons b bits ih =>
    rw [decodeBits_cons_of_leaf he (hdcur ▸ hleaf), Engine.rewound_eq hdcur, ih]
    rfl

/-- Settles O45: the tree is one Leaf, where the cursor stands and stays. -/
theorem singleLeafDecodesEveryBit : Obligations.SingleLeafDecodesEveryBit := by
  intro s h hs hone
  have shape := Engine.treeShape_of_inv h hs
  have hL := Engine.nleaves_of_inv h hs
  rw [eq_one_iff_toNat_eq.mp hone] at hL
  have hdcur := Engine.dcur_eq_root_of_single h hs hone
  obtain ⟨sym, f, hleaf⟩ := (Engine.root_leaf_iff_of_inv h hs).mpr hone
  obtain ⟨-, i, rfl, -, -⟩ := shape.of_leaf hleaf
  have hlen : s.eng.node.length = 1 := by rw [shape.node_count, ← hL]
  have hroot : s.eng.root = 0 := BitVec.eq_of_toNat_eq (by rw [shape.root_is_last, hlen]; rfl)
  have hnode : s.eng.node = [.leaf (ordinalOf i) f] := by
    obtain ⟨x, hx⟩ := List.length_eq_one_iff.mp hlen
    rw [hroot, hx] at hleaf
    rw [hx, Option.some.inj hleaf]
  refine ⟨hroot, hdcur.trans hroot, ordinalOf i, f, hnode, ?_, ?_, fun b => ?_, fun bits => ?_⟩
  · rw [ordinalOf_toNat]
    omega
  · rw [ordinalOf_toNat]
    omega
  · have hkeeps : s.setDcur s.eng.root = s := by rw [← hdcur]; rfl
    have hcur := hdcur ▸ hleaf
    rw [exec_dbit_leaf hs hcur hcur, hkeeps]
  · have hbits := decodeBits_of_root_leaf (e := { s.eng with dcur := s.eng.root }) hs rfl hleaf bits
    have hlast : Engine.issue .drst { s.eng with dcur := s.eng.root } = some ({ s.eng with dcur := s.eng.root }, ⟨.ok, 0⟩) :=
      Engine.issue_drst hs
    exact ⟨_, by simp [decodeText, Engine.issue_drst hs, hbits, hlast]; rfl⟩

end Sys2Proof.Machine
end

section
/-! PROOFS. CONSTRUCT and Construct (30_encoding.md R78; 45_invariants.md R171, R172): in every phase, as a function of the table, and of
a text with one symbol. -/

namespace Sys2Proof.Machine

open Sys2Proof.Config (TieRule)

theorem buildTree_eq_none_of_allZero {t : TieRule} {ft : Vector Count 95} (h : allZero ft = true) : buildTree t ft = none :=
  buildTree_eq_none_iff.mpr (allZero_iff.mp h)

/-- Once a tree exists CONSTRUCT is refused and issues no GEN. -/
theorem Expansion.run_build_gen_of_phase {e : Engine} (he : e.phase ≠ .load) :
    (Expansion.ifOk .build .gen).run e = some (e, [⟨.errState, 0⟩]) := by
  have hrefused : permitted (Instr.op .build) e.phase = false := by simpa [Instr.op, permitted] using he
  exact Expansion.run_ifOk_error
    (Engine.issue_eq_of_exec (exec_of_not_permitted (s := ⟨e, [], []⟩) hrefused) rfl) (by decide)

/-- Settles O53: BUILD is refused, has nothing to build from, or leaves a tree for GEN. -/
theorem constructGeneratesOnlyAfterBuild : Obligations.ConstructGeneratesOnlyAfterBuild := by
  refine ⟨_, rfl, fun e _ => ⟨Expansion.run_build_gen_of_phase, fun he hzero => ?_, fun k he hk => ?_⟩⟩
  · exact Expansion.run_build_gen_of_none he (buildTree_eq_none_of_allZero hzero)
  · obtain ⟨b, hb⟩ := exists_buildTree_of_ne_zero TieRule.hardware hk
    obtain ⟨e', hrun, hphase, hinv, hft, hdcur⟩ := Expansion.run_build_gen_of_some he hb
    exact ⟨e', hrun, hinv, hphase, hft, hdcur⟩

/-- Settles O54: Construct refuses a table, or runs CONSTRUCT from the reset state with it. -/
theorem constructIsAFunctionOfTheTable : Obligations.ConstructIsAFunctionOfTheTable := by
  intro text text' e e' htable
  by_cases hfits : ∀ i : SymIdx, (freqAnalyze text)[i] < 2 ^ 32
  · rw [construct_of_fits e hfits, construct_of_fits e' (htable ▸ hfits), htable]
  · obtain ⟨i, hi⟩ := not_forall.mp hfits
    rw [construct_of_count_too_large e (not_lt.mp hi), construct_of_count_too_large e' (i := i) (htable ▸ not_lt.mp hi)]

end Sys2Proof.Machine
end

section
/-! PROOFS. The pins (30_encoding.md R79, R80; 70_reset_and_hazards.md R200, R203). The port is always in step with a run of the engine
over the words taken: nothing outstanding, one response held, or one word in flight; and every edge keeps it so. -/

namespace Sys2Proof.Machine

/-- Settles O59: an edge with `rst` = 1 reads nothing of the port but that. -/
theorem resetAbandonsTheCommandInFlight : Obligations.ResetAbandonsTheCommandInFlight := by
  intro p x hx
  have htaken (p : PortState) : p.taken x = none := by simp [PortState.taken, hx]
  have hdelivered (p : PortState) : p.delivered x = none := by
    unfold PortState.delivered
    cases p.transfer <;> simp [hx]
  have hedge (p : PortState) : p.edge x = ⟨.reset, .idle⟩ := p.edge_reset hx
  refine ⟨hedge p, htaken p, hdelivered p, rfl, by rw [hedge]; rfl, fun e w xs => ?_⟩
  simp only [PortState.run, htaken, hdelivered, hedge]

/-! ## One edge without reset -/

section
variable (e : Engine) (w : CommandWord) (r : Response) {x : PinsIn} (hrst : x.rst = false)
include hrst

theorem PortState.taken_idle : taken ⟨e, .idle⟩ x = if x.cmdValid then some x.cmd else none := by
  simp [taken, outputs, hrst]

theorem PortState.taken_busy : taken ⟨e, .busy w⟩ x = none := by simp [taken, outputs, hrst]

theorem PortState.taken_answered : taken ⟨e, .answered r⟩ x = none := by simp [taken, outputs, hrst]

theorem PortState.delivered_answered :
    delivered ⟨e, .answered r⟩ x = if x.rspReady then some r else none := by
  simp [delivered, outputs, hrst]

theorem PortState.edge_answered :
    edge ⟨e, .answered r⟩ x = if x.rspReady then ⟨e, .idle⟩ else ⟨e, .answered r⟩ := by
  simp [edge, hrst]

end

@[simp] theorem PortState.delivered_idle (e : Engine) (x : PinsIn) : delivered ⟨e, .idle⟩ x = none := rfl

@[simp] theorem PortState.delivered_busy (e : Engine) (w : CommandWord) (x : PinsIn) : delivered ⟨e, .busy w⟩ x = none := rfl

/-- Settles O58: each kind of edge on its own. -/
theorem portAnswersAndHolds : Obligations.PortAnswersAndHolds := by
  refine ⟨fun e w x h hrst hfin => ?_, fun e w x hrst hfin => ?_, fun _ _ => ⟨rfl, rfl⟩, fun e r x hrst => ?_⟩
  · obtain ⟨e', r, hans, hinv⟩ := Engine.exists_answer_of_inv h w
    have hwork : PortState.work e w x.finish = ⟨e', .answered r⟩ := by rw [hfin, PortState.work_answers hans]
    exact ⟨e', r, hans, hinv, (PortState.edge_works e w hrst).trans hwork, fun hv hw => by
      rw [PortState.edge_takes e hrst hv, hw, hwork]⟩
  · have hwork : PortState.work e w x.finish = ⟨e, .busy w⟩ := by rw [hfin, PortState.work_waits]
    exact ⟨(PortState.edge_works e w hrst).trans hwork, PortState.taken_busy e w hrst, rfl, fun hv hw => by
      rw [PortState.edge_takes e hrst hv, hw, hwork]⟩
  · rw [PortState.edge_answered e r hrst, PortState.delivered_answered e r hrst]
    exact ⟨fun hready => by simp [hready], fun hready => by simp [hready], PortState.taken_answered e r hrst, rfl, rfl, rfl⟩

/-! ## A run of edges -/

/-- One more edge at the end of a run. -/
theorem PortState.run_concat (p : PortState) (xs : List PinsIn) (x : PinsIn) :
    p.run (xs ++ [x]) =
      ⟨(p.run xs).last.edge x, (p.run xs).taken ++ ((p.run xs).last.taken x).toList,
        (p.run xs).delivered ++ ((p.run xs).last.delivered x).toList⟩ := by
  induction xs generalizing p with
  | nil => simp [run]
  | cons y xs ih => simp [run, ih]

theorem Engine.answers_concat {e e' e'' : Engine} {ws : List CommandWord} {w : CommandWord} {rs : List Response} {r : Response}
    (hws : e.answers ws = some (e', rs)) (hw : e'.answer w = some (e'', r)) :
    e.answers (ws ++ [w]) = some (e'', rs ++ [r]) := by
  induction ws generalizing e rs with
  | nil =>
    cases hws
    exact Engine.answers_cons hw rfl
  | cons v ws ih =>
    cases hv : e.answer v with
    | none => simp [Engine.answers, hv] at hws
    | some p =>
      obtain ⟨e₁, r₁⟩ := p
      simp only [Engine.answers, hv, Option.map_eq_some_iff, Prod.mk.injEq] at hws
      obtain ⟨⟨e₂, rs₁⟩, hrest, rfl, rfl⟩ := hws
      exact Engine.answers_cons hv (ih hrest)

/-- What a run of edges without reset from the idle engine `e` has done: the words taken were answered in order, and the last of
them may be still in flight or its response still held. -/
inductive InStep (e : Engine) : PortTrace → Prop
  | idle {e' : Engine} {ws : List CommandWord} {rs : List Response} (hinv : e'.Inv) (hans : e.answers ws = some (e', rs)) :
      InStep e ⟨⟨e', .idle⟩, ws, rs⟩
  | busy {e' : Engine} {ws : List CommandWord} {rs : List Response} (w : CommandWord) (hinv : e'.Inv)
      (hans : e.answers ws = some (e', rs)) : InStep e ⟨⟨e', .busy w⟩, ws ++ [w], rs⟩
  | answered {e' : Engine} {ws : List CommandWord} {rs : List Response} {r : Response} (hinv : e'.Inv)
      (hans : e.answers ws = some (e', rs ++ [r])) : InStep e ⟨⟨e', .answered r⟩, ws, rs⟩

/-- A word taken is in flight or answered after the edge. -/
theorem InStep.work {e e' : Engine} {ws : List CommandWord} {rs : List Response} (hinv : e'.Inv)
    (hans : e.answers ws = some (e', rs)) (w : CommandWord) (finish : Bool) :
    InStep e ⟨PortState.work e' w finish, ws ++ [w], rs⟩ := by
  cases finish with
  | false => exact .busy w hinv hans
  | true =>
    obtain ⟨e'', r, hw, hinv'⟩ := Engine.exists_answer_of_inv hinv w
    rw [PortState.work_answers hw]
    exact .answered hinv' (Engine.answers_concat hans hw)

theorem InStep.edge {e : Engine} {trace : PortTrace} (h : InStep e trace) {x : PinsIn} (hrst : x.rst = false) :
    InStep e ⟨trace.last.edge x, trace.taken ++ (trace.last.taken x).toList,
      trace.delivered ++ (trace.last.delivered x).toList⟩ := by
  cases h with
  | @idle e' ws rs hinv hans =>
    simp only [PortState.taken_idle e' hrst, PortState.delivered_idle, Option.toList_none, List.append_nil]
    cases hv : x.cmdValid with
    | true =>
      rw [PortState.edge_takes e' hrst hv]
      exact .work hinv hans x.cmd x.finish
    | false =>
      rw [PortState.edge_idles e' hrst hv]
      simpa using InStep.idle hinv hans
  | @busy e' ws rs w hinv hans =>
    simp only [PortState.taken_busy e' w hrst, PortState.delivered_busy, PortState.edge_works e' w hrst, Option.toList_none,
      List.append_nil]
    exact .work hinv hans w x.finish
  | @answered e' ws rs r hinv hans =>
    simp only [PortState.taken_answered e' r hrst, PortState.delivered_answered e' r hrst, PortState.edge_answered e' r hrst,
      Option.toList_none, List.append_nil]
    cases x.rspReady with
    | true => exact .idle hinv hans
    | false => simpa using InStep.answered hinv hans

theorem inStep_run {e : Engine} (h : e.Inv) {xs : List PinsIn} (hrst : ∀ x, x ∈ xs → x.rst = false) :
    InStep e (PortState.run ⟨e, .idle⟩ xs) := by
  induction xs using List.reverseRecOn with
  | nil => exact .idle h rfl
  | append_singleton xs x ih =>
    rw [PortState.run_concat]
    exact (ih fun y hy => hrst y (List.mem_append_left _ hy)).edge (hrst x (by simp))

/-- Settles O57: the port is in step after every edge. -/
theorem portDeliversTheRunOfTheWordsTaken : Obligations.PortDeliversTheRunOfTheWordsTaken := by
  intro e xs h hrst
  have hstep := inStep_run h hrst
  generalize PortState.run ⟨e, .idle⟩ xs = trace at hstep
  cases hstep with
  | @idle e' ws rs _ hans => exact ⟨e', rs, hans, rfl, rfl⟩
  | @answered e' ws rs r _ hans => exact ⟨e', rs ++ [r], hans, rfl, rfl⟩
  | @busy e' ws rs w hinv hans =>
    obtain ⟨e'', r, hw, -⟩ := Engine.exists_answer_of_inv hinv w
    exact ⟨e'', rs ++ [r], Engine.answers_concat hans hw, by simp, by simp, by simpa using hans⟩

end Sys2Proof.Machine
end

section
/-! PROOFS. Codes of one and of two symbols (45_invariants.md R172, R174). With two symbols the tree is the two leaves and their parent,
and the parent's left child, with the code "0", is the leaf with the lesser key. -/

namespace Sys2Proof.Machine

open Sys2Proof.Config (TieRule)

/-! ## Two symbols -/

theorem leafCount_eq_card (ft : Vector Count 95) :
    leafCount ft = (Finset.univ.filter (fun i : SymIdx => ft[i] ≠ 0)).card := by
  rw [leafCount, ← List.toFinset_card_of_nodup ((List.nodup_finRange 95).filter _)]
  congr 1
  ext i
  simp

theorem leafCount_eq_two {ft : Vector Count 95} {i j : SymIdx} (hij : i ≠ j) (hi : ft[i] ≠ 0) (hj : ft[j] ≠ 0)
    (hother : ∀ k : SymIdx, k ≠ i → k ≠ j → ft[k] = 0) : leafCount ft = 2 := by
  rw [leafCount_eq_card, ← Finset.card_pair hij]
  congr 1
  ext k
  simp only [Finset.mem_filter, Finset.mem_univ, true_and, Finset.mem_insert, Finset.mem_singleton]
  refine ⟨fun hk => ?_, ?_⟩
  · by_contra hne
    exact hk (hother k (fun h => hne (.inl h)) (fun h => hne (.inr h)))
  · rintro (rfl | rfl)
    · exact hi
    · exact hj

/-- A Leaf below the root has the one bit that leads to it as its code. -/
theorem RecordsPaths.code_of_child {nodes : List Node} {root l r : NodeIdx} {f g : Freq}
    {ct : Vector (Option BitString) 95} (hct : RecordsPaths nodes root ct)
    (hroot : nodeAt nodes root = some (.internal f l r)) {b : Bool} {i : SymIdx}
    (hleaf : nodeAt nodes (if b then r else l) = some (.leaf (ordinalOf i) g)) : ct[i] = some [b] :=
  (hct.2 f l r hroot i [b]).mpr ⟨g, (follow_cons_of_internal hroot b []).trans hleaf⟩

/-- With two symbols the first two nodes are their leaves, in order. -/
theorem TreeShape.two_leaves {ft : Vector Count 95} {nodes : List Node} {root : NodeIdx} (shape : TreeShape ft nodes root)
    {i j : SymIdx} (hij : i < j) (hother : ∀ k : SymIdx, k ≠ i → k ≠ j → ft[k] = 0) (hL : leafCount ft = 2) :
    nodeAt nodes 0 = some (.leaf (ordinalOf i) (ft[i].setWidth 39)) ∧
      nodeAt nodes 1 = some (.leaf (ordinalOf j) (ft[j].setWidth 39)) := by
  have hzero : (0 : NodeIdx).toNat < leafCount ft := by rw [hL]; decide
  have hone : (1 : NodeIdx).toNat < leafCount ft := by rw [hL]; decide
  obtain ⟨i₀, hn₀, hi₀⟩ := shape.symbol_of_lt hzero
  obtain ⟨i₁, hn₁, hi₁⟩ := shape.symbol_of_lt hone
  have hlt := shape.symbols_increase _ _ _ _ _ _ (by decide : (0 : NodeIdx).toNat < (1 : NodeIdx).toNat) hn₀ hn₁
  rw [ordinalOf_toNat, ordinalOf_toNat] at hlt
  have hmem {k : SymIdx} (hk : ft[k] ≠ 0) : k = i ∨ k = j := by
    by_contra hne
    exact hk (hother k (fun h => hne (.inl h)) (fun h => hne (.inr h)))
  have hij' : i.val < j.val := hij
  obtain rfl | rfl := hmem hi₀
  · obtain rfl | rfl := hmem hi₁
    · omega
    · exact ⟨hn₀, hn₁⟩
  · obtain rfl | rfl := hmem hi₁
    · omega
    · omega

/-- The root of a tree of two symbols has their two leaves as children, the one with the lesser key on the left. -/
theorem root_of_two_leaves {ft : Vector Count 95} {b : Built} (h : buildTree TieRule.hardware ft = some b)
    (hL : leafCount ft = 2) :
    (freqAt b.nodes 1 < freqAt b.nodes 0 → ∃ f, nodeAt b.nodes b.root = some (.internal f 1 0)) ∧
      (freqAt b.nodes 0 ≤ freqAt b.nodes 1 → ∃ f, nodeAt b.nodes b.root = some (.internal f 0 1)) := by
  have shape := treeShape_of_buildTree h
  have hlen := shape.node_count
  have hroot := shape.root_is_last
  obtain ⟨last, -, hm⟩ := exists_merged_of_buildTree h
  obtain ⟨f, l, r, hget, hl, hr, hkey, -⟩ := hm.joins b.root.toNat (by omega) shape.root_lt
  have hne : l.toNat ≠ r.toNat := fun heq => (shape.of_internal hget).2.2.2 (BitVec.eq_of_toNat_eq heq)
  have hlt : l.toNat < 2 := by have := hl.1; omega
  have hlt' : r.toNat < 2 := by have := hr.1; omega
  have hnode : nodeAt b.nodes b.root = some (.internal f l r) := hget
  obtain ⟨hl0, hr1⟩ | ⟨hl1, hr0⟩ : l.toNat = 0 ∧ r.toNat = 1 ∨ l.toNat = 1 ∧ r.toNat = 0 := by omega
  · obtain rfl : l = 0 := BitVec.eq_of_toNat_eq hl0
    obtain rfl : r = 1 := BitVec.eq_of_toNat_eq hr1
    rw [hl0, hr1, KeyBefore] at hkey
    exact ⟨fun hbad => by omega, fun _ => ⟨f, hnode⟩⟩
  · obtain rfl : l = 1 := BitVec.eq_of_toNat_eq hl1
    obtain rfl : r = 0 := BitVec.eq_of_toNat_eq hr0
    rw [hl1, hr0, KeyBefore] at hkey
    exact ⟨fun _ => ⟨f, hnode⟩, fun hbad => by omega⟩

theorem freqAnalyze_aab (i : SymIdx) :
    (freqAnalyze [97, 97, 98])[i] = if i.val = 65 then 2 else if i.val = 66 then 1 else 0 := by
  rw [freqAnalyze_get]
  revert i
  decide

/-- Settles O56: the two leaves hold the counts, and the root has the lesser on the left. -/
theorem twoSymbolCodes : Obligations.TwoSymbolCodes := by
  refine ⟨fun e i j h he hij hi hj hother => ?_, freqAnalyze_aab⟩
  have he' : e.phase ≠ .load := by simp [he]
  have hL := leafCount_eq_two hij.ne hi hj hother
  have hct := Engine.recordsPaths_of_inv h he
  obtain ⟨hn₀, hn₁⟩ := (Engine.coded_shape_of_inv h he).two_leaves hij hother hL
  have hroot := root_of_two_leaves (Engine.buildTree_of_inv h he') hL
  have hf₀ : freqAt e.node 0 = e.ft[i].toNat := (freqAt_of_getElem? hn₀).trans (count_toNat_setWidth _)
  have hf₁ : freqAt e.node 1 = e.ft[j].toNat := (freqAt_of_getElem? hn₁).trans (count_toNat_setWidth _)
  rw [hf₀, hf₁] at hroot
  refine ⟨fun hlt => ?_, fun hle => ?_⟩
  · obtain ⟨f, hr⟩ := hroot.1 hlt
    exact ⟨hct.code_of_child hr (b := false) hn₁, hct.code_of_child hr (b := true) hn₀⟩
  · obtain ⟨f, hr⟩ := hroot.2 hle
    exact ⟨hct.code_of_child hr (b := false) hn₀, hct.code_of_child hr (b := true) hn₁⟩

/-! ## One symbol -/

/-- The coder of the text "aaaa". -/
def coderAaaa : Engine :=
  { phase := .coded
    ft := (Vector.replicate 95 0).set 65 4
    nleaves := 1
    nnodes := 1
    root := 0
    node := [.leaf 97 4]
    ct := noCodes.set 65 (some [false])
    dcur := 0 }

theorem construct_aaaa : construct [97, 97, 97, 97] .reset = .coder coderAaaa := by decide

theorem coderAaaa_inv : coderAaaa.Inv := by decide

theorem encodePure_aaaa : encodePure coderAaaa.ct [97, 97, 97, 97] = [false, false, false, false] := by decide

theorem filter_hasCode_aaaa : [97, 97, 97, 97].filter (hasCode coderAaaa.ct) = [97, 97, 97, 97] := by decide

/-- Settles O55: Construct is run on "aaaa"; Encode and Decode are then the pure functions (R130, R167) of its code table. -/
theorem singleSymbolCase : Obligations.SingleSymbolCase := by
  have hencode := encodeRunsAsThePureFunction coderAaaa [97, 97, 97, 97] coderAaaa_inv rfl
  have hdecode := decodeText_encodePure coderAaaa_inv rfl [97, 97, 97, 97]
  rw [encodePure_aaaa] at hencode hdecode
  rw [filter_hasCode_aaaa] at hdecode
  exact ⟨coderAaaa, construct_aaaa, rfl, rfl, rfl, rfl, by decide, hencode, hdecode⟩

end Sys2Proof.Machine
end
